-- ==== Sys2Proof/Word.lean ====
section
/-! DEFINITION. The word types of the block and their plainest readings (spec/00_scope R12, R13). -/

namespace Sys2Proof

/-- A data byte of a register command, or a byte of sample data. -/
abbrev Byte := BitVec 8

/-- A 16-bit stored field or region word. -/
abbrev Half := BitVec 16

/-- A 32-bit register value or command word. -/
abbrev Word := BitVec 32

end Sys2Proof
end

