-- ==== Sys2Proof/Config.lean ====
section
/-! DEFINITION. The configuration parameters of spec/00_scope R10, as plain data carried by START, and the one
uninterpreted function a FILTER_STAGE2 may name. What the parameters mean is in Machine/Operands.lean and
Machine/Ops.lean. -/

namespace Sys2Proof

/-- The three engines (R1). -/
inductive Engine where
  | wve
  | adp
  | swe
  deriving DecidableEq, Repr

/-- ULAW_TABLE (R10, R218): the default table of R218, or 256 entries given by the host. Only the entries matter;
`g711` is a short way to write the default ones (log 9). -/
inductive UlawTable where
  | g711
  | entries (values : List Int)
  deriving DecidableEq, Repr

/-- What a second-stage pole may read: the shifted coefficients (R220), the interpolated sample `x` (R219), the
new pole outputs `p1 p2 p3` and the histories `o1 .. o4` as they were before this TICK (R223, R225, R226). -/
inductive PoleVar where
  | k1
  | k2
  | x
  | p1
  | p2
  | p3
  | o1
  | o2
  | o3
  | o4
  deriving DecidableEq, Repr

/-- The values a second-stage pole may read, as exact integers (R13). -/
structure PoleInputs where
  k1 : Int
  k2 : Int
  x  : Int
  p1 : Int
  p2 : Int
  p3 : Int
  o1 : Int
  o2 : Int
  o3 : Int
  o4 : Int
  deriving DecidableEq, Repr

/-- FREE VALUE (log 10, DESIGN CHOICE). A FILTER_STAGE2 recurrence that the expressions of `PoleExpr` do not
write, by number, over everything a pole may read. It has no body: nothing can be proved of its value. -/
opaque Config.otherPole : Nat → PoleInputs → Int

/-- A recurrence of FILTER_STAGE2 as plain data (R10 "a recurrence per filter mode"; log 10). `tdiv` truncates
toward zero and `shr` is the floor shift (R14). `other n` is the uninterpreted recurrence `Config.otherPole n`. -/
inductive PoleExpr where
  | const (n : Int)
  | var (v : PoleVar)
  | add (a b : PoleExpr)
  | sub (a b : PoleExpr)
  | mul (a b : PoleExpr)
  | tdiv (a : PoleExpr) (divisor : Nat)
  | shr (a : PoleExpr) (n : Nat)
  | wrap32 (a : PoleExpr)
  | clamp (a : PoleExpr) (lo hi : Int)
  | other (n : Nat)
  deriving DecidableEq, Repr

/-- Poles 3 and 4 of one filter mode. -/
structure PoleRule where
  pole3 : PoleExpr
  pole4 : PoleExpr
  deriving DecidableEq, Repr

/-- FILTER_STAGE2 (R10, R224): the default table of R225, or one rule for each FMODE 0 to 3. -/
inductive Stage2 where
  | standard
  | rules (mode0 mode1 mode2 mode3 : PoleRule)
  deriving DecidableEq, Repr

/-- The configuration record of a WVE START (R10); `chans` is the spec's `C`. -/
structure WveConfig where
  clock   : Nat
  actv    : Nat
  accBits : Nat := 32
  chans   : Nat := 2
  ulaw    : UlawTable := .g711
  stage2  : Stage2 := .standard
  deriving DecidableEq, Repr

/-- The configuration record of an ADP START (R10). -/
structure AdpConfig where
  clock : Nat
  deriving DecidableEq, Repr

/-- The configuration record of a SWE START (R10); `clockDiv` is SWE_CLOCK_DIV (R336). -/
structure SweConfig where
  clock    : Nat
  clockDiv : Nat := 1
  deriving DecidableEq, Repr

end Sys2Proof
end

