-- ==== Sys2Proof/Syntax.lean ====
section
/-! DEFINITION. The commands of the block, one constructor a row of spec/opcode_table.json. An instruction holds
what its command word encodes; out-of-band operands (R111) are in the machine's state (log 3). -/

namespace Sys2Proof

/-- The WVE registers a host address can select (R104). -/
inductive WveReg where
  | ctrl
  | freq
  | start
  | endA
  | accum
  | lvol
  | lvramp
  | rvol
  | rvramp
  | ecount
  | k1
  | k1ramp
  | k2
  | k2ramp
  | o1
  | o2
  | o3
  | o4
  | page
  deriving DecidableEq, Repr

/-- The register commands that decode to no register (R112): a WVE access with ADDR[15:6] nonzero, an ADP write to
ADDR at least 2, a SWE write with FN 6 to 15. -/
inductive IgnoredAccess where
  | wveWrite (addr : BitVec 16) (d : Byte)
  | wveRead (addr : BitVec 16)
  | adpWrite (addr : BitVec 16) (d : Byte)
  | sweWrite (addr : BitVec 16) (d : Byte)
  deriving DecidableEq, Repr

/-- The host commands (R100, R116). `n` is the register number ADDR[5:2], `d` the DATA byte, `addr` the whole
ADDR, `a` the low 12 bits of a SWE address (P12 for a latch write). -/
inductive Instr where
  | wveWrL0 (n : BitVec 4) (d : Byte)
  | wveWrL1 (n : BitVec 4) (d : Byte)
  | wveWrL2 (n : BitVec 4) (d : Byte)
  | wveWrCtrl (d : Byte)
  | wveWrFreq (d : Byte)
  | wveWrStart (d : Byte)
  | wveWrEnd (d : Byte)
  | wveWrAccum (d : Byte)
  | wveWrLvol (d : Byte)
  | wveWrLvramp (d : Byte)
  | wveWrRvol (d : Byte)
  | wveWrRvramp (d : Byte)
  | wveWrEcount (d : Byte)
  | wveWrK1 (d : Byte)
  | wveWrK1ramp (d : Byte)
  | wveWrK2 (d : Byte)
  | wveWrK2ramp (d : Byte)
  | wveWrO1 (d : Byte)
  | wveWrO2 (d : Byte)
  | wveWrO3 (d : Byte)
  | wveWrO4 (d : Byte)
  | wveWrPage (d : Byte)
  | wveWrNone (n : BitVec 4) (d : Byte)
  | wveRdL0 (n : BitVec 4)
  | wveRdL1 (n : BitVec 4)
  | wveRdL2 (n : BitVec 4)
  | wveRdL3 (n : BitVec 4)
  | wveLoad
  | wveMute
  | wveReset
  | wveStart
  | wveStop
  | wveTick
  | adpWrData (d : Byte)
  | adpWrCtrl (d : Byte)
  | adpRd (addr : BitVec 16)
  | adpLoad
  | adpMute
  | adpReset
  | adpStart
  | adpStop
  | adpTick
  | sweWrCtrl0 (a : BitVec 12) (d : Byte)
  | sweWrCtrl1 (a : BitVec 12) (d : Byte)
  | sweWrLatch0 (a : BitVec 12) (d : Byte)
  | sweWrLatch1 (a : BitVec 12) (d : Byte)
  | sweWrTrig0 (a : BitVec 12) (d : Byte)
  | sweWrTrig1 (a : BitVec 12) (d : Byte)
  | sweRd (addr : BitVec 16)
  | sweLoad
  | sweMute
  | sweReset
  | sweStart
  | sweStop
  | sweTick
  | ignored (acc : IgnoredAccess)
  deriving DecidableEq, Repr

end Sys2Proof
end

