-- ==== Sys2Proof/WellFormed.lean ====
section
/-! DEFINITION. Which terms of Instr are commands: the operand ranges that the types of Sys2Proof/Syntax.lean do not
already force (R104, R112). -/

namespace Sys2Proof

/-- An ignored access has an address that decodes to no register (R103, R106, R107, R112). -/
def IgnoredAccess.wf : IgnoredAccess → Bool
  | .wveWrite addr _ => addr.extractLsb' 6 10 != 0#10
  | .wveRead addr => addr.extractLsb' 6 10 != 0#10
  | .adpWrite addr _ => decide (2 ≤ addr.toNat)
  | .sweWrite addr _ => decide (6 ≤ (addr.extractLsb' 12 4).toNat)

/-- WVE.WR.NONE never has N = 15, which is PAGE in every group (R104, R162); every other check is IGNORED's. -/
def Instr.wf : Instr → Bool
  | .wveWrNone n _ => n != 15#4
  | .ignored acc => acc.wf
  | _ => true

end Sys2Proof
end

