-- ==== Sys2Proof/Decode.lean ====
section
/-! DEFINITION. The command-word decoder (spec/30_encoding R100 to R107, R112, R116), total on every 32-bit word and
rejecting by name, and after it the encoder written from the same tables. -/

namespace Sys2Proof

/-- Why a word spells no command (R101). -/
inductive DecodeError where
  | noEngine      -- ENG = 3
  | reservedBits  -- Z is not 0
  | strayAddr     -- ADDR is not 0 where R100 says 0
  | strayData     -- DATA is not 0 where R100 says 0
  deriving DecidableEq, Repr

/-- ENG, bits 31:30 (R100). -/
def wordEng (w : Word) : BitVec 2 := w.extractLsb' 30 2
/-- KIND, bits 29:27 (R100). -/
def wordKind (w : Word) : BitVec 3 := w.extractLsb' 27 3
/-- Z, bits 26:24, which must be 0 (R100, R101). -/
def wordZ (w : Word) : BitVec 3 := w.extractLsb' 24 3
/-- ADDR, bits 23:8 (R100). -/
def wordAddr (w : Word) : BitVec 16 := w.extractLsb' 8 16
/-- DATA, bits 7:0 (R100). -/
def wordData (w : Word) : Byte := w.extractLsb' 0 8

/-- The lane ADDR[1:0] of a WVE address (R103). -/
def addrLane (addr : BitVec 16) : BitVec 2 := addr.extractLsb' 0 2
/-- The register number ADDR[5:2] of a WVE address (R103). -/
def addrN (addr : BitVec 16) : BitVec 4 := addr.extractLsb' 2 4
/-- ADDR[15:6], 0 in a WVE address that selects something (R103). -/
def addrHigh (addr : BitVec 16) : BitVec 10 := addr.extractLsb' 6 10
/-- FN, ADDR[15:12] of a SWE address (R107). -/
def addrFn (addr : BitVec 16) : BitVec 4 := addr.extractLsb' 12 4
/-- P12, ADDR[11:0] of a SWE address (R107). -/
def addrP12 (addr : BitVec 16) : BitVec 12 := addr.extractLsb' 0 12

/-- The WVE register selected by (PAGE.GROUP, N), the table of R104; `none` is "no register". -/
def wveTarget (g : BitVec 2) (n : BitVec 4) : Option WveReg :=
  match n.toNat, g.toNat with
  | 15, _ => some .page
  | 0, 0 => some .ctrl
  | 1, 0 => some .freq
  | 2, 0 => some .start
  | 3, 0 => some .endA
  | 4, 0 => some .accum
  | 0, 1 => some .lvol
  | 1, 1 => some .lvramp
  | 2, 1 => some .rvol
  | 3, 1 => some .rvramp
  | 4, 1 => some .ecount
  | 0, 2 => some .k1
  | 1, 2 => some .k1ramp
  | 2, 2 => some .k2
  | 3, 2 => some .k2ramp
  | 4, 2 => some .o1
  | 5, 2 => some .o2
  | 6, 2 => some .o3
  | 7, 2 => some .o4
  | _, _ => none

/-- The row of a lane-3 WVE write to register number `n` in group `g` (R116, R161, R162). -/
def decodeCommit (g : BitVec 2) (n : BitVec 4) (d : Byte) : Instr :=
  match wveTarget g n with
  | none => .wveWrNone n d
  | some .ctrl => .wveWrCtrl d
  | some .freq => .wveWrFreq d
  | some .start => .wveWrStart d
  | some .endA => .wveWrEnd d
  | some .accum => .wveWrAccum d
  | some .lvol => .wveWrLvol d
  | some .lvramp => .wveWrLvramp d
  | some .rvol => .wveWrRvol d
  | some .rvramp => .wveWrRvramp d
  | some .ecount => .wveWrEcount d
  | some .k1 => .wveWrK1 d
  | some .k1ramp => .wveWrK1ramp d
  | some .k2 => .wveWrK2 d
  | some .k2ramp => .wveWrK2ramp d
  | some .o1 => .wveWrO1 d
  | some .o2 => .wveWrO2 d
  | some .o3 => .wveWrO3 d
  | some .o4 => .wveWrO4 d
  | some .page => .wveWrPage d

/-- A WVE WRITE (R103, R112, R160, R161). -/
def decodeWveWrite (g : BitVec 2) (addr : BitVec 16) (d : Byte) : Instr :=
  if addrHigh addr = 0#10 then
    match (addrLane addr).toNat with
    | 0 => .wveWrL0 (addrN addr) d
    | 1 => .wveWrL1 (addrN addr) d
    | 2 => .wveWrL2 (addrN addr) d
    | _ => decodeCommit g (addrN addr) d
  else .ignored (.wveWrite addr d)

/-- A WVE READ (R103, R112, R182, R183). -/
def decodeWveRead (addr : BitVec 16) : Instr :=
  if addrHigh addr = 0#10 then
    match (addrLane addr).toNat with
    | 0 => .wveRdL0 (addrN addr)
    | 1 => .wveRdL1 (addrN addr)
    | 2 => .wveRdL2 (addrN addr)
    | _ => .wveRdL3 (addrN addr)
  else .ignored (.wveRead addr)

/-- An ADP WRITE (R106, R270). -/
def decodeAdpWrite (addr : BitVec 16) (d : Byte) : Instr :=
  match addr.toNat with
  | 0 => .adpWrData d
  | 1 => .adpWrCtrl d
  | _ => .ignored (.adpWrite addr d)

/-- A SWE WRITE (R107, R320). -/
def decodeSweWrite (addr : BitVec 16) (d : Byte) : Instr :=
  match (addrFn addr).toNat with
  | 0 => .sweWrCtrl0 (addrP12 addr) d
  | 1 => .sweWrCtrl1 (addrP12 addr) d
  | 2 => .sweWrLatch0 (addrP12 addr) d
  | 3 => .sweWrLatch1 (addrP12 addr) d
  | 4 => .sweWrTrig0 (addrP12 addr) d
  | 5 => .sweWrTrig1 (addrP12 addr) d
  | _ => .ignored (.sweWrite addr d)

/-- A command of KIND 2 to 7, which has neither ADDR nor DATA (R100, R102). -/
def decodeControl (eng : Engine) (kind : BitVec 3) : Instr :=
  match eng, kind.toNat with
  | .wve, 2 => .wveLoad
  | .wve, 3 => .wveMute
  | .wve, 4 => .wveReset
  | .wve, 5 => .wveStart
  | .wve, 6 => .wveStop
  | .wve, _ => .wveTick
  | .adp, 2 => .adpLoad
  | .adp, 3 => .adpMute
  | .adp, 4 => .adpReset
  | .adp, 5 => .adpStart
  | .adp, 6 => .adpStop
  | .adp, _ => .adpTick
  | .swe, 2 => .sweLoad
  | .swe, 3 => .sweMute
  | .swe, 4 => .sweReset
  | .swe, 5 => .sweStart
  | .swe, 6 => .sweStop
  | .swe, _ => .sweTick

/-- The engine a word addresses (R100): ENG = 3 is none. -/
def wordEngine (w : Word) : Option Engine :=
  match (wordEng w).toNat with
  | 0 => some .wve
  | 1 => some .adp
  | 2 => some .swe
  | _ => none

/-- The decoder (R116): the row that the command word `w` matches while PAGE.GROUP is `g`, or the reason why `w`
spells no command (R101). -/
def decode (g : BitVec 2) (w : Word) : Except DecodeError Instr :=
  match wordEngine w with
  | none => .error .noEngine
  | some eng =>
    if wordZ w ≠ 0#3 then .error .reservedBits
    else
      match (wordKind w).toNat with
      | 0 =>
        match eng with
        | .wve => .ok (decodeWveWrite g (wordAddr w) (wordData w))
        | .adp => .ok (decodeAdpWrite (wordAddr w) (wordData w))
        | .swe => .ok (decodeSweWrite (wordAddr w) (wordData w))
      | 1 =>
        if wordData w ≠ 0#8 then .error .strayData
        else
          match eng with
          | .wve => .ok (decodeWveRead (wordAddr w))
          | .adp => .ok (.adpRd (wordAddr w))
          | .swe => .ok (.sweRd (wordAddr w))
      | _ =>
        if wordAddr w ≠ 0#16 then .error .strayAddr
        else if wordData w ≠ 0#8 then .error .strayData
        else .ok (decodeControl eng (wordKind w))

/-- The instruction of a table word: PAGE.GROUP is 0, as it is after RESET and START (R45; log 5). A command word has
32 bits (R100), so a value that does not fit in 32 bits is none. -/
def decodeTableWord (nbits w : Nat) : Option Instr :=
  if w % 2 ^ nbits < 2 ^ 32 then
    match decode 0#2 (BitVec.ofNat 32 (w % 2 ^ nbits)) with
    | .ok i => some i
    | .error _ => none
  else none

/-- A command word from its fields, Z = 0 (R100). -/
def packWord (eng : BitVec 2) (kind : BitVec 3) (addr : BitVec 16) (data : Byte) : Word :=
  eng ++ kind ++ 0#3 ++ addr ++ data

/-- The WVE address of lane `l` of register number `n` (R103). -/
def wveAddr (n : BitVec 4) (l : BitVec 2) : BitVec 16 := 0#10 ++ n ++ l

/-- A WVE write of lane `l` (R100, R103). -/
def encodeWveWrite (n : BitVec 4) (l : BitVec 2) (d : Byte) : Word := packWord 0#2 0#3 (wveAddr n l) d

/-- A WVE read of lane `l` (R100, R103). -/
def encodeWveRead (n : BitVec 4) (l : BitVec 2) : Word := packWord 0#2 1#3 (wveAddr n l) 0#8

/-- A SWE write of function `fn` (R100, R107). -/
def encodeSweWrite (fn : BitVec 4) (a : BitVec 12) (d : Byte) : Word := packWord 2#2 0#3 (fn ++ a) d

/-- A command with no ADDR and no DATA (R100, R102). -/
def encodeControl (eng : BitVec 2) (kind : BitVec 3) : Word := packWord eng kind 0#16 0#8

/-- The encoder: the command word of an instruction (R100 to R107 and the table's match values). -/
def encode : Instr → Word
  | .wveWrL0 n d => encodeWveWrite n 0#2 d
  | .wveWrL1 n d => encodeWveWrite n 1#2 d
  | .wveWrL2 n d => encodeWveWrite n 2#2 d
  | .wveWrCtrl d => encodeWveWrite 0#4 3#2 d
  | .wveWrFreq d => encodeWveWrite 1#4 3#2 d
  | .wveWrStart d => encodeWveWrite 2#4 3#2 d
  | .wveWrEnd d => encodeWveWrite 3#4 3#2 d
  | .wveWrAccum d => encodeWveWrite 4#4 3#2 d
  | .wveWrLvol d => encodeWveWrite 0#4 3#2 d
  | .wveWrLvramp d => encodeWveWrite 1#4 3#2 d
  | .wveWrRvol d => encodeWveWrite 2#4 3#2 d
  | .wveWrRvramp d => encodeWveWrite 3#4 3#2 d
  | .wveWrEcount d => encodeWveWrite 4#4 3#2 d
  | .wveWrK1 d => encodeWveWrite 0#4 3#2 d
  | .wveWrK1ramp d => encodeWveWrite 1#4 3#2 d
  | .wveWrK2 d => encodeWveWrite 2#4 3#2 d
  | .wveWrK2ramp d => encodeWveWrite 3#4 3#2 d
  | .wveWrO1 d => encodeWveWrite 4#4 3#2 d
  | .wveWrO2 d => encodeWveWrite 5#4 3#2 d
  | .wveWrO3 d => encodeWveWrite 6#4 3#2 d
  | .wveWrO4 d => encodeWveWrite 7#4 3#2 d
  | .wveWrPage d => encodeWveWrite 15#4 3#2 d
  | .wveWrNone n d => encodeWveWrite n 3#2 d
  | .wveRdL0 n => encodeWveRead n 0#2
  | .wveRdL1 n => encodeWveRead n 1#2
  | .wveRdL2 n => encodeWveRead n 2#2
  | .wveRdL3 n => encodeWveRead n 3#2
  | .wveLoad => encodeControl 0#2 2#3
  | .wveMute => encodeControl 0#2 3#3
  | .wveReset => encodeControl 0#2 4#3
  | .wveStart => encodeControl 0#2 5#3
  | .wveStop => encodeControl 0#2 6#3
  | .wveTick => encodeControl 0#2 7#3
  | .adpWrData d => packWord 1#2 0#3 0#16 d
  | .adpWrCtrl d => packWord 1#2 0#3 1#16 d
  | .adpRd addr => packWord 1#2 1#3 addr 0#8
  | .adpLoad => encodeControl 1#2 2#3
  | .adpMute => encodeControl 1#2 3#3
  | .adpReset => encodeControl 1#2 4#3
  | .adpStart => encodeControl 1#2 5#3
  | .adpStop => encodeControl 1#2 6#3
  | .adpTick => encodeControl 1#2 7#3
  | .sweWrCtrl0 a d => encodeSweWrite 0#4 a d
  | .sweWrCtrl1 a d => encodeSweWrite 1#4 a d
  | .sweWrLatch0 a d => encodeSweWrite 2#4 a d
  | .sweWrLatch1 a d => encodeSweWrite 3#4 a d
  | .sweWrTrig0 a d => encodeSweWrite 4#4 a d
  | .sweWrTrig1 a d => encodeSweWrite 5#4 a d
  | .sweRd addr => packWord 2#2 1#3 addr 0#8
  | .sweLoad => encodeControl 2#2 2#3
  | .sweMute => encodeControl 2#2 3#3
  | .sweReset => encodeControl 2#2 4#3
  | .sweStart => encodeControl 2#2 5#3
  | .sweStop => encodeControl 2#2 6#3
  | .sweTick => encodeControl 2#2 7#3
  | .ignored (.wveWrite addr d) => packWord 0#2 0#3 addr d
  | .ignored (.wveRead addr) => packWord 0#2 1#3 addr 0#8
  | .ignored (.adpWrite addr d) => packWord 1#2 0#3 addr d
  | .ignored (.sweWrite addr d) => packWord 2#2 0#3 addr d

/-- The PAGE.GROUP condition of a row (R104, R116): the groups in which its command word means it. -/
def Instr.groupOk (i : Instr) (g : BitVec 2) : Bool :=
  match i with
  | .wveWrCtrl _ | .wveWrFreq _ | .wveWrStart _ | .wveWrEnd _ | .wveWrAccum _ => g == 0#2
  | .wveWrLvol _ | .wveWrLvramp _ | .wveWrRvol _ | .wveWrRvramp _ | .wveWrEcount _ => g == 1#2
  | .wveWrK1 _ | .wveWrK1ramp _ | .wveWrK2 _ | .wveWrK2ramp _ => g == 2#2
  | .wveWrO1 _ | .wveWrO2 _ | .wveWrO3 _ | .wveWrO4 _ => g == 2#2
  | .wveWrNone n _ => wveTarget g n == none
  | _ => true

end Sys2Proof
end

