-- ==== Sys2Proof/Machine/State.lean ====
section
/-! DEFINITION. The state of the block (spec/10_state), as plain data, what a command shows outside, and the state
before any START. -/

namespace Sys2Proof.Machine

open Sys2Proof

/-- Sample data as bytes by address: strictly rising addresses, and no entry equal to what an unlisted address
reads as (`Memory.blank` in Machine/Ops.lean; log 11). -/
abbrev Memory := List Host.Cell

/-- A grow-only store: a WVE region, whose `size` SIZE[r] counts 16-bit words and whose word i is bytes 2i (bits 7:0)
and 2i+1 (bits 15:8) of `mem` (R48, R84), or the SWE LUT, whose `size` LSIZE counts bytes (R57, R87). -/
structure Store where
  size : Nat
  mem  : Memory
  deriving DecidableEq, Repr

/-- The registers of one WVE voice (R23). -/
structure Voice where
  /-- CTRL, bits 14:0; bit 7 is reserved (R24, R34) -/
  ctrl      : BitVec 15
  /-- FREQ (R35) -/
  freq      : Word
  /-- START, a sample-word address (R36) -/
  loopStart : Word
  /-- END, a sample-word address (R37) -/
  loopEnd   : Word
  /-- ACCUM, never above MASK (R38) -/
  accum     : Word
  lvol      : Half
  lvramp    : Half
  rvol      : Half
  rvramp    : Half
  /-- ECOUNT (R41) -/
  ecount    : Half
  k1        : Half
  k1ramp    : Half
  k2        : Half
  k2ramp    : Half
  /-- O1 to O4, two's complement (R43) -/
  o1        : Word
  o2        : Word
  o3        : Word
  o4        : Word
  /-- TICKCNT, hidden (R44) -/
  tickcnt   : BitVec 3
  deriving DecidableEq, Repr

/-- A present WVE instance (R22). -/
structure Wve where
  /-- the parameters given at START (R10, R131; log 8) -/
  cfg     : WveConfig
  /-- V[0..31] (R23) -/
  voices  : Vector Voice 32
  /-- PAGE: VSEL 4:0, GROUP 6:5 (R45) -/
  page    : BitVec 7
  /-- WLATCH (R46) -/
  wlatch  : Word
  /-- RLATCH (R47) -/
  rlatch  : Word
  /-- REG[0..3] with SIZE[0..3] (R48) -/
  regions : Vector Store 4
  /-- WMUTE (R49) -/
  wmute   : Word
  /-- IRQ_OUT (R50) -/
  irqOut  : Bool
  deriving DecidableEq, Repr

/-- A present ADP instance (R51 to R55). -/
structure Adp where
  cfg    : AdpConfig
  /-- SIGNAL, in [-2048, 2047] (R51) -/
  signal : Int
  /-- STEP, in [0, 48] (R52) -/
  step   : Nat
  /-- FQ[0..7] (R53) -/
  fq     : Vector (BitVec 4) 8
  /-- RD (R53) -/
  rd     : BitVec 3
  /-- WR (R53) -/
  wr     : BitVec 3
  /-- CTL: RST 0, B3 1, RS 3:2 (R54) -/
  ctl    : Byte
  /-- AMUTE (R55) -/
  amute  : Bool
  deriving DecidableEq, Repr

/-- One SWE voice (R56). -/
structure SweVoice where
  /-- PL, the latched pitch -/
  pl   : BitVec 12
  /-- FRQ, the active frequency -/
  frq  : BitVec 12
  /-- VOL -/
  vol  : BitVec 4
  /-- WF, the waveform selector -/
  wf   : BitVec 3
  /-- CNT, the countdown counter -/
  cnt  : BitVec 12
  /-- ADDR, the wave address -/
  addr : BitVec 5
  deriving DecidableEq, Repr

/-- A present SWE instance (R56 to R58). -/
structure Swe where
  cfg   : SweConfig
  v0    : SweVoice
  v1    : SweVoice
  /-- LUT with LSIZE (R57) -/
  lut   : Store
  /-- SMUTE (R58) -/
  smute : BitVec 2
  deriving DecidableEq, Repr

/-- The outcome of START that the environment draws (R131, R132; log 7). -/
inductive StartDraw where
  | success
  | allocationFailure
  deriving DecidableEq, Repr

/-- The operands of LOAD (R111): region number, offset, bytes and expand8to16. -/
structure LoadArgs where
  region : Nat
  offset : Nat
  bytes  : List Byte
  expand : Bool
  deriving DecidableEq, Repr

/-- The out-of-band operands presented with a command (R111, R131). A command reads those its rule names and ignores
the others (log 3). -/
structure OutOfBand where
  load   : LoadArgs
  mask   : Word
  wveCfg : WveConfig
  adpCfg : AdpConfig
  sweCfg : SweConfig
  draw   : StartDraw
  deriving DecidableEq, Repr

/-- A command the host issues: its word (R100) and its out-of-band operands. -/
structure Command where
  word : Word
  oob  : OutOfBand
  deriving DecidableEq, Repr

/-- The diagnostics (R362, R364). -/
inductive Diag where
  | allocationFailure
  | fifoOverflow
  deriving DecidableEq, Repr

/-- What a command shows the host (R15, R143, R145, R360), with the engine that shows it. -/
inductive Event where
  /-- the output of one TICK: C values for WVE, one for ADP and SWE (R143) -/
  | out (e : Engine) (samples : List Int)
  /-- the clock-change notification, an exact rational in Hz (R145) -/
  | rate (e : Engine) (q : Rat)
  | diag (e : Engine) (d : Diag)
  /-- the byte a READ returns -/
  | readByte (e : Engine) (b : Byte)
  deriving DecidableEq, Repr

/-- Why a command is refused (R360): the source gives it no meaning. The block's state stays as it was. -/
inductive RefusalReason where
  /-- R360 (a), R101: the word spells no command -/
  | malformedWord (e : DecodeError)
  /-- R360 (b), R134: any command but START to an absent instance -/
  | absentInstance (e : Engine)
  /-- R360 (c), R131: START of a present instance -/
  | startPresent (e : Engine)
  /-- R360 (c), R131: START with a configuration outside R10 -/
  | illegalConfig (e : Engine)
  /-- R360 (d), R135: LOAD to a WVE region outside 0..3 -/
  | badRegion (r : Nat)
  deriving DecidableEq, Repr

/-- The outcome of one command, the entry it adds to the observation (R360): done with its events in order, or refused. -/
inductive Observation where
  | done (events : List Event)
  | refused (r : RefusalReason)
  deriving DecidableEq, Repr

/-- The block (R20), and beside it the model's own fields: the host's commands not yet run, the operands of the
command that is running, and the observation of R360, one entry a command, oldest first (log 2, 3, 12). -/
structure State where
  wve     : Option Wve
  adp     : Option Adp
  swe     : Option Swe
  pending : List Command
  oob     : OutOfBand
  trace   : List Observation
  deriving DecidableEq, Repr

/-- Nothing in this block faults (R361; spec/93 part 1: "fault and stuck: not used"), so there is no reason (log 18). -/
inductive Fault where
  deriving DecidableEq, Repr

/-- An instruction that has no meaning in the model. The commands that the spec refuses are no refusals here: each is a
next state that records `RefusalReason` (R360; log 6). -/
inductive Refusal where
  /-- an instruction that has no meaning in the model; raised by an arm of `exec` (none does); safe -/
  | notModelled (mnemonic : String)
  deriving DecidableEq, Repr

/-- What a meaning answers. -/
abbrev Result := Host.Outcome State Fault Refusal

/-- No operands: what the operand port holds before the first command (log 3, DESIGN CHOICE). -/
def OutOfBand.empty : OutOfBand where
  load   := { region := 0, offset := 0, bytes := [], expand := false }
  mask   := 0#32
  wveCfg := { clock := 0, actv := 0 }
  adpCfg := { clock := 0 }
  sweCfg := { clock := 0 }
  draw   := .success

/-- The block before any START: every instance absent (R20; log 1), nothing issued and nothing observed. -/
def State.reset : State where
  wve     := none
  adp     := none
  swe     := none
  pending := []
  oob     := OutOfBand.empty
  trace   := []

end Sys2Proof.Machine
end

