-- ==== Sys2Proof/Machine/Flags.lean ====
section
/-! DEFINITION. CTRL fields of a WVE voice and every flag the hardware writes (R24 to R34, R50, R60, R233, R234,
R236), the fields of the ADP control byte (R54) and the mute bits (R49, R55, R58). -/

namespace Sys2Proof.Machine

open Sys2Proof

/-- CTRL.STOP, bit 0 (R25). -/
def ctrlStop (c : BitVec 15) : Bool := c.getLsbD 0
/-- CTRL.DIR, bit 1: true is reverse (R26). -/
def ctrlDir (c : BitVec 15) : Bool := c.getLsbD 1
/-- CTRL.LOOP, bits 3:2 (R27). -/
def ctrlLoop (c : BitVec 15) : BitVec 2 := c.extractLsb' 2 2
/-- CTRL.FMODE, bits 5:4 (R28). -/
def ctrlFmode (c : BitVec 15) : BitVec 2 := c.extractLsb' 4 2
/-- CTRL.CMPD, bit 6 (R29). -/
def ctrlCmpd (c : BitVec 15) : Bool := c.getLsbD 6
/-- CTRL.REGION, bits 9:8 (R30). -/
def ctrlRegion (c : BitVec 15) : BitVec 2 := c.extractLsb' 8 2
/-- CTRL.CA, bits 12:10 (R31). -/
def ctrlCa (c : BitVec 15) : BitVec 3 := c.extractLsb' 10 3
/-- CTRL.IRQE, bit 13 (R32). -/
def ctrlIrqe (c : BitVec 15) : Bool := c.getLsbD 13
/-- CTRL.IRQ, bit 14 (R33). -/
def ctrlIrq (c : BitVec 15) : Bool := c.getLsbD 14

/-- CTRL.STOP <- 1 (R234). -/
def setStop (c : BitVec 15) : BitVec 15 := c ||| 0x0001#15
/-- CTRL.DIR <- `d` (R236). -/
def setDir (c : BitVec 15) (d : Bool) : BitVec 15 := if d then c ||| 0x0002#15 else c &&& 0x7FFD#15
/-- CTRL.IRQ <- 1. -/
def setIrq (c : BitVec 15) : BitVec 15 := c ||| 0x4000#15

/-- The interrupt part of a crossing, the same for every policy: IRQ is set when IRQE = 1 (R233, R367). It is the only
interrupt source of the block (R366); the block has no exception entry or return (R361, R371, R372). -/
def raiseIrq (c : BitVec 15) : BitVec 15 := if ctrlIrqe c then setIrq c else c

/-- The bits of a CTRL commit that are kept: 14:8 and 6:0 (R34, R164). -/
def ctrlKept (val : Word) : BitVec 15 := (val &&& 0x7F7F#32).extractLsb' 0 15

/-- IRQ_OUT: the OR of CTRL.IRQ over the 32 voices (R50, R244, R369). -/
def irqLevel (voices : Vector Voice 32) : Bool := voices.toList.any fun v => ctrlIrq v.ctrl

/-- The loop-end policies (R27). -/
inductive LoopPolicy where
  | stop
  | loopForward
  | bounce
  | loopWithBounce
  deriving DecidableEq, Repr

/-- The policy LOOP selects (R27). -/
def loopPolicyOf (bits : BitVec 2) : LoopPolicy :=
  match bits.toNat with
  | 0 => .stop
  | 1 => .loopForward
  | 2 => .bounce
  | _ => .loopWithBounce

/-- CTL.RST, bit 0 (R54). -/
def ctlRst (c : Byte) : Bool := c.getLsbD 0
/-- CTL.B3, bit 1: true is 3-bit codes (R54). -/
def ctlB3 (c : Byte) : Bool := c.getLsbD 1
/-- CTL.RS, bits 3:2 (R54). -/
def ctlRs (c : Byte) : BitVec 2 := c.extractLsb' 2 2

/-- WMUTE[v] (R49). -/
def voiceMuted (wmute : Word) (v : Fin 32) : Bool := wmute.getLsbD v.val

end Sys2Proof.Machine
end

