-- ==== Sys2Proof/Machine/Operands.lean ====
section
/-! DEFINITION. Operand forms and the arithmetic they use: signed readings, clamps and divisions (R13, R14), lanes
(R108, R160), the fields of PAGE (R45), the SWE and ADP operands (R109, R110, R272), and which START configurations are
legal (R10). -/

namespace Sys2Proof.Machine

open Sys2Proof

/-! ### Arithmetic (R13, R14) -/

/-- `wrap32` (R13): the 32-bit two's-complement integer congruent to `v` modulo 2^32. -/
def wrap32 (v : Int) : Int := (BitVec.ofInt 32 v).toInt

/-- `clamp` (R13). -/
def clamp (v lo hi : Int) : Int := if v < lo then lo else if hi < v then hi else v

/-- `tdiv` (R14): division truncated toward zero. -/
def tdiv (a b : Int) : Int := Int.tdiv a b

/-- `>>` on a signed integer (R14): floor(a / 2^n). -/
def shiftRight (a : Int) (n : Nat) : Int := a / (2 : Int) ^ n

/-- Storing an exact value in [0, 0xFFFF] in a 16-bit register. -/
def toHalf (v : Int) : Half := BitVec.ofInt 16 v

/-! ### WVE lanes and PAGE -/

/-- Lane `l` of a 32-bit value, bits 31-8l : 24-8l (R83, R103). -/
def laneByte (l : Nat) (v : Word) : Byte := v.extractLsb' (24 - 8 * l) 8

/-- `WLATCH[31-8l : 24-8l] <- d`, the other bytes unchanged (R108, R160). -/
def placeLane (l : Nat) (latch : Word) (d : Byte) : Word :=
  (latch &&& ~~~(0xFF#32 <<< (24 - 8 * l))) ||| (d.setWidth 32 <<< (24 - 8 * l))

/-- PAGE.VSEL, bits 4:0 (R45). -/
def pageVsel (p : BitVec 7) : BitVec 5 := p.extractLsb' 0 5
/-- PAGE.GROUP, bits 6:5 (R45). -/
def pageGroup (p : BitVec 7) : BitVec 2 := p.extractLsb' 5 2
/-- The voice number PAGE selects (R45). -/
def pageVoice (p : BitVec 7) : Fin 32 := (pageVsel p).toFin

/-! ### ADP and SWE operands -/

/-- The stored code of an ADP data write: `d[3:0]`, or `d[2:0] << 1` in 3-bit mode (R110, R272). -/
def adpCode (d : Byte) (b3 : Bool) : BitVec 4 :=
  if b3 then d.extractLsb' 0 3 ++ 0#1 else d.extractLsb' 0 4

/-- The latched pitch `0xFFF - P12` (R109). -/
def latchedPitch (p12 : BitVec 12) : BitVec 12 := 0xFFF#12 - p12

/-- The waveform field `d[7:5]` of a SWE control byte (R110, R321). -/
def sweCtrlWf (d : Byte) : BitVec 3 := d.extractLsb' 5 3
/-- The volume field `d[3:0]` of a SWE control byte (R110, R321). -/
def sweCtrlVol (d : Byte) : BitVec 4 := d.extractLsb' 0 4

/-! ### Legal configurations (R10) -/

/-- Entry `c` of a host-given table. -/
def tableEntry (values : List Int) (c : Nat) : Int := values.getD c 0

/-- The two laws of R218: magnitudes do not fall within a sign half, and `T[c XOR 0x80] = -T[c]`; and the table is 256
signed 16-bit values (R10). -/
def ulawLegal : UlawTable → Bool
  | .g711 => true
  | .entries t =>
    t.length == 256 &&
    t.all (fun x => decide (-32768 ≤ x ∧ x ≤ 32767)) &&
    (List.range 127).all (fun c =>
      decide ((tableEntry t c).natAbs ≤ (tableEntry t (c + 1)).natAbs) &&
      decide ((tableEntry t (128 + c)).natAbs ≤ (tableEntry t (128 + c + 1)).natAbs)) &&
    (List.range 128).all (fun c => decide (tableEntry t (128 + c) = -tableEntry t c))

/-- A recurrence has a value for every input: no division by 0; and pole 3 does not read `p3`, its own output. -/
def poleLegal (ownP3 : Bool) : PoleExpr → Bool
  | .const _ => true
  | .var v => ownP3 || v != .p3
  | .add a b => poleLegal ownP3 a && poleLegal ownP3 b
  | .sub a b => poleLegal ownP3 a && poleLegal ownP3 b
  | .mul a b => poleLegal ownP3 a && poleLegal ownP3 b
  | .tdiv a d => poleLegal ownP3 a && d != 0
  | .shr a _ => poleLegal ownP3 a
  | .wrap32 a => poleLegal ownP3 a
  | .clamp a _ _ => poleLegal ownP3 a
  | .other _ => true

/-- Both poles of a mode's rule are legal. -/
def poleRuleLegal (r : PoleRule) : Bool := poleLegal false r.pole3 && poleLegal true r.pole4

/-- A FILTER_STAGE2 of R10 as the model writes one (log 10). -/
def stage2Legal : Stage2 → Bool
  | .standard => true
  | .rules a b c d => poleRuleLegal a && poleRuleLegal b && poleRuleLegal c && poleRuleLegal d

/-- The legal WVE configurations (R10). -/
def wveConfigLegal (c : WveConfig) : Bool :=
  decide (0 < c.clock) && decide (c.actv ≤ 31) && (c.accBits == 31 || c.accBits == 32) &&
  decide (1 ≤ c.chans ∧ c.chans ≤ 8) && ulawLegal c.ulaw && stage2Legal c.stage2

/-- The legal ADP configurations (R10). -/
def adpConfigLegal (c : AdpConfig) : Bool := decide (0 < c.clock)

/-- The legal SWE configurations (R10). -/
def sweConfigLegal (c : SweConfig) : Bool := decide (0 < c.clock) && decide (0 < c.clockDiv)

end Sys2Proof.Machine
end

