-- ==== Sys2Proof/Machine/Ops.lean ====
section
/-! DEFINITION. The shared operations: sample memory (R48, R57, R82, R135, R136, R333), the voice file, the tables (R218,
R225, R227, R275, R279 to R281), rates (R394), the outcomes of a command (R360), START and RESET values (R131, R390 to
R392), and the operand port (R111). The block has no exception to take or return from (R361, R371, R372). -/

namespace Sys2Proof.Machine

open Sys2Proof

/-! ### Sample memory -/

/-- What an unlisted byte reads as: 0, the fill of a growing region or LUT (R135, R136). -/
def Memory.blank : Byte := 0#8

/-- The byte at address `a`. -/
def Memory.read (m : Memory) (a : Nat) : Byte :=
  match m with
  | [] => Memory.blank
  | c :: m' => if c.1 = a then c.2 else Memory.read m' a

/-- `m` with byte `b` at address `a`, in canonical form. -/
def Memory.write (m : Memory) (a : Nat) (b : Byte) : Memory :=
  match m with
  | [] => if b = Memory.blank then [] else [(a, b)]
  | c :: m' =>
    if a < c.1 then (if b = Memory.blank then c :: m' else (a, b) :: c :: m')
    else if c.1 = a then (if b = Memory.blank then m' else (a, b) :: m')
    else c :: Memory.write m' a b

/-- The canonical form from address `lo` on: addresses strictly rising, no entry blank. -/
def Memory.wfFrom (lo : Nat) (m : Memory) : Bool :=
  match m with
  | [] => true
  | c :: m' => decide (lo ≤ c.1) && c.2 != Memory.blank && Memory.wfFrom (c.1 + 1) m'

/-- The canonical form of a memory. -/
def Memory.wf (m : Memory) : Bool := Memory.wfFrom 0 m

/-- Every listed address is below `n`. -/
def Memory.below (n : Nat) (m : Memory) : Bool := m.all fun c => decide (c.1 < n)

/-- The empty store (R131). -/
def Store.empty : Store := { size := 0, mem := [] }

/-- A store holds bytes of its loaded part only, `unit` bytes a unit of size (2 for a region, 1 for the LUT). -/
def Store.wf (unit : Nat) (st : Store) : Bool := Memory.wf st.mem && Memory.below (unit * st.size) st.mem

/-- Grow to hold index `i`, zero-filled; a store never shrinks (R135, R136). -/
def Store.grow (st : Store) (i : Nat) : Store := { st with size := max st.size (i + 1) }

/-- Put one byte of the store's memory. -/
def Store.putByte (st : Store) (a : Nat) (b : Byte) : Store := { st with mem := Memory.write st.mem a b }

/-- `RegionWord(r, i)` (R82): `none` is ABSENT. -/
def Store.word (st : Store) (i : Nat) : Option Half :=
  if i < st.size then some (Memory.read st.mem (2 * i + 1) ++ Memory.read st.mem (2 * i)) else none

/-- `LutByte(k)` (R333). -/
def Store.lutByte (st : Store) (k : Nat) : Byte := if k < st.size then Memory.read st.mem k else 0#8

/-- One byte of a verbatim region load at byte offset `a` (R84, R135). -/
def Store.loadVerbatimByte (st : Store) (a : Nat) (b : Byte) : Store := (st.grow (a / 2)).putByte a b

/-- One byte of an expanding region load, word `i` <- `b << 8` (R85, R135). -/
def Store.loadExpandedByte (st : Store) (i : Nat) (b : Byte) : Store :=
  ((st.grow i).putByte (2 * i) 0#8).putByte (2 * i + 1) b

/-- LOAD into a region (R135): the bytes in order, from offset `off`. -/
def Store.loadRegion (st : Store) (expand : Bool) (off : Nat) (bytes : List Byte) : Store :=
  match bytes with
  | [] => st
  | b :: rest =>
    (if expand then st.loadExpandedByte off b else st.loadVerbatimByte off b).loadRegion expand (off + 1) rest

/-- LOAD into the LUT (R136). -/
def Store.loadLut (st : Store) (off : Nat) (bytes : List Byte) : Store :=
  match bytes with
  | [] => st
  | b :: rest => ((st.grow off).putByte off b).loadLut (off + 1) rest

/-! ### The voice file and the regions -/

/-- V[i]. -/
def Wve.voice (w : Wve) (i : Fin 32) : Voice := w.voices[i]
/-- V[i] <- x. -/
def Wve.setVoice (w : Wve) (i : Fin 32) (x : Voice) : Wve := { w with voices := w.voices.set i x }
/-- REG[r]. -/
def Wve.region (w : Wve) (r : Fin 4) : Store := w.regions[r]
/-- REG[r] <- st. -/
def Wve.setRegion (w : Wve) (r : Fin 4) (st : Store) : Wve := { w with regions := w.regions.set r st }

/-! ### Derived constants (R10) -/

/-- MASK = 2^ACC_BITS - 1. -/
def accMask (cfg : WveConfig) : Word := BitVec.ofNat 32 (2 ^ cfg.accBits - 1)
/-- AMASK = MASK >> 11. -/
def addrMask (cfg : WveConfig) : Word := accMask cfg >>> 11

/-! ### WVE tables -/

/-- The default ULAW_TABLE (R218). -/
def g711Entry (c : Byte) : Int :=
  let e := (c.extractLsb' 4 3).toNat
  let m := (c.extractLsb' 0 4).toNat
  let mag : Int := (((2 * m + 33) <<< (e + 2) : Nat) : Int) - 132
  if c.getLsbD 7 then -mag else mag

/-- `ULAW_TABLE[c]` (R218). -/
def ulawEntry (t : UlawTable) (c : Byte) : Int :=
  match t with
  | .g711 => g711Entry c
  | .entries values => tableEntry values c.toNat

/-- `GAIN[c]` (R227). -/
def gain (c : BitVec 12) : Int :=
  let e := (c.extractLsb' 8 4).toNat
  let m := (c.extractLsb' 0 8).toNat
  ((((0x100 + m) <<< 11) >>> (20 - e) : Nat) : Int)

/-- The low-pass pole (R221). -/
def lowPass (k a o : Int) : Int := wrap32 (tdiv (k * (a - o)) 4096 + o)

/-- The high-pass pole (R222). -/
def highPass (k a aprev o : Int) : Int := wrap32 (a - aprev + tdiv (k * o) 32768 + tdiv o 2)

/-- A variable of a host-given recurrence. -/
def poleVar (p : PoleInputs) : PoleVar → Int
  | .k1 => p.k1
  | .k2 => p.k2
  | .x => p.x
  | .p1 => p.p1
  | .p2 => p.p2
  | .p3 => p.p3
  | .o1 => p.o1
  | .o2 => p.o2
  | .o3 => p.o3
  | .o4 => p.o4

/-- The value of a host-given recurrence (R224; log 10). -/
def poleValue (p : PoleInputs) : PoleExpr → Int
  | .const n => n
  | .var v => poleVar p v
  | .add a b => poleValue p a + poleValue p b
  | .sub a b => poleValue p a - poleValue p b
  | .mul a b => poleValue p a * poleValue p b
  | .tdiv a d => tdiv (poleValue p a) d
  | .shr a n => shiftRight (poleValue p a) n
  | .wrap32 a => wrap32 (poleValue p a)
  | .clamp a lo hi => clamp (poleValue p a) lo hi
  | .other n => Config.otherPole n p

/-- Poles 3 and 4 of the default FILTER_STAGE2 (R225). The inputs' `p3` is not read. -/
def standardStage2 (fmode : BitVec 2) (p : PoleInputs) : Int × Int :=
  match fmode.toNat with
  | 0 =>
    let p3 := highPass p.k2 p.p2 p.o2 p.o3
    (p3, highPass p.k2 p3 p.o3 p.o4)
  | 1 =>
    let p3 := lowPass p.k1 p.p2 p.o3
    (p3, highPass p.k2 p3 p.o3 p.o4)
  | 2 =>
    let p3 := lowPass p.k2 p.p2 p.o3
    (p3, lowPass p.k2 p3 p.o4)
  | _ =>
    let p3 := lowPass p.k1 p.p2 p.o3
    (p3, lowPass p.k2 p3 p.o4)

/-- Poles 3 and 4 of a host-given rule; a history is 32 bits, so each result wraps (R43). -/
def ruleStage2 (r : PoleRule) (p : PoleInputs) : Int × Int :=
  let p3 := wrap32 (poleValue p r.pole3)
  (p3, wrap32 (poleValue { p with p3 := p3 } r.pole4))

/-- The second filter stage (R224): FILTER_STAGE2 at FMODE. -/
def stage2Value (s : Stage2) (fmode : BitVec 2) (p : PoleInputs) : Int × Int :=
  match s with
  | .standard => standardStage2 fmode p
  | .rules m0 m1 m2 m3 =>
    match fmode.toNat with
    | 0 => ruleStage2 m0 p
    | 1 => ruleStage2 m1 p
    | 2 => ruleStage2 m2 p
    | _ => ruleStage2 m3 p

/-! ### ADP tables -/

/-- `stepSize(s) = floor(16 * (11/10)^s)`, exact (R279). -/
def stepSize (s : Nat) : Nat := 16 * 11 ^ s / 10 ^ s

/-- `mag(s, c)` (R280). -/
def deltaMag (s : Nat) (c : BitVec 4) : Nat :=
  let sv := stepSize s
  sv / 8 + (if c.getLsbD 2 then sv else 0) + (if c.getLsbD 1 then sv / 2 else 0) + (if c.getLsbD 0 then sv / 4 else 0)

/-- `DELTA[s][c]` (R280). -/
def adpDelta (s : Nat) (c : BitVec 4) : Int :=
  if c.getLsbD 3 then -(deltaMag s c : Int) else (deltaMag s c : Int)

/-- `ADJ[c & 7]` (R281). -/
def adpAdjust (c : BitVec 4) : Int :=
  match (c.extractLsb' 0 3).toNat with
  | 4 => 2
  | 5 => 4
  | 6 => 6
  | 7 => 8
  | _ => -1

/-- `PRESCALE[RS]` (R275). -/
def prescale (rs : BitVec 2) : Nat :=
  match rs.toNat with
  | 0 => 48
  | 1 => 64
  | 2 => 96
  | _ => 192

/-! ### Rates (R394) -/

/-- `clock / (16 * (ACTV + 1))`. -/
def wveRate (cfg : WveConfig) : Rat := mkRat cfg.clock (16 * (cfg.actv + 1))
/-- `clock / PRESCALE[RS]` (R275). -/
def adpRate (cfg : AdpConfig) (rs : BitVec 2) : Rat := mkRat cfg.clock (prescale rs)
/-- `clock / SWE_CLOCK_DIV` (R336). -/
def sweRate (cfg : SweConfig) : Rat := mkRat cfg.clock cfg.clockDiv

/-! ### Outcomes of a command (R360) -/

/-- A command is done with these events, one observation entry (R360). -/
def State.emit (s : State) (events : List Event) : State := { s with trace := s.trace ++ [.done events] }

/-- A command is refused: nothing changes but the observation, which records it (R360, R101, R134; log 6). -/
def State.refuse (s : State) (r : RefusalReason) : State := { s with trace := s.trace ++ [.refused r] }

/-- A command of a present WVE: what it does and its events; refused when absent (R134, R370). -/
def onWve (s : State) (f : Wve → Wve × List Event) : Result :=
  match s.wve with
  | none => .next (s.refuse (.absentInstance .wve))
  | some w => .next (State.emit { s with wve := some (f w).1 } (f w).2)

/-- A command of a present ADP (R134, R370). -/
def onAdp (s : State) (f : Adp → Adp × List Event) : Result :=
  match s.adp with
  | none => .next (s.refuse (.absentInstance .adp))
  | some p => .next (State.emit { s with adp := some (f p).1 } (f p).2)

/-- A command of a present SWE (R134, R370). -/
def onSwe (s : State) (f : Swe → Swe × List Event) : Result :=
  match s.swe with
  | none => .next (s.refuse (.absentInstance .swe))
  | some q => .next (State.emit { s with swe := some (f q).1 } (f q).2)

/-! ### START and RESET values -/

/-- A voice right after START: every field 0 (R131, R395). -/
def zeroVoice : Voice where
  ctrl := 0
  freq := 0
  loopStart := 0
  loopEnd := 0
  accum := 0
  lvol := 0
  lvramp := 0
  rvol := 0
  rvramp := 0
  ecount := 0
  k1 := 0
  k1ramp := 0
  k2 := 0
  k2ramp := 0
  o1 := 0
  o2 := 0
  o3 := 0
  o4 := 0
  tickcnt := 0

/-- A voice right after RESET (R23, R390). -/
def resetVoice : Voice :=
  { zeroVoice with ctrl := 0x0001, lvol := 0xFFFF, rvol := 0xFFFF, k1 := 0xFFFF, k2 := 0xFFFF }

/-- The WVE instance a successful START makes (R131). -/
def startedWve (cfg : WveConfig) : Wve where
  cfg := cfg
  voices := Vector.replicate 32 zeroVoice
  page := 0
  wlatch := 0
  rlatch := 0
  regions := Vector.replicate 4 Store.empty
  wmute := 0
  irqOut := false

/-- The WVE instance after RESET (R390, R393). -/
def resetWve (w : Wve) : Wve :=
  { w with voices := Vector.replicate 32 resetVoice, page := 0, wlatch := 0, rlatch := 0, irqOut := false }

/-- The ADP instance a successful START makes (R131). -/
def startedAdp (cfg : AdpConfig) : Adp where
  cfg := cfg
  signal := 0
  step := 0
  fq := Vector.replicate 8 0
  rd := 0
  wr := 0
  ctl := 0
  amute := false

/-- The ADP instance after RESET (R391, R393). -/
def resetAdp (p : Adp) : Adp :=
  { p with signal := 0, step := 0, fq := Vector.replicate 8 0, rd := 0, wr := 0, ctl := 0 }

/-- A SWE voice with every field 0 (R56). -/
def zeroSweVoice : SweVoice where
  pl := 0
  frq := 0
  vol := 0
  wf := 0
  cnt := 0
  addr := 0

/-- The SWE instance a successful START makes (R131). -/
def startedSwe (cfg : SweConfig) : Swe where
  cfg := cfg
  v0 := zeroSweVoice
  v1 := zeroSweVoice
  lut := Store.empty
  smute := 0

/-- The SWE instance after RESET (R392, R393). -/
def resetSwe (q : Swe) : Swe := { q with v0 := zeroSweVoice, v1 := zeroSweVoice }

/-! ### The operand port -/

/-- PAGE.GROUP as the decoder sees it (R104): an absent WVE has no PAGE, and 0 then stands for it; the command is
refused whichever row it matches (R134; log 5). -/
def State.pageGroup (s : State) : BitVec 2 :=
  match s.wve with
  | none => 0#2
  | some w => Machine.pageGroup w.page

/-- `s` as it stands when command `c` executes: taken from the queue, its operands presented (R111; log 2, 3). -/
def State.presenting (s : State) (c : Command) (rest : List Command) : State :=
  { s with pending := rest, oob := c.oob }

/-- The operands that stand in for the host's when a bare word is loaded (log 4): the spec's own examples (R131, R135,
R391, spec/95 section 2.11). -/
def exampleOperands : OutOfBand where
  load   := { region := 0, offset := 0, bytes := [0x34#8, 0x12#8], expand := false }
  mask   := 0x1#32
  wveCfg := { clock := 16000000, actv := 24 }
  adpCfg := { clock := 384000 }
  sweCfg := { clock := 3579545 }
  draw   := .success

/-- `s` with the engine that `w` addresses present, as the boot sequence START, RESET leaves it (R396), unless it is
present already or `w` is a START (log 4). -/
def State.booted (s : State) (w : Word) : State :=
  if wordKind w = 5#3 then s
  else
    match wordEngine w with
    | some .wve => { s with wve := some (s.wve.getD (resetWve (startedWve exampleOperands.wveCfg))) }
    | some .adp => { s with adp := some (s.adp.getD (resetAdp (startedAdp exampleOperands.adpCfg))) }
    | some .swe => { s with swe := some (s.swe.getD (resetSwe (startedSwe exampleOperands.sweCfg))) }
    | none => s

end Sys2Proof.Machine
end

