-- ==== Sys2Proof/Machine/AdpUnit.lean ====
section
/-! DEFINITION. The ADP register commands and ADP.TICK (spec/43_adpcm). -/

namespace Sys2Proof.Machine

open Sys2Proof

/-- `WR = RD` (R53). -/
def fifoEmpty (p : Adp) : Bool := p.wr == p.rd
/-- `(WR + 1) mod 8 = RD` (R53, R273). -/
def fifoFull (p : Adp) : Bool := p.wr + 1#3 == p.rd
/-- `(WR - RD) mod 8` (R53). -/
def fifoOccupancy (p : Adp) : Nat := (p.wr - p.rd).toNat

/-- An accepted data write (R271): `FQ[WR] <- code; WR <- (WR + 1) mod 8`. -/
def enqueue (p : Adp) (code : BitVec 4) : Adp := { p with fq := p.fq.set p.wr.toFin code, wr := p.wr + 1#3 }

/-- ADP.WR.DATA (R271 to R273). -/
def execAdpWrData (d : Byte) (s : State) : Result :=
  onAdp s fun p =>
    if fifoFull p then (p, [.diag .adp .fifoOverflow])
    else (enqueue p (adpCode d (ctlB3 p.ctl)), [])

/-- The state after a control write (R274): CTL is the byte, and a change of RST zeroes SIGNAL and STEP (R276). -/
def writeCtl (p : Adp) (d : Byte) : Adp :=
  if ctlRst d = ctlRst p.ctl then { p with ctl := d } else { p with ctl := d, signal := 0, step := 0 }

/-- ADP.WR.CTRL (R274): a change of RST or RS emits the new rate (R275, R277). -/
def execAdpWrCtrl (d : Byte) (s : State) : Result :=
  onAdp s fun p =>
    (writeCtl p d,
      if ctlRst d = ctlRst p.ctl ∧ ctlRs d = ctlRs p.ctl then [] else [.rate .adp (adpRate p.cfg (ctlRs d))])

/-- ADP.RD (R278): every read returns 0x00. -/
def execAdpRd (_addr : BitVec 16) (s : State) : Result := onAdp s fun p => (p, [.readByte .adp 0#8])

/-- `clamp(tdiv(d*256 + SIGNAL*245, 256), -2048, 2047)` (R285). -/
def decodedSignal (signal delta : Int) : Int := clamp (tdiv (delta * 256 + signal * 245) 256) (-2048) 2047

/-- `clamp(STEP + ADJ[c & 7], 0, 48)` (R281). -/
def decodedStep (step : Nat) (c : BitVec 4) : Nat := (clamp ((step : Int) + adpAdjust c) 0 48).toNat

/-- A decoding TICK (R282, R285): the code at RD is consumed; DELTA uses the old STEP. -/
def decodeCode (p : Adp) : Adp :=
  let c := p.fq[p.rd.toFin]
  { p with rd := p.rd + 1#3, signal := decodedSignal p.signal (adpDelta p.step c), step := decodedStep p.step c }

/-- ADP.TICK (R282): held in reset (R283), muted (R284), decoding (R285) or idle (R286). -/
def execAdpTick (s : State) : Result :=
  onAdp s fun p =>
    if ctlRst p.ctl then ({ p with signal := 0, step := 0 }, [.out .adp [0]])
    else if p.amute then (p, [.out .adp [0]])
    else if fifoEmpty p then (p, [.out .adp [tdiv (p.signal * 15) 16]])
    else (decodeCode p, [.out .adp [(decodeCode p).signal * 16]])

end Sys2Proof.Machine
end

