-- ==== Sys2Proof/Machine/Contract.lean ====
section
/-! DEFINITION. The device-contract commands of each engine (spec/40_device_contract, spec/70_reset_and_hazards): LOAD,
MUTE, RESET, START and STOP, and the ignored register accesses (R112). -/

namespace Sys2Proof.Machine

open Sys2Proof

/-! ### LOAD (R135 to R137) -/

/-- WVE.LOAD (R135): a region number outside 0..3 is refused, after the check for an absent instance (R370). -/
def execWveLoad (s : State) : Result :=
  match s.wve with
  | none => .next (s.refuse (.absentInstance .wve))
  | some _ =>
    if h : s.oob.load.region < 4 then
      onWve s fun w =>
        (w.setRegion ⟨s.oob.load.region, h⟩
          ((w.region ⟨s.oob.load.region, h⟩).loadRegion s.oob.load.expand s.oob.load.offset s.oob.load.bytes), [])
    else .next (s.refuse (.badRegion s.oob.load.region))

/-- SWE.LOAD (R136): the region number and expand8to16 are ignored. -/
def execSweLoad (s : State) : Result :=
  onSwe s fun q => ({ q with lut := q.lut.loadLut s.oob.load.offset s.oob.load.bytes }, [])

/-- ADP.LOAD (R137): accepted, no state change. -/
def execAdpLoad (s : State) : Result := onAdp s fun p => (p, [])

/-! ### MUTE (R138 to R140) -/

/-- WVE.MUTE (R138). -/
def execWveMute (s : State) : Result := onWve s fun w => ({ w with wmute := s.oob.mask }, [])

/-- ADP.MUTE (R139): bit 0 of the mask. -/
def execAdpMute (s : State) : Result := onAdp s fun p => ({ p with amute := s.oob.mask.getLsbD 0 }, [])

/-- SWE.MUTE (R140): bits 1:0 of the mask. -/
def execSweMute (s : State) : Result := onSwe s fun q => ({ q with smute := s.oob.mask.extractLsb' 0 2 }, [])

/-! ### RESET (R390 to R394) -/

/-- WVE.RESET (R390). -/
def execWveReset (s : State) : Result := onWve s fun w => (resetWve w, [.rate .wve (wveRate w.cfg)])

/-- ADP.RESET (R391): the rate is that of RS = 0. -/
def execAdpReset (s : State) : Result := onAdp s fun p => (resetAdp p, [.rate .adp (adpRate p.cfg 0#2)])

/-- SWE.RESET (R392). -/
def execSweReset (s : State) : Result := onSwe s fun q => (resetSwe q, [.rate .swe (sweRate q.cfg)])

/-! ### START (R131, R132) -/

/-- The common part of START (R131, R370): refused when the instance is present, then when the configuration is not
legal; on a failed draw the instance stays absent and the diagnostic is emitted (R132); else `made` is the new state. -/
def startWith (e : Engine) (present legal : Bool) (made : State) (s : State) : Result :=
  if present then .next (s.refuse (.startPresent e))
  else if legal then
    match s.oob.draw with
    | .success => .next (made.emit [])
    | .allocationFailure => .next (s.emit [.diag e .allocationFailure])
  else .next (s.refuse (.illegalConfig e))

/-- WVE.START (R131). -/
def execWveStart (s : State) : Result :=
  startWith .wve s.wve.isSome (wveConfigLegal s.oob.wveCfg) { s with wve := some (startedWve s.oob.wveCfg) } s

/-- ADP.START (R131). -/
def execAdpStart (s : State) : Result :=
  startWith .adp s.adp.isSome (adpConfigLegal s.oob.adpCfg) { s with adp := some (startedAdp s.oob.adpCfg) } s

/-- SWE.START (R131). -/
def execSweStart (s : State) : Result :=
  startWith .swe s.swe.isSome (sweConfigLegal s.oob.sweCfg) { s with swe := some (startedSwe s.oob.sweCfg) } s

/-! ### STOP (R133) -/

/-- WVE.STOP (R133): the instance and all it holds are released. -/
def execWveStop (s : State) : Result :=
  match s.wve with
  | none => .next (s.refuse (.absentInstance .wve))
  | some _ => .next (State.emit { s with wve := none } [])

/-- ADP.STOP (R133). -/
def execAdpStop (s : State) : Result :=
  match s.adp with
  | none => .next (s.refuse (.absentInstance .adp))
  | some _ => .next (State.emit { s with adp := none } [])

/-- SWE.STOP (R133). -/
def execSweStop (s : State) : Result :=
  match s.swe with
  | none => .next (s.refuse (.absentInstance .swe))
  | some _ => .next (State.emit { s with swe := none } [])

/-! ### IGNORED (R112, R184, R270, R327) -/

/-- IGNORED (R112): no state changes, not even a WVE latch, and no diagnostic; a WVE read returns 0x00 (R184). -/
def execIgnored (acc : IgnoredAccess) (s : State) : Result :=
  match acc with
  | .wveWrite _ _ => onWve s fun w => (w, [])
  | .wveRead _ => onWve s fun w => (w, [.readByte .wve 0#8])
  | .adpWrite _ _ => onAdp s fun p => (p, [])
  | .sweWrite _ _ => onSwe s fun q => (q, [])

end Sys2Proof.Machine
end

