-- ==== Sys2Proof/Machine/SweUnit.lean ====
section
/-! DEFINITION. The SWE register commands and SWE.TICK (spec/44_swe). -/

namespace Sys2Proof.Machine

open Sys2Proof

/-- `WF <- d[7:5]; VOL <- d[3:0]` (R321). -/
def writeSweCtrl (v : SweVoice) (d : Byte) : SweVoice := { v with wf := sweCtrlWf d, vol := sweCtrlVol d }
/-- `PL <- 0xFFF - P12` (R323). -/
def latchPitch (v : SweVoice) (p12 : BitVec 12) : SweVoice := { v with pl := latchedPitch p12 }
/-- `FRQ <- PL` (R325). -/
def trigger (v : SweVoice) : SweVoice := { v with frq := v.pl }

/-- SWE.WR.CTRL0 (R321). -/
def execSweWrCtrl0 (_a : BitVec 12) (d : Byte) (s : State) : Result :=
  onSwe s fun q => ({ q with v0 := writeSweCtrl q.v0 d }, [])
/-- SWE.WR.CTRL1 (R322). -/
def execSweWrCtrl1 (_a : BitVec 12) (d : Byte) (s : State) : Result :=
  onSwe s fun q => ({ q with v1 := writeSweCtrl q.v1 d }, [])
/-- SWE.WR.LATCH0 (R323). -/
def execSweWrLatch0 (a : BitVec 12) (_d : Byte) (s : State) : Result :=
  onSwe s fun q => ({ q with v0 := latchPitch q.v0 a }, [])
/-- SWE.WR.LATCH1 (R324). -/
def execSweWrLatch1 (a : BitVec 12) (_d : Byte) (s : State) : Result :=
  onSwe s fun q => ({ q with v1 := latchPitch q.v1 a }, [])
/-- SWE.WR.TRIG0 (R325). -/
def execSweWrTrig0 (_a : BitVec 12) (_d : Byte) (s : State) : Result :=
  onSwe s fun q => ({ q with v0 := trigger q.v0 }, [])
/-- SWE.WR.TRIG1 (R326). -/
def execSweWrTrig1 (_a : BitVec 12) (_d : Byte) (s : State) : Result :=
  onSwe s fun q => ({ q with v1 := trigger q.v1 }, [])

/-- SWE.RD (R328): every read returns 0x00. -/
def execSweRd (_addr : BitVec 16) (s : State) : Result := onSwe s fun q => (q, [.readByte .swe 0#8])

/-- The counter of an unmuted voice (R330, R331): at 0 it reloads from FRQ and the wave address advances modulo 32. -/
def stepCounter (v : SweVoice) : SweVoice :=
  if v.cnt = 0#12 then { v with cnt := v.frq, addr := v.addr + 1#5 } else { v with cnt := v.cnt - 1#12 }

/-- The table index `bank + (WF << 5) + ADDR` (R332). -/
def lutIndex (bank : Nat) (v : SweVoice) : Nat := bank + v.wf.toNat * 32 + v.addr.toNat

/-- `sext_4(b[3:0]) * VOL` of a stepped voice (R334, R335). -/
def sweContribution (lut : Store) (bank : Nat) (v : SweVoice) : Int :=
  ((lut.lutByte (lutIndex bank v)).extractLsb' 0 4).toInt * (v.vol.toNat : Int)

/-- One voice of a TICK: a muted voice is frozen and adds nothing (R329). -/
def tickSweVoice (lut : Store) (muted : Bool) (bank : Nat) (v : SweVoice) : SweVoice × Int :=
  if muted then (v, 0) else (stepCounter v, sweContribution lut bank (stepCounter v))

/-- SWE.TICK (R329): both voices, then `out(mix * 128)` (R335). -/
def execSweTick (s : State) : Result :=
  onSwe s fun q =>
    let r0 := tickSweVoice q.lut (q.smute.getLsbD 0) 0x000 q.v0
    let r1 := tickSweVoice q.lut (q.smute.getLsbD 1) 0x100 q.v1
    ({ q with v0 := r0.1, v1 := r1.1 }, [.out .swe [(r0.2 + r1.2) * 128]])

end Sys2Proof.Machine
end

