-- ==== Sys2Proof/Machine/WveRegs.lean ====
section
/-! DEFINITION. The WVE register commands (spec/41_wve_registers R160 to R185): lane writes, the commit of each
register, and reads. -/

namespace Sys2Proof.Machine

open Sys2Proof

/-- A lane 0, 1 or 2 write: its byte enters WLATCH and nothing else changes (R160). -/
def writeLane (l : Nat) (d : Byte) (s : State) : Result :=
  onWve s fun w => ({ w with wlatch := placeLane l w.wlatch d }, [])

/-- WVE.WR.L0 (R160). -/
def execWveWrL0 (_n : BitVec 4) (d : Byte) (s : State) : Result := writeLane 0 d s
/-- WVE.WR.L1 (R160). -/
def execWveWrL1 (_n : BitVec 4) (d : Byte) (s : State) : Result := writeLane 1 d s
/-- WVE.WR.L2 (R160). -/
def execWveWrL2 (_n : BitVec 4) (d : Byte) (s : State) : Result := writeLane 2 d s

/-- The common part of a lane-3 write (R161): the assembled value is given to `apply`, and the latch is cleared. -/
def commit (d : Byte) (apply : Word → Wve → Wve) (s : State) : Result :=
  onWve s fun w => ({ apply (placeLane 3 w.wlatch d) w with wlatch := 0#32 }, [])

/-- A commit that changes the voice PAGE.VSEL only (R161). The row was chosen by PAGE.GROUP when the word was decoded
(R104, R116). -/
def commitVoice (d : Byte) (put : WveConfig → Word → Voice → Voice) (s : State) : Result :=
  commit d (fun val w => w.setVoice (pageVoice w.page) (put w.cfg val (w.voice (pageVoice w.page)))) s

/-- The 16 low bits of a committed value (R169 to R177). -/
def lowHalf (val : Word) : Half := val.extractLsb' 0 16

/-- WVE.WR.CTRL (R164): the kept bits replace CTRL, and IRQ_OUT follows (R50). -/
def execWveWrCtrl (d : Byte) (s : State) : Result :=
  commit d (fun val w =>
    let w' := w.setVoice (pageVoice w.page) { w.voice (pageVoice w.page) with ctrl := ctrlKept val }
    { w' with irqOut := irqLevel w'.voices }) s

/-- WVE.WR.FREQ (R165). -/
def execWveWrFreq (d : Byte) (s : State) : Result := commitVoice d (fun _ val v => { v with freq := val }) s
/-- WVE.WR.START (R166). -/
def execWveWrStart (d : Byte) (s : State) : Result := commitVoice d (fun _ val v => { v with loopStart := val }) s
/-- WVE.WR.END (R167). -/
def execWveWrEnd (d : Byte) (s : State) : Result := commitVoice d (fun _ val v => { v with loopEnd := val }) s
/-- WVE.WR.ACCUM (R168): masked to ACC_BITS. -/
def execWveWrAccum (d : Byte) (s : State) : Result :=
  commitVoice d (fun cfg val v => { v with accum := val &&& accMask cfg }) s
/-- WVE.WR.LVOL (R169). -/
def execWveWrLvol (d : Byte) (s : State) : Result := commitVoice d (fun _ val v => { v with lvol := lowHalf val }) s
/-- WVE.WR.LVRAMP (R170). -/
def execWveWrLvramp (d : Byte) (s : State) : Result := commitVoice d (fun _ val v => { v with lvramp := lowHalf val }) s
/-- WVE.WR.RVOL (R171). -/
def execWveWrRvol (d : Byte) (s : State) : Result := commitVoice d (fun _ val v => { v with rvol := lowHalf val }) s
/-- WVE.WR.RVRAMP (R172). -/
def execWveWrRvramp (d : Byte) (s : State) : Result := commitVoice d (fun _ val v => { v with rvramp := lowHalf val }) s
/-- WVE.WR.ECOUNT (R173). -/
def execWveWrEcount (d : Byte) (s : State) : Result := commitVoice d (fun _ val v => { v with ecount := lowHalf val }) s
/-- WVE.WR.K1 (R174). -/
def execWveWrK1 (d : Byte) (s : State) : Result := commitVoice d (fun _ val v => { v with k1 := lowHalf val }) s
/-- WVE.WR.K1RAMP (R175). -/
def execWveWrK1ramp (d : Byte) (s : State) : Result := commitVoice d (fun _ val v => { v with k1ramp := lowHalf val }) s
/-- WVE.WR.K2 (R176). -/
def execWveWrK2 (d : Byte) (s : State) : Result := commitVoice d (fun _ val v => { v with k2 := lowHalf val }) s
/-- WVE.WR.K2RAMP (R177). -/
def execWveWrK2ramp (d : Byte) (s : State) : Result := commitVoice d (fun _ val v => { v with k2ramp := lowHalf val }) s
/-- WVE.WR.O1 (R178): the 32 bits are the two's-complement pattern of sext_32(val). -/
def execWveWrO1 (d : Byte) (s : State) : Result := commitVoice d (fun _ val v => { v with o1 := val }) s
/-- WVE.WR.O2 (R179). -/
def execWveWrO2 (d : Byte) (s : State) : Result := commitVoice d (fun _ val v => { v with o2 := val }) s
/-- WVE.WR.O3 (R180). -/
def execWveWrO3 (d : Byte) (s : State) : Result := commitVoice d (fun _ val v => { v with o3 := val }) s
/-- WVE.WR.O4 (R181). -/
def execWveWrO4 (d : Byte) (s : State) : Result := commitVoice d (fun _ val v => { v with o4 := val }) s

/-- WVE.WR.PAGE (R163): VSEL <- val[4:0], GROUP <- val[6:5]. -/
def execWveWrPage (d : Byte) (s : State) : Result := commit d (fun val w => { w with page := val.extractLsb' 0 7 }) s

/-- WVE.WR.NONE (R162): WLATCH is cleared and nothing else changes. -/
def execWveWrNone (_n : BitVec 4) (d : Byte) (s : State) : Result := commit d (fun _ w => w) s

/-- `ReadView(target, v)` (R185) for the voice PAGE selects; 0 where no register is selected (R182). -/
def readView (target : Option WveReg) (w : Wve) : Word :=
  let v := w.voice (pageVoice w.page)
  match target with
  | none => 0#32
  | some .page => w.page.setWidth 32
  | some .ctrl => v.ctrl.setWidth 32
  | some .freq => v.freq
  | some .start => v.loopStart
  | some .endA => v.loopEnd
  | some .accum => v.accum
  | some .lvol => v.lvol.setWidth 32
  | some .lvramp => v.lvramp.setWidth 32
  | some .rvol => v.rvol.setWidth 32
  | some .rvramp => v.rvramp.setWidth 32
  | some .ecount => v.ecount.setWidth 32
  | some .k1 => v.k1.setWidth 32
  | some .k1ramp => v.k1ramp.setWidth 32
  | some .k2 => v.k2.setWidth 32
  | some .k2ramp => v.k2ramp.setWidth 32
  | some .o1 => v.o1
  | some .o2 => v.o2
  | some .o3 => v.o3
  | some .o4 => v.o4

/-- WVE.RD.L0 (R182): snapshot the addressed register into RLATCH and return its byte 31:24. -/
def execWveRdL0 (n : BitVec 4) (s : State) : Result :=
  onWve s fun w =>
    let val := readView (wveTarget (pageGroup w.page) n) w
    ({ w with rlatch := val }, [.readByte .wve (laneByte 0 val)])

/-- A lane 1, 2 or 3 read: a byte of RLATCH, nothing changes (R183). -/
def readLane (l : Nat) (s : State) : Result :=
  onWve s fun w => (w, [.readByte .wve (laneByte l w.rlatch)])

/-- WVE.RD.L1 (R183). -/
def execWveRdL1 (_n : BitVec 4) (s : State) : Result := readLane 1 s
/-- WVE.RD.L2 (R183). -/
def execWveRdL2 (_n : BitVec 4) (s : State) : Result := readLane 2 s
/-- WVE.RD.L3 (R183). -/
def execWveRdL3 (_n : BitVec 4) (s : State) : Result := readLane 3 s

end Sys2Proof.Machine
end

