-- ==== Sys2Proof/Machine/WveVoice.lean ====
section
/-! DEFINITION. WVE.TICK (spec/42_wve_voice R210 to R245): sample fetch, interpolation, filter, gain and routing,
accumulator advance and loop policies, envelope, and the end of the TICK. -/

namespace Sys2Proof.Machine

open Sys2Proof

/-! ### Sample fetch and interpolation (R214 to R219) -/

/-- `f = ACCUM[10:0]` (R214). -/
def fraction (v : Voice) : Int := ((v.accum.extractLsb' 0 11).toNat : Int)
/-- `i0 = ACCUM >> 11` (R214). -/
def sampleIndex (v : Voice) : Nat := (v.accum >>> 11).toNat
/-- `i1 = ((ACCUM + 0x800) & MASK) >> 11` (R214). -/
def successorIndex (cfg : WveConfig) (v : Voice) : Nat := (((v.accum + 0x800#32) &&& accMask cfg) >>> 11).toNat

/-- `RegionSample(r, i, cmpd)` (R216, R217): a missing word is sample 0. -/
def regionSample (w : Wve) (r : BitVec 2) (i : Nat) (cmpd : Bool) : Int :=
  match (w.region r.toFin).word i with
  | none => 0
  | some x => if cmpd then ulawEntry w.cfg.ulaw (x.extractLsb' 8 8) else x.toInt

/-- Linear interpolation, floored (R219). -/
def interpolate (s0 s1 f : Int) : Int := shiftRight (s0 * (2048 - f) + s1 * f) 11

/-- The interpolated sample `x` of a voice (R214 to R219). -/
def voiceSample (w : Wve) (v : Voice) : Int :=
  let r := ctrlRegion v.ctrl
  let c := ctrlCmpd v.ctrl
  interpolate (regionSample w r (sampleIndex v) c) (regionSample w r (successorIndex w.cfg v) c) (fraction v)

/-! ### The filter (R220 to R226) -/

/-- `K >> 4` (R220). -/
def coefficient (k : Half) : Int := ((k >>> 4).toNat : Int)

/-- The four pole outputs of one filter step, all from the old histories (R223 to R226). -/
structure Poles where
  p1 : Int
  p2 : Int
  p3 : Int
  p4 : Int
  deriving DecidableEq, Repr

/-- One filter step on input `x` (R223, R224, R225). -/
def filterPoles (cfg : WveConfig) (v : Voice) (x : Int) : Poles :=
  let k1 := coefficient v.k1
  let k2 := coefficient v.k2
  let p1 := lowPass k1 x v.o1.toInt
  let p2 := lowPass k1 p1 v.o2.toInt
  let inputs : PoleInputs :=
    { k1 := k1, k2 := k2, x := x, p1 := p1, p2 := p2, p3 := 0,
      o1 := v.o1.toInt, o2 := v.o2.toInt, o3 := v.o3.toInt, o4 := v.o4.toInt }
  let st := stage2Value cfg.stage2 (ctrlFmode v.ctrl) inputs
  { p1 := p1, p2 := p2, p3 := st.1, p4 := st.2 }

/-- `(O1, O2, O3, O4) <- (p1, p2, p3, p4)` (R226). -/
def setHistories (v : Voice) (p : Poles) : Voice :=
  { v with o1 := BitVec.ofInt 32 p.p1, o2 := BitVec.ofInt 32 p.p2, o3 := BitVec.ofInt 32 p.p3,
           o4 := BitVec.ofInt 32 p.p4 }

/-! ### Gain and routing (R227 to R230) -/

/-- The contribution `(y * GAIN[VOL >> 4]) >> 11` (R228). -/
def contribution (y : Int) (vol : Half) : Int := shiftRight (y * gain (vol.extractLsb' 4 12)) 11

/-- `Route(ca)` (R229). -/
def route (chans : Nat) (ca : BitVec 3) : Nat × Nat :=
  let l := ca.toNat % chans
  (l, if l = chans - 1 then l else l + 1)

/-- `out[c] <- wrap32(out[c] + x)` (R230). -/
def addOut (out : List Int) (c : Nat) (x : Int) : List Int := out.modify c fun o => wrap32 (o + x)

/-! ### Accumulator advance and loop policies (R231 to R238) -/

/-- `F = FREQ & MASK` (R35). -/
def increment (cfg : WveConfig) (v : Voice) : Int := ((v.freq &&& accMask cfg).toNat : Int)
/-- `S = (START & AMASK) << 11` (R36). -/
def startBound (cfg : WveConfig) (v : Voice) : Int := ((v.loopStart &&& addrMask cfg).toNat : Int) * 2048
/-- `E = (END & AMASK) << 11` (R37). -/
def endBound (cfg : WveConfig) (v : Voice) : Int := ((v.loopEnd &&& addrMask cfg).toNat : Int) * 2048
/-- 2^ACC_BITS, the modulus of the accumulator (R10, R231, R232). -/
def accModulus (cfg : WveConfig) : Int := (2 : Int) ^ cfg.accBits

/-- Storing an exact position in [0, MASK] in ACCUM. -/
def toAccum (n : Int) : Word := BitVec.ofInt 32 n

/-- The policy a crossing takes (R27, R238): stop for an empty or inverted loop. -/
def crossPolicy (cfg : WveConfig) (v : Voice) : LoopPolicy :=
  if endBound cfg v - startBound cfg v ≤ 0 then .stop else loopPolicyOf (ctrlLoop v.ctrl)

/-- A crossing at position `n`, forward or (`rev`) reverse: the interrupt part (R233), then the policy (R234 to R238). -/
def cross (cfg : WveConfig) (v : Voice) (rev : Bool) (n : Int) : Voice :=
  let S := startBound cfg v
  let E := endBound cfg v
  let L := E - S
  let c := raiseIrq v.ctrl
  match crossPolicy cfg v with
  | .stop => { v with ctrl := setStop c, accum := toAccum n }
  | .loopForward => { v with ctrl := c, accum := toAccum (if rev then E - (S - n) % L else S + (n - E) % L) }
  | .bounce =>
    { v with ctrl := setDir c (!rev),
             accum := toAccum ((if rev then 2 * S - n else 2 * E - n) % accModulus cfg) }
  | .loopWithBounce => { v with ctrl := c, accum := toAccum (if rev then S + (S - n) % L else E - (n - E) % L) }

/-- The position a voice steps to: `(ACCUM + F) & MASK` forward, `(ACCUM - F) mod 2^ACC_BITS` in reverse (R231,
R232). -/
def nextPosition (cfg : WveConfig) (v : Voice) : Int :=
  if ctrlDir v.ctrl then ((v.accum.toNat : Int) - increment cfg v) % accModulus cfg
  else ((v.accum.toNat : Int) + increment cfg v) % accModulus cfg

/-- Whether that step crosses a boundary: `n >= E` forward, `n < S` in reverse (R231, R232). -/
def crosses (cfg : WveConfig) (v : Voice) : Bool :=
  if ctrlDir v.ctrl then decide (nextPosition cfg v < startBound cfg v)
  else decide (endBound cfg v ≤ nextPosition cfg v)

/-- `Advance(X)` (R231, R232). -/
def advance (cfg : WveConfig) (v : Voice) : Voice :=
  if crosses cfg v then cross cfg v (ctrlDir v.ctrl) (nextPosition cfg v)
  else { v with accum := toAccum (nextPosition cfg v) }

/-! ### Envelope (R239 to R243) -/

/-- A ramp step clamped to 16 bits (R240). -/
def rampStep (value ramp : Half) : Half := toHalf (clamp ((value.toNat : Int) + ramp.toInt) 0 0xFFFF)

/-- A coefficient ramp step: a negative ramp applies only when TICKCNT = 0 (R241). -/
def coefficientStep (value ramp : Half) (tickcnt : BitVec 3) : Half :=
  if 0 ≤ ramp.toInt ∨ tickcnt = 0#3 then rampStep value ramp else value

/-- `Envelope(X)` (R239): the ramps and ECOUNT while ECOUNT is not 0 (R242), and TICKCNT always (R243). -/
def envelope (v : Voice) : Voice :=
  let v' :=
    if v.ecount = 0#16 then v
    else
      { v with lvol := rampStep v.lvol v.lvramp
               rvol := rampStep v.rvol v.rvramp
               k1 := coefficientStep v.k1 v.k1ramp v.tickcnt
               k2 := coefficientStep v.k2 v.k2ramp v.tickcnt
               ecount := v.ecount - 1#16 }
  { v' with tickcnt := v.tickcnt + 1#3 }

/-! ### The TICK -/

/-- Whether voice `i` synthesizes on this TICK (R213). -/
def running (w : Wve) (i : Fin 32) : Bool := !ctrlStop (w.voice i).ctrl && !voiceMuted w.wmute i

/-- The new poles of voice `i` on this TICK (R214 to R226). -/
def voicePoles (w : Wve) (i : Fin 32) : Poles := filterPoles w.cfg (w.voice i) (voiceSample w (w.voice i))

/-- What a TICK does to the registers of a walked voice (R210, R213, R239). -/
def tickVoice (w : Wve) (i : Fin 32) : Voice :=
  envelope (if running w i then advance w.cfg (setHistories (w.voice i) (voicePoles w i)) else w.voice i)

/-- What a walked voice adds to the output of a TICK (R210, R213, R228 to R230). -/
def tickOut (w : Wve) (i : Fin 32) (out : List Int) : List Int :=
  if running w i then
    let v := w.voice i
    let y := (voicePoles w i).p4
    let lr := route w.cfg.chans (ctrlCa v.ctrl)
    addOut (addOut out lr.1 (contribution y v.lvol)) lr.2 (contribution y v.rvol)
  else out

/-- One walked voice: its registers and its part of the output (R210). -/
def walkVoice (acc : Wve × List Int) (i : Fin 32) : Wve × List Int :=
  (acc.1.setVoice i (tickVoice acc.1 i), tickOut acc.1 i acc.2)

/-- The voices of a WVE, ascending. -/
def allVoices : List (Fin 32) :=
  [0, 1, 2, 3, 4, 5, 6, 7, 8, 9, 10, 11, 12, 13, 14, 15, 16, 17, 18, 19, 20, 21, 22, 23, 24, 25, 26, 27, 28, 29, 30, 31]

/-- The walked voices 0..ACTV, in ascending order (R212). -/
def walkedVoices (actv : Nat) : List (Fin 32) := allVoices.filter fun i => decide (i.val ≤ actv)

/-- The walk of a TICK over the voices `order`, from an all-zero output (R211, R212). -/
def walkVoices (order : List (Fin 32)) (w : Wve) : Wve × List Int :=
  order.foldl walkVoice (w, List.replicate w.cfg.chans 0)

/-- The end of a TICK: IRQ_OUT follows the pending flags (R244). -/
def settleIrq (w : Wve) : Wve := { w with irqOut := irqLevel w.voices }

/-- WVE.TICK (R210): walk voices 0..ACTV, settle IRQ_OUT, emit the C outputs (R245). -/
def execWveTick (s : State) : Result :=
  onWve s fun w =>
    let r := walkVoices (walkedVoices w.cfg.actv) w
    (settleIrq r.1, [.out .wve r.2])

end Sys2Proof.Machine
end

