-- ==== Sys2Proof/Machine/Dispatch.lean ====
section
/-! DEFINITION. The meaning of every command, one arm a constructor of Instr. -/

namespace Sys2Proof.Machine

open Sys2Proof

def exec (i : Instr) (s : State) : Host.Outcome State Fault Refusal :=
  match i with
  | .wveWrL0 n d => Sys2Proof.Machine.execWveWrL0 n d s
  | .wveWrL1 n d => Sys2Proof.Machine.execWveWrL1 n d s
  | .wveWrL2 n d => Sys2Proof.Machine.execWveWrL2 n d s
  | .wveWrCtrl d => Sys2Proof.Machine.execWveWrCtrl d s
  | .wveWrFreq d => Sys2Proof.Machine.execWveWrFreq d s
  | .wveWrStart d => Sys2Proof.Machine.execWveWrStart d s
  | .wveWrEnd d => Sys2Proof.Machine.execWveWrEnd d s
  | .wveWrAccum d => Sys2Proof.Machine.execWveWrAccum d s
  | .wveWrLvol d => Sys2Proof.Machine.execWveWrLvol d s
  | .wveWrLvramp d => Sys2Proof.Machine.execWveWrLvramp d s
  | .wveWrRvol d => Sys2Proof.Machine.execWveWrRvol d s
  | .wveWrRvramp d => Sys2Proof.Machine.execWveWrRvramp d s
  | .wveWrEcount d => Sys2Proof.Machine.execWveWrEcount d s
  | .wveWrK1 d => Sys2Proof.Machine.execWveWrK1 d s
  | .wveWrK1ramp d => Sys2Proof.Machine.execWveWrK1ramp d s
  | .wveWrK2 d => Sys2Proof.Machine.execWveWrK2 d s
  | .wveWrK2ramp d => Sys2Proof.Machine.execWveWrK2ramp d s
  | .wveWrO1 d => Sys2Proof.Machine.execWveWrO1 d s
  | .wveWrO2 d => Sys2Proof.Machine.execWveWrO2 d s
  | .wveWrO3 d => Sys2Proof.Machine.execWveWrO3 d s
  | .wveWrO4 d => Sys2Proof.Machine.execWveWrO4 d s
  | .wveWrPage d => Sys2Proof.Machine.execWveWrPage d s
  | .wveWrNone n d => Sys2Proof.Machine.execWveWrNone n d s
  | .wveRdL0 n => Sys2Proof.Machine.execWveRdL0 n s
  | .wveRdL1 n => Sys2Proof.Machine.execWveRdL1 n s
  | .wveRdL2 n => Sys2Proof.Machine.execWveRdL2 n s
  | .wveRdL3 n => Sys2Proof.Machine.execWveRdL3 n s
  | .wveLoad => Sys2Proof.Machine.execWveLoad s
  | .wveMute => Sys2Proof.Machine.execWveMute s
  | .wveReset => Sys2Proof.Machine.execWveReset s
  | .wveStart => Sys2Proof.Machine.execWveStart s
  | .wveStop => Sys2Proof.Machine.execWveStop s
  | .wveTick => Sys2Proof.Machine.execWveTick s
  | .adpWrData d => Sys2Proof.Machine.execAdpWrData d s
  | .adpWrCtrl d => Sys2Proof.Machine.execAdpWrCtrl d s
  | .adpRd addr => Sys2Proof.Machine.execAdpRd addr s
  | .adpLoad => Sys2Proof.Machine.execAdpLoad s
  | .adpMute => Sys2Proof.Machine.execAdpMute s
  | .adpReset => Sys2Proof.Machine.execAdpReset s
  | .adpStart => Sys2Proof.Machine.execAdpStart s
  | .adpStop => Sys2Proof.Machine.execAdpStop s
  | .adpTick => Sys2Proof.Machine.execAdpTick s
  | .sweWrCtrl0 a d => Sys2Proof.Machine.execSweWrCtrl0 a d s
  | .sweWrCtrl1 a d => Sys2Proof.Machine.execSweWrCtrl1 a d s
  | .sweWrLatch0 a d => Sys2Proof.Machine.execSweWrLatch0 a d s
  | .sweWrLatch1 a d => Sys2Proof.Machine.execSweWrLatch1 a d s
  | .sweWrTrig0 a d => Sys2Proof.Machine.execSweWrTrig0 a d s
  | .sweWrTrig1 a d => Sys2Proof.Machine.execSweWrTrig1 a d s
  | .sweRd addr => Sys2Proof.Machine.execSweRd addr s
  | .sweLoad => Sys2Proof.Machine.execSweLoad s
  | .sweMute => Sys2Proof.Machine.execSweMute s
  | .sweReset => Sys2Proof.Machine.execSweReset s
  | .sweStart => Sys2Proof.Machine.execSweStart s
  | .sweStop => Sys2Proof.Machine.execSweStop s
  | .sweTick => Sys2Proof.Machine.execSweTick s
  | .ignored acc => Sys2Proof.Machine.execIgnored acc s

end Sys2Proof.Machine
end

