-- ==== Sys2Proof/Machine/Step.lean ====
section
/-! DEFINITION. One step of the block: the host's next command is taken, decoded and executed (R8, R100, R116). -/

namespace Sys2Proof.Machine

open Sys2Proof

/-- One step (R8): the first pending command is presented and its word decoded under the current PAGE.GROUP; a word
that spells no command is refused, which the observation records (R101, R360; log 6), any other is executed. With no
command issued nothing happens (log 2). -/
def step (s : State) : Host.Outcome State Fault Refusal :=
  match s.pending with
  | [] => .next s
  | c :: rest =>
    match decode s.pageGroup c.word with
    | .error e => .next ((s.presenting c rest).refuse (.malformedWord e))
    | .ok i => exec i (s.presenting c rest)

/-- `s` with the command whose word has the bits `w` as the very next one: it is put before the pending commands, with
the spec's example operands, and the engine it addresses stands as the boot sequence of R396 leaves it (log 4). -/
def State.withFetchWord (s : State) (nbits w : Nat) : State :=
  { s.booted (BitVec.ofNat 32 (w % 2 ^ nbits)) with
    pending := { word := BitVec.ofNat 32 (w % 2 ^ nbits), oob := exampleOperands } :: s.pending }

end Sys2Proof.Machine
end

