-- ==== Sys2Proof/Safety.lean ====
section
/-! DEFINITION. What claims call a good state (spec/10_state R38, R48, R50, R62, R246; spec/20_memory R82), and which
engine a command addresses (R100). -/

namespace Sys2Proof

/-- The engine a command addresses: the ENG field of its word (R100). -/
def Instr.engine : Instr → Engine
  | .wveWrL0 _ _ | .wveWrL1 _ _ | .wveWrL2 _ _ => .wve
  | .wveWrCtrl _ | .wveWrFreq _ | .wveWrStart _ | .wveWrEnd _ | .wveWrAccum _ => .wve
  | .wveWrLvol _ | .wveWrLvramp _ | .wveWrRvol _ | .wveWrRvramp _ | .wveWrEcount _ => .wve
  | .wveWrK1 _ | .wveWrK1ramp _ | .wveWrK2 _ | .wveWrK2ramp _ => .wve
  | .wveWrO1 _ | .wveWrO2 _ | .wveWrO3 _ | .wveWrO4 _ => .wve
  | .wveWrPage _ | .wveWrNone _ _ => .wve
  | .wveRdL0 _ | .wveRdL1 _ | .wveRdL2 _ | .wveRdL3 _ => .wve
  | .wveLoad | .wveMute | .wveReset | .wveStart | .wveStop | .wveTick => .wve
  | .adpWrData _ | .adpWrCtrl _ | .adpRd _ => .adp
  | .adpLoad | .adpMute | .adpReset | .adpStart | .adpStop | .adpTick => .adp
  | .sweWrCtrl0 _ _ | .sweWrCtrl1 _ _ | .sweWrLatch0 _ _ | .sweWrLatch1 _ _ => .swe
  | .sweWrTrig0 _ _ | .sweWrTrig1 _ _ | .sweRd _ => .swe
  | .sweLoad | .sweMute | .sweReset | .sweStart | .sweStop | .sweTick => .swe
  | .ignored (.wveWrite _ _) | .ignored (.wveRead _) => .wve
  | .ignored (.adpWrite _ _) => .adp
  | .ignored (.sweWrite _ _) => .swe

/-- START of some engine, the one command an absent instance accepts (R134). -/
def Instr.isStart : Instr → Bool
  | .wveStart | .adpStart | .sweStart => true
  | _ => false

namespace Machine

/-- Whether the instance of an engine is present (R20). -/
def State.present (s : State) : Engine → Bool
  | .wve => s.wve.isSome
  | .adp => s.adp.isSome
  | .swe => s.swe.isSome

/-- A good voice: ACCUM is at most MASK (R38, R62), and the reserved CTRL bit reads 0 (R24, R34). -/
abbrev VoiceInv (cfg : WveConfig) (v : Voice) : Prop :=
  v.accum.toNat < 2 ^ cfg.accBits ∧ v.ctrl.getLsbD 7 = false

/-- A good WVE instance: a legal configuration (R10, R131), good voices, IRQ_OUT the OR of the pending flags (R50), and
every region in canonical form with no byte beyond its SIZE (R48, R82). -/
abbrev WveInv (w : Wve) : Prop :=
  wveConfigLegal w.cfg = true ∧ (∀ i : Fin 32, VoiceInv w.cfg (w.voice i)) ∧ w.irqOut = irqLevel w.voices ∧
    ∀ r : Fin 4, Store.wf 2 (w.region r) = true

/-- A good ADP instance: SIGNAL and STEP in their ranges (R51, R52, R62). -/
abbrev AdpInv (p : Adp) : Prop :=
  adpConfigLegal p.cfg = true ∧ -2048 ≤ p.signal ∧ p.signal ≤ 2047 ∧ p.step ≤ 48

/-- A good SWE instance: a legal configuration, and a canonical LUT (R57). -/
abbrev SweInv (q : Swe) : Prop := sweConfigLegal q.cfg = true ∧ Store.wf 1 q.lut = true

/-- A good state: every present instance is good. -/
abbrev State.Inv (s : State) : Prop :=
  (∀ w ∈ s.wve, WveInv w) ∧ (∀ p ∈ s.adp, AdpInv p) ∧ ∀ q ∈ s.swe, SweInv q

/-- The events of an entry of the observation: a refused command has none (R360). -/
def Observation.events : Observation → List Event
  | .done events => events
  | .refused _ => []

/-! ### The terms of claims about a TICK -/

/-- Voice `i` runs on the next WVE TICK: a legal WVE is present, the voice is walked, not stopped and not muted (R212,
R213). -/
abbrev State.Runs (s : State) (w : Wve) (i : Fin 32) : Prop :=
  s.wve = some w ∧ wveConfigLegal w.cfg = true ∧ i.val ≤ w.cfg.actv ∧ (w.voice i).ctrl.getLsbD 0 = false ∧
    w.wmute.getLsbD i.val = false

/-- WVE.TICK answers a next state whose voice `i` satisfies `P`. -/
def State.AfterTick (s : State) (i : Fin 32) (P : Voice → Prop) : Prop :=
  ∃ t w', exec .wveTick s = .next t ∧ t.wve = some w' ∧ P (w'.voice i)

/-- The position `(ACCUM + F) & MASK` a forward voice steps to (R231), with `F = FREQ & MASK` (R35). -/
def forwardPosition (cfg : WveConfig) (v : Voice) : Nat :=
  (v.accum.toNat + v.freq.toNat % 2 ^ cfg.accBits) % 2 ^ cfg.accBits

/-- The position `(ACCUM - F) mod 2^ACC_BITS` a reverse voice steps to (R232). -/
def reversePosition (cfg : WveConfig) (v : Voice) : Nat :=
  (v.accum.toNat + 2 ^ cfg.accBits - v.freq.toNat % 2 ^ cfg.accBits) % 2 ^ cfg.accBits

/-- The loop start `S` in accumulator units (R36). -/
def loopLow (cfg : WveConfig) (v : Voice) : Nat := v.loopStart.toNat % 2 ^ (cfg.accBits - 11) * 2048

/-- The loop end `E` in accumulator units (R37). -/
def loopHigh (cfg : WveConfig) (v : Voice) : Nat := v.loopEnd.toNat % 2 ^ (cfg.accBits - 11) * 2048

/-- A forward voice whose next step crosses the loop end (R231). -/
def CrossesForward (cfg : WveConfig) (v : Voice) : Prop :=
  v.ctrl.getLsbD 1 = false ∧ loopHigh cfg v ≤ forwardPosition cfg v

/-- A reverse voice whose next step crosses the loop start (R232). -/
def CrossesReverse (cfg : WveConfig) (v : Voice) : Prop :=
  v.ctrl.getLsbD 1 = true ∧ reversePosition cfg v < loopLow cfg v

/-- The codes waiting in the ADP FIFO, the next to be decoded first (R53). -/
def fifoCodes (p : Adp) : List (BitVec 4) :=
  (List.range (fifoOccupancy p)).map fun k => p.fq[(p.rd + BitVec.ofNat 3 k).toFin]

/-- `n` times the command `i` (R141: GENERATE is `n` TICKs), stopping at the first stop. -/
def repeatExec (i : Instr) : Nat → State → Result
  | 0, s => .next s
  | n + 1, s =>
    match exec i s with
    | .next t => repeatExec i n t
    | .fault f => .fault f
    | .refused r => .refused r

end Machine

end Sys2Proof
end

