-- ==== Sys2Proof/Certificates/Slice0/Obligations.lean ====
section
/-! DEFINITION. The statements for the provers, from the numbered rules of spec/. In a statement about a commit row the
PAGE.GROUP of the row is not a hypothesis: the decoder has matched it (R116; log 20). -/

open Sys2Proof Sys2Proof.Machine

/-! ### Encoding and the step -/

/-- R100 to R107, R116: every well-formed instruction, in a group its row allows, decodes from its own word. -/
def Obligations.DecodeEncode : Prop :=
  ∀ (g : BitVec 2) (i : Instr), i.wf = true → i.groupOk g = true → decode g (encode i) = .ok i

/-- R100 to R107, R116: whatever decodes is well formed, in a group its row allows, and has that very word. -/
def Obligations.EncodeDecode : Prop :=
  ∀ (g : BitVec 2) (w : Word) (i : Instr), decode g w = .ok i → encode i = w ∧ i.wf = true ∧ i.groupOk g = true

/-- R101, R360: the words that spell no command are refused, and no other word is refused as one: the block stays as it
was and the observation records it. Either way the step goes on, with the command taken from the queue (log 2, 6). -/
def Obligations.MalformedRefused : Prop :=
  ∀ (s : State) (c : Command) (rest : List Command), s.pending = c :: rest →
    (∃ t, step s = .next t ∧ t.pending = rest) ∧
    ((∃ e, step s = .next (State.refuse { s with pending := rest, oob := c.oob } (.malformedWord e))) ↔
      c.word.extractLsb' 30 2 = 3#2 ∨ c.word.extractLsb' 24 3 ≠ 0#3 ∨
      (c.word.extractLsb' 27 3 = 1#3 ∧ c.word.extractLsb' 0 8 ≠ 0#8) ∨
      (2 ≤ (c.word.extractLsb' 27 3).toNat ∧
        (c.word.extractLsb' 8 16 ≠ 0#16 ∨ c.word.extractLsb' 0 8 ≠ 0#8)))

/-- R8, R100, R116: a step executes the command that the first pending word decodes to under PAGE.GROUP, with its
out-of-band operands presented and the word taken from the queue. The queue is the model's (log 2, 3). -/
def Obligations.StepRunsDecoded : Prop :=
  (∀ (s : State) (c : Command) (rest : List Command) (i : Instr), s.pending = c :: rest →
      decode s.pageGroup c.word = .ok i → i.wf = true → step s = exec i { s with pending := rest, oob := c.oob }) ∧
  (∀ (s : State) (w : Wve), s.wve = some w → s.pageGroup = w.page.extractLsb' 5 2) ∧
  ∀ s : State, s.wve = none → s.pageGroup = 0#2

/-- R100 to R107: words written out from the spec's encoding, each decoding to the command it stands for. -/
def Obligations.KnownWords : Prop :=
  decode 0#2 0x00000412#32 = .ok (.wveWrL0 1#4 0x12#8) ∧
  decode 0#2 0x00000301#32 = .ok (.wveWrCtrl 0x01#8) ∧
  decode 1#2 0x00000301#32 = .ok (.wveWrLvol 0x01#8) ∧
  decode 2#2 0x00000301#32 = .ok (.wveWrK1 0x01#8) ∧
  decode 3#2 0x00000301#32 = .ok (.wveWrNone 0#4 0x01#8) ∧
  decode 3#2 0x00003F45#32 = .ok (.wveWrPage 0x45#8) ∧
  decode 0#2 0x08001000#32 = .ok (.wveRdL0 4#4) ∧
  decode 0#2 0x38000000#32 = .ok .wveTick ∧
  decode 0#2 0x40000017#32 = .ok (.adpWrData 0x17#8) ∧
  decode 0#2 0x4000010C#32 = .ok (.adpWrCtrl 0x0C#8) ∧
  decode 0#2 0x802EFF00#32 = .ok (.sweWrLatch0 0xEFF#12 0x00#8) ∧
  decode 0#2 0x80500000#32 = .ok (.sweWrTrig1 0#12 0x00#8) ∧
  decode 0#2 0x80600000#32 = .ok (.ignored (.sweWrite 0x6000#16 0x00#8)) ∧
  decode 0#2 0xC0000000#32 = .error .noEngine

/-- The model's choices (log 1, 2): State.reset is the block before any START (R20), and with no command issued a step
changes nothing (R8). -/
def Obligations.ResetAndIdle : Prop :=
  (State.reset.wve = none ∧ State.reset.adp = none ∧ State.reset.swe = none) ∧
  ∀ s : State, s.pending = [] → step s = .next s

/-! ### Invariants and the whole machine -/

/-- The good-state invariant holds at State.reset. That the reset state is the block before any START, with every engine
absent, is the model's choice (log 1). -/
def Obligations.InvReset : Prop := State.reset.Inv

/-- Every step from a good state gives a good state (R24, R38, R48, R50, R51, R52, R57). -/
def Obligations.InvStep : Prop := ∀ s t : State, s.Inv → step s = .next t → t.Inv

/-- R62: the listed invariants, after every step from a good state. The spec derives R62 itself. -/
def Obligations.StepKeepsR62 : Prop :=
  ∀ s t : State, s.Inv → step s = .next t →
    (∀ w' ∈ t.wve, ∀ i : Fin 32,
      (w'.voice i).accum.toNat ≤ 2 ^ w'.cfg.accBits - 1 ∧ (w'.voice i).lvol.toNat ≤ 0xFFFF ∧
      (w'.voice i).rvol.toNat ≤ 0xFFFF ∧ (w'.voice i).k1.toNat ≤ 0xFFFF ∧ (w'.voice i).k2.toNat ≤ 0xFFFF) ∧
    (∀ p' ∈ t.adp, fifoOccupancy p' ≤ 7 ∧ p'.step ≤ 48 ∧ -2048 ≤ p'.signal ∧ p'.signal ≤ 2047) ∧
    ∀ w ∈ s.wve, ∀ w' ∈ t.wve, (∀ r : Fin 4, (w.region r).size ≤ (w'.region r).size) ∧ w'.cfg.actv = w.cfg.actv

/-- R9, R92, R360: a command leaves the other engines, the queue and the operand port as they were, and adds exactly one
entry to the observation, whether it is done or refused. -/
def Obligations.EngineFrame : Prop :=
  ∀ (i : Instr) (s t : State), exec i s = .next t →
    (i.engine ≠ .wve → t.wve = s.wve) ∧ (i.engine ≠ .adp → t.adp = s.adp) ∧ (i.engine ≠ .swe → t.swe = s.swe) ∧
    t.pending = s.pending ∧ t.oob = s.oob ∧ ∃ entry, t.trace = s.trace ++ [entry]

/-- R92: two commands of different engines, each with its own operands, give the same three instances and the same
two observations in either order. The spec derives R92 itself. -/
def Obligations.EnginesCommute : Prop :=
  ∀ (i j : Instr) (a b : OutOfBand) (s t u : State), i.engine ≠ j.engine →
    exec i { s with oob := a } = .next t → exec j { t with oob := b } = .next u →
    ∃ t' u' ei ej, exec j { s with oob := b } = .next t' ∧ exec i { t' with oob := a } = .next u' ∧
      u'.wve = u.wve ∧ u'.adp = u.adp ∧ u'.swe = u.swe ∧
      u.trace = s.trace ++ [ei, ej] ∧ u'.trace = s.trace ++ [ej, ei]

/-- R134, R360: every command other than START to an absent instance is refused: nothing changes, and the observation
records it. -/
def Obligations.AbsentRefused : Prop :=
  ∀ (i : Instr) (s : State), s.present i.engine = false → i.isStart = false →
    exec i s = .next { s with trace := s.trace ++ [.refused (.absentInstance i.engine)] }

/-- R360 (b), (c), (d), R370: exactly these commands are refused, with this reason; a refusal changes nothing but the
observation, which records it, and every other command is done. So every command answers a next state. -/
def Obligations.RefusedExactly : Prop :=
  ∀ (i : Instr) (s : State),
    let reason : Option RefusalReason :=
      if s.present i.engine = false ∧ i.isStart = false then some (.absentInstance i.engine)
      else if s.present i.engine = true ∧ i.isStart = true then some (.startPresent i.engine)
      else if (i = .wveStart ∧ wveConfigLegal s.oob.wveCfg = false) ∨
          (i = .adpStart ∧ adpConfigLegal s.oob.adpCfg = false) ∨
          (i = .sweStart ∧ sweConfigLegal s.oob.sweCfg = false) then some (.illegalConfig i.engine)
      else if i = .wveLoad ∧ 4 ≤ s.oob.load.region then some (.badRegion s.oob.load.region)
      else none
    (∀ r, reason = some r → exec i s = .next { s with trace := s.trace ++ [.refused r] }) ∧
    (reason = none → ∃ t events, exec i s = .next t ∧ t.trace = s.trace ++ [.done events])

/-- R10, R48, R49, R55, R57, R58, R393: while an instance stays present its parameters stay; only LOAD changes sample
data, and only MUTE changes a mute mask. -/
def Obligations.KeptByAll : Prop :=
  ∀ (i : Instr) (s t : State), exec i s = .next t →
    (∀ w ∈ s.wve, ∀ w' ∈ t.wve, w'.cfg = w.cfg ∧ (i ≠ .wveLoad → w'.regions = w.regions) ∧
      (i ≠ .wveMute → w'.wmute = w.wmute)) ∧
    (∀ p ∈ s.adp, ∀ p' ∈ t.adp, p'.cfg = p.cfg ∧ (i ≠ .adpMute → p'.amute = p.amute)) ∧
    ∀ q ∈ s.swe, ∀ q' ∈ t.swe, q'.cfg = q.cfg ∧ (i ≠ .sweLoad → q'.lut = q.lut) ∧ (i ≠ .sweMute → q'.smute = q.smute)

/-- R145: `rate(q)` is emitted by every RESET with the derived rate (R394), by an ADP control write that changes RST or
RS, and by nothing else. -/
def Obligations.RateEvents : Prop :=
  ∀ (i : Instr) (s t : State), exec i s = .next t → ∃ entry, t.trace = s.trace ++ [entry] ∧
    ∀ (e : Engine) (q : Rat), Event.rate e q ∈ entry.events ↔
      ((i = .wveReset ∧ e = .wve ∧ ∃ w, s.wve = some w ∧ q = (w.cfg.clock : Rat) / (16 * ((w.cfg.actv : Rat) + 1))) ∨
      (i = .adpReset ∧ e = .adp ∧ ∃ p, s.adp = some p ∧ q = (p.cfg.clock : Rat) / 48) ∨
      (i = .sweReset ∧ e = .swe ∧ ∃ v, s.swe = some v ∧ q = (v.cfg.clock : Rat) / (v.cfg.clockDiv : Rat)) ∨
      ∃ d p, i = .adpWrCtrl d ∧ e = .adp ∧ s.adp = some p ∧
        (d.getLsbD 0 ≠ p.ctl.getLsbD 0 ∨ d.extractLsb' 2 2 ≠ p.ctl.extractLsb' 2 2) ∧
        q = (p.cfg.clock : Rat) / (([48, 64, 96, 192].getD (d.toNat / 4 % 4) 0 : Nat) : Rat))

/-- R368: a pending flag of a voice is cleared by nothing but a RESET, or a CTRL commit to that voice with bit 14 = 0. -/
def Obligations.IrqSticky : Prop :=
  ∀ (i : Instr) (s t : State) (w w' : Wve) (v : Fin 32), exec i s = .next t → s.wve = some w → t.wve = some w' →
    (w.voice v).ctrl.getLsbD 14 = true → (w'.voice v).ctrl.getLsbD 14 = false →
    i = .wveReset ∨
      ∃ d, i = .wveWrCtrl d ∧ v.val = w.page.toNat % 32 ∧ (w.wlatch.extractLsb' 8 24 ++ d : Word).getLsbD 14 = false

/-- R366, R367, R368: a pending flag is set only by a CTRL commit to that voice with bit 14 = 1, or by a TICK on which
the running voice crosses a loop boundary with IRQE = 1. -/
def Obligations.IrqSource : Prop :=
  ∀ (i : Instr) (s t : State) (w w' : Wve) (v : Fin 32), exec i s = .next t → s.wve = some w → t.wve = some w' →
    wveConfigLegal w.cfg = true → (w.voice v).ctrl.getLsbD 14 = false → (w'.voice v).ctrl.getLsbD 14 = true →
    (∃ d, i = .wveWrCtrl d ∧ v.val = w.page.toNat % 32 ∧ (w.wlatch.extractLsb' 8 24 ++ d : Word).getLsbD 14 = true) ∨
    (i = .wveTick ∧ s.Runs w v ∧ (w.voice v).ctrl.getLsbD 13 = true ∧
      (CrossesForward w.cfg (w.voice v) ∨ CrossesReverse w.cfg (w.voice v)))

/-- R50: after every TICK and every CTRL commit IRQ_OUT is the OR of the 32 pending flags. The output
line is the spec's own choice (R50; log 17). -/
def Obligations.IrqOutLevel : Prop :=
  ∀ (i : Instr) (s : State) (w : Wve), s.wve = some w → (i = .wveTick ∨ ∃ d, i = .wveWrCtrl d) →
    ∃ t w', exec i s = .next t ∧ t.wve = some w' ∧
      (w'.irqOut = true ↔ ∃ v : Fin 32, (w'.voice v).ctrl.getLsbD 14 = true)

/-! ### WVE registers -/

/-- R160: a lane 0, 1 or 2 write puts its byte in WLATCH and changes nothing else. -/
def Obligations.LaneWrites : Prop :=
  ∀ (n : BitVec 4) (d : Byte) (s : State) (w : Wve), s.wve = some w →
    let latched (x : Word) : Result := .next (State.emit { s with wve := some { w with wlatch := x } } [])
    exec (.wveWrL0 n d) s = latched (d ++ w.wlatch.extractLsb' 0 24) ∧
    exec (.wveWrL1 n d) s = latched (w.wlatch.extractLsb' 24 8 ++ d ++ w.wlatch.extractLsb' 0 16) ∧
    exec (.wveWrL2 n d) s = latched (w.wlatch.extractLsb' 16 16 ++ d ++ w.wlatch.extractLsb' 0 8)

/-- R161, R164: a CTRL commit to the selected voice keeps bits 14:8 and 6:0 of the assembled value, IRQ_OUT follows,
the latch is cleared and nothing else changes. -/
def Obligations.CommitCtrl : Prop :=
  ∀ (d : Byte) (s : State) (w : Wve) (i : Fin 32), s.wve = some w → i.val = w.page.toNat % 32 →
    let val : Word := w.wlatch.extractLsb' 8 24 ++ d
    let ctrl : BitVec 15 := val.extractLsb' 8 7 ++ 0#1 ++ val.extractLsb' 0 7
    let voices := (w.setVoice i { w.voice i with ctrl := ctrl }).voices
    exec (.wveWrCtrl d) s =
      .next (State.emit
        { s with wve := some { w with voices := voices, irqOut := voices.toList.any fun v => v.ctrl.getLsbD 14,
                                      wlatch := 0#32 } } [])

/-- R161, R165 to R168: the other group 0 commits write one register of the selected voice, clear the latch and change
nothing else; ACCUM is masked to ACC_BITS. -/
def Obligations.CommitGroup0 : Prop :=
  ∀ (d : Byte) (s : State) (w : Wve) (i : Fin 32), s.wve = some w → i.val = w.page.toNat % 32 →
    let val : Word := w.wlatch.extractLsb' 8 24 ++ d
    let v := w.voice i
    let done (x : Voice) : Result :=
      .next (State.emit { s with wve := some { w.setVoice i x with wlatch := 0#32 } } [])
    exec (.wveWrFreq d) s = done { v with freq := val } ∧
    exec (.wveWrStart d) s = done { v with loopStart := val } ∧
    exec (.wveWrEnd d) s = done { v with loopEnd := val } ∧
    exec (.wveWrAccum d) s = done { v with accum := BitVec.ofNat 32 (val.toNat % 2 ^ w.cfg.accBits) }

/-- R161, R169 to R173: the group 1 commits write the low 16 bits to one register of the selected voice. -/
def Obligations.CommitGroup1 : Prop :=
  ∀ (d : Byte) (s : State) (w : Wve) (i : Fin 32), s.wve = some w → i.val = w.page.toNat % 32 →
    let low : Half := w.wlatch.extractLsb' 8 8 ++ d
    let v := w.voice i
    let done (x : Voice) : Result :=
      .next (State.emit { s with wve := some { w.setVoice i x with wlatch := 0#32 } } [])
    exec (.wveWrLvol d) s = done { v with lvol := low } ∧
    exec (.wveWrLvramp d) s = done { v with lvramp := low } ∧
    exec (.wveWrRvol d) s = done { v with rvol := low } ∧
    exec (.wveWrRvramp d) s = done { v with rvramp := low } ∧
    exec (.wveWrEcount d) s = done { v with ecount := low }

/-- R161, R174 to R181: the group 2 commits write a coefficient or its ramp (16 bits) or a history (32 bits). -/
def Obligations.CommitGroup2 : Prop :=
  ∀ (d : Byte) (s : State) (w : Wve) (i : Fin 32), s.wve = some w → i.val = w.page.toNat % 32 →
    let val : Word := w.wlatch.extractLsb' 8 24 ++ d
    let low : Half := w.wlatch.extractLsb' 8 8 ++ d
    let v := w.voice i
    let done (x : Voice) : Result :=
      .next (State.emit { s with wve := some { w.setVoice i x with wlatch := 0#32 } } [])
    exec (.wveWrK1 d) s = done { v with k1 := low } ∧
    exec (.wveWrK1ramp d) s = done { v with k1ramp := low } ∧
    exec (.wveWrK2 d) s = done { v with k2 := low } ∧
    exec (.wveWrK2ramp d) s = done { v with k2ramp := low } ∧
    exec (.wveWrO1 d) s = done { v with o1 := val } ∧
    exec (.wveWrO2 d) s = done { v with o2 := val } ∧
    exec (.wveWrO3 d) s = done { v with o3 := val } ∧
    exec (.wveWrO4 d) s = done { v with o4 := val }

/-- R162, R163: the PAGE commit takes VSEL and GROUP from bits 6:0; a commit to no register clears the latch only. -/
def Obligations.CommitPageNone : Prop :=
  ∀ (n : BitVec 4) (d : Byte) (s : State) (w : Wve), s.wve = some w →
    exec (.wveWrPage d) s =
      .next (State.emit { s with wve := some { w with page := d.extractLsb' 0 7, wlatch := 0#32 } } []) ∧
    exec (.wveWrNone n d) s = .next (State.emit { s with wve := some { w with wlatch := 0#32 } } [])

/-- R182, R185: a lane-0 read snapshots the register that PAGE and N select into RLATCH (0 where none is), returns its
top byte and changes nothing else. -/
def Obligations.ReadSnapshot : Prop :=
  ∀ (n : BitVec 4) (s : State) (w : Wve) (i : Fin 32), s.wve = some w → i.val = w.page.toNat % 32 →
    let g := w.page.toNat / 32
    let v := w.voice i
    ∃ val : Word,
      exec (.wveRdL0 n) s =
        .next (State.emit { s with wve := some { w with rlatch := val } } [.readByte .wve (val.extractLsb' 24 8)]) ∧
      (n = 15#4 → val = w.page.setWidth 32) ∧
      (g = 0 → n = 0#4 → val = v.ctrl.setWidth 32) ∧ (g = 0 → n = 1#4 → val = v.freq) ∧
      (g = 0 → n = 2#4 → val = v.loopStart) ∧ (g = 0 → n = 3#4 → val = v.loopEnd) ∧
      (g = 0 → n = 4#4 → val = v.accum) ∧
      (g = 1 → n = 0#4 → val = v.lvol.setWidth 32) ∧ (g = 1 → n = 1#4 → val = v.lvramp.setWidth 32) ∧
      (g = 1 → n = 2#4 → val = v.rvol.setWidth 32) ∧ (g = 1 → n = 3#4 → val = v.rvramp.setWidth 32) ∧
      (g = 1 → n = 4#4 → val = v.ecount.setWidth 32) ∧
      (g = 2 → n = 0#4 → val = v.k1.setWidth 32) ∧ (g = 2 → n = 1#4 → val = v.k1ramp.setWidth 32) ∧
      (g = 2 → n = 2#4 → val = v.k2.setWidth 32) ∧ (g = 2 → n = 3#4 → val = v.k2ramp.setWidth 32) ∧
      (g = 2 → n = 4#4 → val = v.o1) ∧ (g = 2 → n = 5#4 → val = v.o2) ∧
      (g = 2 → n = 6#4 → val = v.o3) ∧ (g = 2 → n = 7#4 → val = v.o4) ∧
      (n ≠ 15#4 → (g ≤ 1 ∧ 5 ≤ n.toNat) ∨ (g = 2 ∧ 8 ≤ n.toNat) ∨ g = 3 → val = 0#32)

/-- R183: a lane 1, 2 or 3 read returns a byte of RLATCH and changes no state. -/
def Obligations.ReadLanes : Prop :=
  ∀ (n : BitVec 4) (s : State) (w : Wve), s.wve = some w →
    exec (.wveRdL1 n) s = .next (s.emit [.readByte .wve (w.rlatch.extractLsb' 16 8)]) ∧
    exec (.wveRdL2 n) s = .next (s.emit [.readByte .wve (w.rlatch.extractLsb' 8 8)]) ∧
    exec (.wveRdL3 n) s = .next (s.emit [.readByte .wve (w.rlatch.extractLsb' 0 8)])

/-- R83, R88, R89, R160, R161, R182, R183: four byte writes and then four byte reads of FREQ, in lane order and whatever
register number the lane 0 to 2 writes and the lane 1 to 3 reads name, give the four bytes back, most significant first. -/
def Obligations.WriteReadBack : Prop :=
  ∀ (s : State) (w : Wve) (a b c m n o : BitVec 4) (b0 b1 b2 b3 : Byte), s.wve = some w →
    w.page.extractLsb' 5 2 = 0#2 →
    ∃ t1 t2 t3 t4 t5 t6 t7 t8,
      exec (.wveWrL0 a b0) s = .next t1 ∧ exec (.wveWrL1 b b1) t1 = .next t2 ∧
      exec (.wveWrL2 c b2) t2 = .next t3 ∧ exec (.wveWrFreq b3) t3 = .next t4 ∧
      exec (.wveRdL0 1#4) t4 = .next t5 ∧ exec (.wveRdL1 m) t5 = .next t6 ∧
      exec (.wveRdL2 n) t6 = .next t7 ∧ exec (.wveRdL3 o) t7 = .next t8 ∧
      t8.trace = s.trace ++ [.done [], .done [], .done [], .done [], .done [.readByte .wve b0],
        .done [.readByte .wve b1], .done [.readByte .wve b2], .done [.readByte .wve b3]]

/-! ### The device contract -/

/-- R390, R391, R392, R394: RESET gives every register its reset value, keeps parameters, sample data and mute masks,
and emits the derived rate. The values are the
spec's own choice (R390: "The values themselves are the spec's own choice"), and so are the kept mute masks (R393: "The
mute masks survive by the spec's own choice"); log 17. -/
def Obligations.Resets : Prop :=
  (∀ (s : State) (w : Wve), s.wve = some w →
    let v : Voice :=
      { ctrl := 0x0001, freq := 0, loopStart := 0, loopEnd := 0, accum := 0, lvol := 0xFFFF, lvramp := 0,
        rvol := 0xFFFF, rvramp := 0, ecount := 0, k1 := 0xFFFF, k1ramp := 0, k2 := 0xFFFF, k2ramp := 0,
        o1 := 0, o2 := 0, o3 := 0, o4 := 0, tickcnt := 0 }
    exec .wveReset s =
      .next (State.emit
        { s with wve := some { w with voices := Vector.replicate 32 v, page := 0, wlatch := 0, rlatch := 0,
                                      irqOut := false } }
        [.rate .wve ((w.cfg.clock : Rat) / (16 * ((w.cfg.actv : Rat) + 1)))])) ∧
  (∀ (s : State) (p : Adp), s.adp = some p →
    exec .adpReset s =
      .next (State.emit
        { s with adp := some { p with signal := 0, step := 0, fq := Vector.replicate 8 0, rd := 0, wr := 0,
                                      ctl := 0x00 } }
        [.rate .adp ((p.cfg.clock : Rat) / 48)])) ∧
  ∀ (s : State) (q : Swe), s.swe = some q →
    let v : SweVoice := { pl := 0, frq := 0, vol := 0, wf := 0, cnt := 0, addr := 0 }
    exec .sweReset s =
      .next (State.emit { s with swe := some { q with v0 := v, v1 := v } }
        [.rate .swe ((q.cfg.clock : Rat) / (q.cfg.clockDiv : Rat))])

/-- R131, R132: START of a present instance or with an illegal configuration is refused; else the environment's draw
decides: success makes an instance with every field 0 and nothing loaded, failure leaves it absent with a diagnostic. That the draw
comes with the command is the model's form (log 7), and which given FILTER_STAGE2 is legal is its choice (log 10). -/
def Obligations.Starts : Prop :=
  ∀ s : State,
    (s.wve.isSome = true → exec .wveStart s = .next (s.refuse (.startPresent .wve))) ∧
    (s.wve = none → wveConfigLegal s.oob.wveCfg = false → exec .wveStart s = .next (s.refuse (.illegalConfig .wve))) ∧
    (s.wve = none → wveConfigLegal s.oob.wveCfg = true → s.oob.draw = .allocationFailure →
      exec .wveStart s = .next (s.emit [.diag .wve .allocationFailure])) ∧
    (s.wve = none → wveConfigLegal s.oob.wveCfg = true → s.oob.draw = .success →
      let v : Voice :=
        { ctrl := 0, freq := 0, loopStart := 0, loopEnd := 0, accum := 0, lvol := 0, lvramp := 0, rvol := 0,
          rvramp := 0, ecount := 0, k1 := 0, k1ramp := 0, k2 := 0, k2ramp := 0, o1 := 0, o2 := 0, o3 := 0, o4 := 0,
          tickcnt := 0 }
      exec .wveStart s =
        .next (State.emit
          { s with wve := some { cfg := s.oob.wveCfg, voices := Vector.replicate 32 v, page := 0, wlatch := 0,
                                 rlatch := 0, regions := Vector.replicate 4 { size := 0, mem := [] }, wmute := 0,
                                 irqOut := false } } [])) ∧
    (s.adp.isSome = true → exec .adpStart s = .next (s.refuse (.startPresent .adp))) ∧
    (s.adp = none → ¬ 0 < s.oob.adpCfg.clock → exec .adpStart s = .next (s.refuse (.illegalConfig .adp))) ∧
    (s.adp = none → 0 < s.oob.adpCfg.clock → s.oob.draw = .allocationFailure →
      exec .adpStart s = .next (s.emit [.diag .adp .allocationFailure])) ∧
    (s.adp = none → 0 < s.oob.adpCfg.clock → s.oob.draw = .success →
      exec .adpStart s =
        .next (State.emit
          { s with adp := some { cfg := s.oob.adpCfg, signal := 0, step := 0, fq := Vector.replicate 8 0, rd := 0,
                                 wr := 0, ctl := 0, amute := false } } [])) ∧
    (s.swe.isSome = true → exec .sweStart s = .next (s.refuse (.startPresent .swe))) ∧
    (s.swe = none → ¬ (0 < s.oob.sweCfg.clock ∧ 0 < s.oob.sweCfg.clockDiv) →
      exec .sweStart s = .next (s.refuse (.illegalConfig .swe))) ∧
    (s.swe = none → 0 < s.oob.sweCfg.clock → 0 < s.oob.sweCfg.clockDiv → s.oob.draw = .allocationFailure →
      exec .sweStart s = .next (s.emit [.diag .swe .allocationFailure])) ∧
    (s.swe = none → 0 < s.oob.sweCfg.clock → 0 < s.oob.sweCfg.clockDiv → s.oob.draw = .success →
      let v : SweVoice := { pl := 0, frq := 0, vol := 0, wf := 0, cnt := 0, addr := 0 }
      exec .sweStart s =
        .next (State.emit
          { s with swe := some { cfg := s.oob.sweCfg, v0 := v, v1 := v, lut := { size := 0, mem := [] },
                                 smute := 0 } } []))

/-- R10, R218: the legal WVE configurations. What a FILTER_STAGE2 given by the host may be is the model's choice
(log 10), and stays `stage2Legal` here. -/
def Obligations.LegalWveConfig : Prop :=
  ∀ c : WveConfig, wveConfigLegal c = true ↔
    0 < c.clock ∧ c.actv ≤ 31 ∧ (c.accBits = 31 ∨ c.accBits = 32) ∧ 1 ≤ c.chans ∧ c.chans ≤ 8 ∧
    (∀ values, c.ulaw = .entries values → values.length = 256) ∧
    (∀ k : Byte, -32768 ≤ ulawEntry c.ulaw k ∧ ulawEntry c.ulaw k ≤ 32767 ∧
      ulawEntry c.ulaw (k ^^^ 0x80#8) = -ulawEntry c.ulaw k) ∧
    (∀ k : Byte, k ≠ 0x7F#8 → k ≠ 0xFF#8 → (ulawEntry c.ulaw k).natAbs ≤ (ulawEntry c.ulaw (k + 1#8)).natAbs) ∧
    stage2Legal c.stage2 = true

/-- R133: STOP of a present instance leaves it absent; of an absent one it is refused. -/
def Obligations.Stops : Prop :=
  ∀ s : State,
    (s.wve.isSome = true → exec .wveStop s = .next (State.emit { s with wve := none } [])) ∧
    (s.wve = none → exec .wveStop s = .next (s.refuse (.absentInstance .wve))) ∧
    (s.adp.isSome = true → exec .adpStop s = .next (State.emit { s with adp := none } [])) ∧
    (s.adp = none → exec .adpStop s = .next (s.refuse (.absentInstance .adp))) ∧
    (s.swe.isSome = true → exec .sweStop s = .next (State.emit { s with swe := none } [])) ∧
    (s.swe = none → exec .sweStop s = .next (s.refuse (.absentInstance .swe)))

/-- R135, R82, R84, R85: a LOAD writes its bytes to the region they are for, grows it with zeros to the last word it
writes, and leaves every other byte, region and register as it was; another region number is refused. Byte `2i` of a
region is bits 7:0 of word `i` and byte `2i + 1` bits 15:8: the spec's own choice of R84 (general knowledge GK2; log 11,
17). -/
def Obligations.WveLoad : Prop :=
  ∀ (s : State) (w : Wve), s.wve = some w →
    let r := s.oob.load.region
    let off := s.oob.load.offset
    let bytes := s.oob.load.bytes
    let x := s.oob.load.expand
    (4 ≤ r → exec .wveLoad s = .next (s.refuse (.badRegion r))) ∧
    ∀ q : Fin 4, r = q.val → Store.wf 2 (w.region q) = true →
      ∃ st : Store,
        exec .wveLoad s = .next (State.emit { s with wve := some (w.setRegion q st) } []) ∧
        st.size =
          (if bytes = [] then (w.region q).size
           else max (w.region q).size
             ((if x = true then off + bytes.length - 1 else (off + bytes.length - 1) / 2) + 1)) ∧
        (∀ k : Nat, Memory.read st.mem k =
          if x = true then
            (if off ≤ k / 2 ∧ k / 2 < off + bytes.length then
              (if k % 2 = 1 then bytes.getD (k / 2 - off) 0#8 else 0#8)
             else Memory.read (w.region q).mem k)
          else
            (if off ≤ k ∧ k < off + bytes.length then bytes.getD (k - off) 0#8
             else Memory.read (w.region q).mem k)) ∧
        ∀ i : Nat, st.word i =
          if i < st.size then some (Memory.read st.mem (2 * i + 1) ++ Memory.read st.mem (2 * i)) else none

/-- R136, R333: a SWE LOAD writes its bytes to the LUT, grows it with zeros and leaves everything else. -/
def Obligations.SweLoad : Prop :=
  ∀ (s : State) (q : Swe), s.swe = some q → Store.wf 1 q.lut = true →
    let off := s.oob.load.offset
    let bytes := s.oob.load.bytes
    ∃ lut : Store,
      exec .sweLoad s = .next (State.emit { s with swe := some { q with lut := lut } } []) ∧
      lut.size = (if bytes = [] then q.lut.size else max q.lut.size (off + bytes.length)) ∧
      (∀ k : Nat, Memory.read lut.mem k =
        if off ≤ k ∧ k < off + bytes.length then bytes.getD (k - off) 0#8 else Memory.read q.lut.mem k) ∧
      ∀ k : Nat, lut.lutByte k = if k < lut.size then Memory.read lut.mem k else 0#8

/-- R138, R139, R140: MUTE takes its engine's bits of the mask and changes nothing else. -/
def Obligations.Mutes : Prop :=
  (∀ (s : State) (w : Wve), s.wve = some w →
    exec .wveMute s = .next (State.emit { s with wve := some { w with wmute := s.oob.mask } } [])) ∧
  (∀ (s : State) (p : Adp), s.adp = some p →
    exec .adpMute s = .next (State.emit { s with adp := some { p with amute := s.oob.mask.getLsbD 0 } } [])) ∧
  ∀ (s : State) (q : Swe), s.swe = some q →
    exec .sweMute s = .next (State.emit { s with swe := some { q with smute := s.oob.mask.extractLsb' 0 2 } } [])

/-- R112, R137, R184, R270, R278, R327, R328: the commands without effect. An ADP LOAD, an ADP or SWE READ and an
ignored access change nothing, not even a WVE latch, and every such READ returns 0x00. That an ignored lane-0 read leaves
RLATCH alone is R184, which the model takes over a sentence of R112 (DEDUCED, log 23). -/
def Obligations.NoEffectCommands : Prop :=
  (∀ (addr : BitVec 16) (d : Byte) (s : State) (w : Wve), s.wve = some w →
    exec (.ignored (.wveWrite addr d)) s = .next (s.emit []) ∧
    exec (.ignored (.wveRead addr)) s = .next (s.emit [.readByte .wve 0x00#8])) ∧
  (∀ (addr : BitVec 16) (d : Byte) (s : State) (p : Adp), s.adp = some p →
    exec .adpLoad s = .next (s.emit []) ∧
    exec (.adpRd addr) s = .next (s.emit [.readByte .adp 0x00#8]) ∧
    exec (.ignored (.adpWrite addr d)) s = .next (s.emit [])) ∧
  ∀ (addr : BitVec 16) (d : Byte) (s : State) (q : Swe), s.swe = some q →
    exec (.sweRd addr) s = .next (s.emit [.readByte .swe 0x00#8]) ∧
    exec (.ignored (.sweWrite addr d)) s = .next (s.emit [])

/-- R141, R143: any number of TICKs of a present engine succeeds, and each emits exactly one output value. -/
def Obligations.GenerateSucceeds : Prop :=
  ∀ (s : State) (n : Nat),
    (s.wve.isSome = true → ∃ t new, repeatExec .wveTick n s = .next t ∧ t.trace = s.trace ++ new ∧ new.length = n ∧
      ∀ e ∈ new, ∃ out, e = .done [.out .wve out]) ∧
    (s.adp.isSome = true → ∃ t new, repeatExec .adpTick n s = .next t ∧ t.trace = s.trace ++ new ∧ new.length = n ∧
      ∀ e ∈ new, ∃ y, e = .done [.out .adp [y]]) ∧
    (s.swe.isSome = true → ∃ t new, repeatExec .sweTick n s = .next t ∧ t.trace = s.trace ++ new ∧ new.length = n ∧
      ∀ e ∈ new, ∃ y, e = .done [.out .swe [y]])

/-! ### WVE.TICK -/

/-- R210, R212, R245: a TICK of a present WVE completes with one output of C values, changes nothing but voices and
IRQ_OUT, and does not touch a voice above ACTV. -/
def Obligations.TickFrame : Prop :=
  ∀ (s : State) (w : Wve), s.wve = some w →
    ∃ w' out, exec .wveTick s = .next (State.emit { s with wve := some w' } [.out .wve out]) ∧
      out.length = w.cfg.chans ∧ w' = { w with voices := w'.voices, irqOut := w'.irqOut } ∧
      ∀ i : Fin 32, w.cfg.actv < i.val → w'.voice i = w.voice i

/-- R210, R212: what a TICK makes of a voice depends on that voice, the parameters, the mute mask and the regions only:
whatever the other voices, the latches and PAGE hold. -/
def Obligations.TickIsolation : Prop :=
  ∀ (s s' : State) (w w' : Wve) (i : Fin 32), s.wve = some w → s'.wve = some w' →
    w'.cfg = w.cfg → w'.regions = w.regions → w'.wmute = w.wmute → w'.voice i = w.voice i →
    ∃ t t' u u', exec .wveTick s = .next t ∧ exec .wveTick s' = .next t' ∧ t.wve = some u ∧ t'.wve = some u' ∧
      u'.voice i = u.voice i

/-- R212: the order in which the voices 0..ACTV are walked is not observable. -/
def Obligations.TickOrder : Prop :=
  ∀ (w : Wve) (order : List (Fin 32)), order.Nodup → (∀ i, i ∈ order ↔ i.val ≤ w.cfg.actv) →
    walkVoices order w = walkVoices (walkedVoices w.cfg.actv) w

/-- R211, R213, R227 to R230, R245: channel `c` of a TICK's output is the 32-bit wrapped sum, over the running voices,
of the left contribution where `c` is the voice's left channel and of the right one where `c` is its right channel. GAIN is the
spec's own choice (R227; log 17). -/
def Obligations.TickOutputSum : Prop :=
  ∀ (s : State) (w : Wve), s.wve = some w →
    ∃ t out, exec .wveTick s = .next t ∧ t.trace = s.trace ++ [.done [.out .wve out]] ∧ out.length = w.cfg.chans ∧
      ∀ c : Nat, c < w.cfg.chans →
        out.getD c 0 = wrap32 (∑ i : Fin 32,
          let v := w.voice i
          let y := (voicePoles w i).p4
          let l := (v.ctrl.extractLsb' 10 3).toNat % w.cfg.chans
          let r := if l = w.cfg.chans - 1 then l else l + 1
          if i.val ≤ w.cfg.actv ∧ v.ctrl.getLsbD 0 = false ∧ w.wmute.getLsbD i.val = false then
            (if c = l then y * gain (v.lvol.extractLsb' 4 12) / 2048 else 0) +
              (if c = r then y * gain (v.rvol.extractLsb' 4 12) / 2048 else 0)
          else 0)

/-- R213: a walked voice that is stopped or muted keeps CTRL, ACCUM and its histories on a TICK, and its other
host-written registers too; R239 says what its envelope does. -/
def Obligations.FrozenVoice : Prop :=
  ∀ (s : State) (w : Wve) (i : Fin 32), s.wve = some w →
    ((w.voice i).ctrl.getLsbD 0 = true ∨ w.wmute.getLsbD i.val = true) →
    s.AfterTick i fun v' =>
      v'.ctrl = (w.voice i).ctrl ∧ v'.accum = (w.voice i).accum ∧ v'.o1 = (w.voice i).o1 ∧ v'.o2 = (w.voice i).o2 ∧
      v'.o3 = (w.voice i).o3 ∧ v'.o4 = (w.voice i).o4

/-- R239 to R243, R35 to R37, R40: the envelope step of every walked voice, running or not, and what no TICK writes. -/
def Obligations.EnvelopeTick : Prop :=
  ∀ (s : State) (w : Wve) (i : Fin 32), s.wve = some w → i.val ≤ w.cfg.actv →
    let v := w.voice i
    let ramped (value ramp : Half) : Int := max 0 (min 0xFFFF ((value.toNat : Int) + ramp.toInt))
    let throttled (value ramp : Half) : Int :=
      if 0 ≤ ramp.toInt ∨ v.tickcnt = 0#3 then ramped value ramp else (value.toNat : Int)
    s.AfterTick i fun v' =>
      (v.ecount = 0#16 → v'.lvol = v.lvol ∧ v'.rvol = v.rvol ∧ v'.k1 = v.k1 ∧ v'.k2 = v.k2 ∧ v'.ecount = 0#16) ∧
      (v.ecount ≠ 0#16 →
        (v'.lvol.toNat : Int) = ramped v.lvol v.lvramp ∧ (v'.rvol.toNat : Int) = ramped v.rvol v.rvramp ∧
        (v'.k1.toNat : Int) = throttled v.k1 v.k1ramp ∧ (v'.k2.toNat : Int) = throttled v.k2 v.k2ramp ∧
        v'.ecount.toNat = v.ecount.toNat - 1) ∧
      v'.tickcnt.toNat = (v.tickcnt.toNat + 1) % 8 ∧
      v'.freq = v.freq ∧ v'.loopStart = v.loopStart ∧ v'.loopEnd = v.loopEnd ∧ v'.lvramp = v.lvramp ∧
      v'.rvramp = v.rvramp ∧ v'.k1ramp = v.k1ramp ∧ v'.k2ramp = v.k2ramp

/-- R214, R216, R217, R219: the sample a voice reads: two neighbouring words of its region (0 where not loaded),
expanded or taken as they are, interpolated with floor; it stays a 16-bit value, and is the first word where f = 0. The
rounding is the spec's own choice (R219; log 17). -/
def Obligations.SampleAndInterpolation : Prop :=
  ∀ (w : Wve) (v : Voice), wveConfigLegal w.cfg = true →
    let region := w.region (v.ctrl.extractLsb' 8 2).toFin
    let sampleAt (i : Nat) : Int :=
      if i < region.size then
        (if v.ctrl.getLsbD 6 then ulawEntry w.cfg.ulaw (Memory.read region.mem (2 * i + 1))
         else (Memory.read region.mem (2 * i + 1) ++ Memory.read region.mem (2 * i) : Half).toInt)
      else 0
    let f : Int := ((v.accum.toNat % 2048 : Nat) : Int)
    let s0 := sampleAt (v.accum.toNat / 2048)
    let s1 := sampleAt ((v.accum.toNat + 0x800) % 2 ^ w.cfg.accBits / 2048)
    voiceSample w v = (s0 * (2048 - f) + s1 * f) / 2048 ∧
    -32768 ≤ voiceSample w v ∧ voiceSample w v ≤ 32767 ∧ (f = 0 → voiceSample w v = s0)

/-- R220 to R226: the four histories of a running voice after a TICK. Poles 1 and 2 are the same for every FILTER_STAGE2
(R223); poles 3 and 4 are those of R225 with the default one, and with one given by the host they are the given
recurrences of the voice's FMODE, wrapped to the 32 bits of a history (R10, R224; that a recurrence is an expression, and
the wrap, are the model's choice, log 10; pole 3 has no `p3` yet, and 0 stands there). The divisors and the layout of the
default are the spec's own choice (R222, R225; log 17). -/
def Obligations.FilterPoles : Prop :=
  (∀ (s : State) (w : Wve) (i : Fin 32), s.Runs w i →
    let v := w.voice i
    let k1 : Int := ((v.k1.toNat / 16 : Nat) : Int)
    let k2 : Int := ((v.k2.toNat / 16 : Nat) : Int)
    let lp (k a o : Int) : Int := wrap32 (Int.tdiv (k * (a - o)) 4096 + o)
    let hp (k a aprev o : Int) : Int := wrap32 (a - aprev + Int.tdiv (k * o) 32768 + Int.tdiv o 2)
    let lp3 := v.ctrl.getLsbD 4
    let lp4 := v.ctrl.getLsbD 5
    let p1 := lp k1 (voiceSample w v) v.o1.toInt
    let p2 := lp k1 p1 v.o2.toInt
    (s.AfterTick i fun v' => v'.o1.toInt = p1 ∧ v'.o2.toInt = p2) ∧
    (w.cfg.stage2 = .standard →
      let p3 :=
        if lp3 then lp k1 p2 v.o3.toInt else if lp4 then lp k2 p2 v.o3.toInt else hp k2 p2 v.o2.toInt v.o3.toInt
      let p4 := if lp4 then lp k2 p3 v.o4.toInt else hp k2 p3 v.o3.toInt v.o4.toInt
      s.AfterTick i fun v' => v'.o3.toInt = p3 ∧ v'.o4.toInt = p4 ∧ (voicePoles w i).p4 = p4) ∧
    ∀ mode0 mode1 mode2 mode3 : PoleRule, w.cfg.stage2 = .rules mode0 mode1 mode2 mode3 →
      let rule := if lp4 then (if lp3 then mode3 else mode2) else if lp3 then mode1 else mode0
      let inputs (p3 : Int) : PoleInputs :=
        { k1 := k1, k2 := k2, x := voiceSample w v, p1 := p1, p2 := p2, p3 := p3,
          o1 := v.o1.toInt, o2 := v.o2.toInt, o3 := v.o3.toInt, o4 := v.o4.toInt }
      let p3 := wrap32 (poleValue (inputs 0) rule.pole3)
      let p4 := wrap32 (poleValue (inputs p3) rule.pole4)
      s.AfterTick i fun v' => v'.o3.toInt = p3 ∧ v'.o4.toInt = p4 ∧ (voicePoles w i).p4 = p4) ∧
  ∀ (p : PoleInputs) (a b : PoleExpr) (n lo hi : Int) (k : Nat),
    poleValue p (.const n) = n ∧ poleValue p (.add a b) = poleValue p a + poleValue p b ∧
    poleValue p (.sub a b) = poleValue p a - poleValue p b ∧ poleValue p (.mul a b) = poleValue p a * poleValue p b ∧
    poleValue p (.tdiv a k) = Int.tdiv (poleValue p a) k ∧ poleValue p (.shr a k) = poleValue p a / 2 ^ k ∧
    poleValue p (.wrap32 a) = wrap32 (poleValue p a) ∧ poleValue p (.other k) = Config.otherPole k p ∧
    (lo ≤ hi → poleValue p (.clamp a lo hi) = max lo (min hi (poleValue p a))) ∧
    [PoleVar.k1, .k2, .x, .p1, .p2, .p3, .o1, .o2, .o3, .o4].map (fun v => poleValue p (.var v)) =
      [p.k1, p.k2, p.x, p.p1, p.p2, p.p3, p.o1, p.o2, p.o3, p.o4]

/-- R231, R232: a running voice that meets no boundary takes the new position and keeps CTRL. -/
def Obligations.AdvanceInside : Prop :=
  ∀ (s : State) (w : Wve) (i : Fin 32), s.Runs w i →
    ¬ CrossesForward w.cfg (w.voice i) → ¬ CrossesReverse w.cfg (w.voice i) →
    s.AfterTick i fun v' =>
      v'.ctrl = (w.voice i).ctrl ∧
      v'.accum.toNat =
        if (w.voice i).ctrl.getLsbD 1 then reversePosition w.cfg (w.voice i) else forwardPosition w.cfg (w.voice i)

/-- R233, R234, R238: a crossing under the stop policy, or of an empty or inverted loop, sets STOP and keeps the crossed
position; no other CTRL bit but IRQ changes. The choice of R238 is
the spec's own (log 17). -/
def Obligations.CrossStop : Prop :=
  ∀ (s : State) (w : Wve) (i : Fin 32), s.Runs w i →
    let v := w.voice i
    let irq : BitVec 15 := if v.ctrl.getLsbD 13 then 0x4000#15 else 0#15
    (v.ctrl.extractLsb' 2 2 = 0#2 ∨ loopHigh w.cfg v ≤ loopLow w.cfg v) →
    (CrossesForward w.cfg v →
      s.AfterTick i fun v' => v'.accum.toNat = forwardPosition w.cfg v ∧ v'.ctrl = v.ctrl ||| irq ||| 0x0001#15) ∧
    (CrossesReverse w.cfg v →
      s.AfterTick i fun v' => v'.accum.toNat = reversePosition w.cfg v ∧ v'.ctrl = v.ctrl ||| irq ||| 0x0001#15)

/-- R233, R235: a crossing under the loop-forward policy wraps into the loop; only IRQ of CTRL changes. The reverse
formula is the spec's own choice (R235; log 17). -/
def Obligations.CrossLoopForward : Prop :=
  ∀ (s : State) (w : Wve) (i : Fin 32), s.Runs w i →
    let v := w.voice i
    let lo := loopLow w.cfg v
    let hi := loopHigh w.cfg v
    let irq : BitVec 15 := if v.ctrl.getLsbD 13 then 0x4000#15 else 0#15
    v.ctrl.extractLsb' 2 2 = 1#2 → lo < hi →
    (CrossesForward w.cfg v →
      s.AfterTick i fun v' =>
        v'.accum.toNat = lo + (forwardPosition w.cfg v - hi) % (hi - lo) ∧ lo ≤ v'.accum.toNat ∧ v'.accum.toNat < hi ∧
        v'.ctrl = v.ctrl ||| irq) ∧
    (CrossesReverse w.cfg v →
      s.AfterTick i fun v' =>
        v'.accum.toNat = hi - (lo - reversePosition w.cfg v) % (hi - lo) ∧ lo < v'.accum.toNat ∧
        v'.accum.toNat ≤ hi ∧ v'.ctrl = v.ctrl ||| irq)

/-- R233, R236: a crossing under the bounce policy reflects about the crossed boundary, modulo the accumulator, and
turns the direction round. -/
def Obligations.CrossBounce : Prop :=
  ∀ (s : State) (w : Wve) (i : Fin 32), s.Runs w i →
    let v := w.voice i
    let lo := loopLow w.cfg v
    let hi := loopHigh w.cfg v
    let irq : BitVec 15 := if v.ctrl.getLsbD 13 then 0x4000#15 else 0#15
    v.ctrl.extractLsb' 2 2 = 2#2 → lo < hi →
    (CrossesForward w.cfg v →
      s.AfterTick i fun v' =>
        (v'.accum.toNat : Int) = (2 * (hi : Int) - (forwardPosition w.cfg v : Int)) % 2 ^ w.cfg.accBits ∧
        v'.ctrl = v.ctrl ||| irq ||| 0x0002#15) ∧
    (CrossesReverse w.cfg v →
      s.AfterTick i fun v' =>
        (v'.accum.toNat : Int) = (2 * (lo : Int) - (reversePosition w.cfg v : Int)) % 2 ^ w.cfg.accBits ∧
        v'.ctrl = (v.ctrl ||| irq) &&& ~~~0x0002#15)

/-- R233, R237: a crossing under the loop-with-bounce policy reflects into the loop and keeps the direction. The
formula is the spec's own choice (R237; log 17). -/
def Obligations.CrossLoopWithBounce : Prop :=
  ∀ (s : State) (w : Wve) (i : Fin 32), s.Runs w i →
    let v := w.voice i
    let lo := loopLow w.cfg v
    let hi := loopHigh w.cfg v
    let irq : BitVec 15 := if v.ctrl.getLsbD 13 then 0x4000#15 else 0#15
    v.ctrl.extractLsb' 2 2 = 3#2 → lo < hi →
    (CrossesForward w.cfg v →
      s.AfterTick i fun v' =>
        v'.accum.toNat = hi - (forwardPosition w.cfg v - hi) % (hi - lo) ∧ lo < v'.accum.toNat ∧
        v'.accum.toNat ≤ hi ∧ v'.ctrl = v.ctrl ||| irq) ∧
    (CrossesReverse w.cfg v →
      s.AfterTick i fun v' =>
        v'.accum.toNat = lo + (lo - reversePosition w.cfg v) % (hi - lo) ∧ lo ≤ v'.accum.toNat ∧ v'.accum.toNat < hi ∧
        v'.ctrl = v.ctrl ||| irq)

/-- R216, R395: the first TICK after START is silent and stops every walked voice, raising no interrupt; the voices
above ACTV stay as START left them. The spec derives this
in R395 itself. -/
def Obligations.FirstTickAfterStart : Prop :=
  ∀ (s : State) (cfg : WveConfig), wveConfigLegal cfg = true → cfg.stage2 = .standard →
    s.wve = some (startedWve cfg) →
    ∃ t w', exec .wveTick s = .next t ∧ t.wve = some w' ∧
      t.trace = s.trace ++ [.done [.out .wve (List.replicate cfg.chans 0)]] ∧ w'.irqOut = false ∧
      (∀ i : Fin 32, i.val ≤ cfg.actv → (w'.voice i).ctrl = 0x0001#15 ∧ (w'.voice i).accum = 0#32) ∧
      ∀ i : Fin 32, cfg.actv < i.val → (w'.voice i).ctrl = 0x0000#15

/-- R216, R365: a running voice whose region was never loaded and whose histories are 0 keeps them 0 and adds exactly 0
to the output, at any volume (default FILTER_STAGE2). -/
def Obligations.MissingDataSilence : Prop :=
  ∀ (s : State) (w : Wve) (i : Fin 32), s.Runs w i → w.cfg.stage2 = .standard →
    (w.region ((w.voice i).ctrl.extractLsb' 8 2).toFin).size = 0 →
    (w.voice i).o1 = 0#32 → (w.voice i).o2 = 0#32 → (w.voice i).o3 = 0#32 → (w.voice i).o4 = 0#32 →
    (s.AfterTick i fun v' => v'.o1 = 0#32 ∧ v'.o2 = 0#32 ∧ v'.o3 = 0#32 ∧ v'.o4 = 0#32) ∧
    ∀ vol : Half, (voicePoles w i).p4 * gain (vol.extractLsb' 4 12) / 2048 = 0

/-! ### ADP -/

/-- R271, R272, R273: a data write enqueues its code unless the FIFO is full; then it changes nothing and emits
FifoOverflow. -/
def Obligations.AdpData : Prop :=
  ∀ (d : Byte) (s : State) (p : Adp), s.adp = some p →
    ((p.wr.toNat + 1) % 8 = p.rd.toNat → exec (.adpWrData d) s = .next (s.emit [.diag .adp .fifoOverflow])) ∧
    ((p.wr.toNat + 1) % 8 ≠ p.rd.toNat →
      let code : BitVec 4 := BitVec.ofNat 4 (if p.ctl.getLsbD 1 then d.toNat % 8 * 2 else d.toNat % 16)
      exec (.adpWrData d) s =
        .next (State.emit
          { s with adp := some { p with fq := p.fq.set p.wr.toFin code,
                                        wr := BitVec.ofNat 3 ((p.wr.toNat + 1) % 8) } } []))

/-- R274 to R277: a control write stores the byte; a change of RST zeroes SIGNAL and STEP; a change of RST or RS emits
the new rate. The FIFO and AMUTE are untouched. -/
def Obligations.AdpCtrl : Prop :=
  ∀ (d : Byte) (s : State) (p : Adp), s.adp = some p →
    let flip := d.getLsbD 0 ≠ p.ctl.getLsbD 0
    exec (.adpWrCtrl d) s =
      .next (State.emit
        { s with adp := some { p with ctl := d, signal := if flip then 0 else p.signal,
                                      step := if flip then 0 else p.step } }
        (if flip ∨ d.extractLsb' 2 2 ≠ p.ctl.extractLsb' 2 2 then
          [.rate .adp ((p.cfg.clock : Rat) / (([48, 64, 96, 192].getD (d.toNat / 4 % 4) 0 : Nat) : Rat))]
         else []))

/-- R282 to R286: the four cases of an ADP TICK. DELTA, the muted
case and the truncation are the spec's own reading (R280, R284, R285; log 17). -/
def Obligations.AdpTick : Prop :=
  ∀ (s : State) (p : Adp), s.adp = some p →
    (p.ctl.getLsbD 0 = true →
      exec .adpTick s = .next (State.emit { s with adp := some { p with signal := 0, step := 0 } } [.out .adp [0]])) ∧
    (p.ctl.getLsbD 0 = false → p.amute = true → exec .adpTick s = .next (s.emit [.out .adp [0]])) ∧
    (p.ctl.getLsbD 0 = false → p.amute = false → p.wr ≠ p.rd →
      let c := p.fq[p.rd.toFin]
      let x := Int.tdiv (adpDelta p.step c * 256 + p.signal * 245) 256
      let signal := max (-2048) (min 2047 x)
      let step := max 0 (min 48 ((p.step : Int) + [-1, -1, -1, -1, 2, 4, 6, 8].getD (c.toNat % 8) 0))
      exec .adpTick s =
        .next (State.emit
          { s with adp := some { p with rd := BitVec.ofNat 3 ((p.rd.toNat + 1) % 8), signal := signal,
                                        step := step.toNat } }
          [.out .adp [signal * 16]])) ∧
    (p.ctl.getLsbD 0 = false → p.amute = false → p.wr = p.rd →
      exec .adpTick s = .next (s.emit [.out .adp [Int.tdiv (p.signal * 15) 16]]))

/-- R288: the FIFO is a queue: an accepted data write appends its code, a decoding TICK removes the oldest one, RESET
and a START that makes an instance empty it, and nothing else changes it (a refused command among the rest). The spec derives R288 itself. -/
def Obligations.AdpFifoQueue : Prop :=
  (∀ (i : Instr) (s t : State) (p p' : Adp), exec i s = .next t → s.adp = some p → t.adp = some p' →
    (∀ d, i = .adpWrData d → fifoOccupancy p < 7 →
      fifoCodes p' = fifoCodes p ++ [adpCode d (p.ctl.getLsbD 1)] ∧ fifoOccupancy p' = fifoOccupancy p + 1) ∧
    (∀ d, i = .adpWrData d → fifoOccupancy p = 7 → fifoCodes p' = fifoCodes p) ∧
    (i = .adpTick → p.ctl.getLsbD 0 = false → p.amute = false → 0 < fifoOccupancy p →
      fifoCodes p = p.fq[p.rd.toFin] :: fifoCodes p' ∧ fifoOccupancy p = fifoOccupancy p' + 1) ∧
    (i = .adpTick → (p.ctl.getLsbD 0 = true ∨ p.amute = true ∨ fifoOccupancy p = 0) → fifoCodes p' = fifoCodes p) ∧
    (i = .adpReset → fifoCodes p' = []) ∧
    ((∀ d, i ≠ .adpWrData d) → i ≠ .adpTick → i ≠ .adpReset → fifoCodes p' = fifoCodes p)) ∧
  ∀ (s t : State) (p' : Adp), s.adp = none → exec .adpStart s = .next t → t.adp = some p' → fifoCodes p' = []

/-- R218, R227, R275, R279 to R281: the default ULAW_TABLE in full (spec/95 W3), GAIN at three codes of every exponent, the
step sizes, all 49 rows of DELTA with its sign rule, and the prescaler and step-adjust tables. ULAW_TABLE, GAIN and DELTA are
the spec's general knowledge (R218 GK3, R227 GK5, R280 GK6; log 17). A table given by the host is read at the code (log 9). -/
def Obligations.Tables : Prop :=
  (List.range 128).map (fun c => ulawEntry .g711 (BitVec.ofNat 8 c)) =
    [0, 8, 16, 24, 32, 40, 48, 56, 64, 72, 80, 88, 96, 104, 112, 120,
     132, 148, 164, 180, 196, 212, 228, 244, 260, 276, 292, 308, 324, 340, 356, 372,
     396, 428, 460, 492, 524, 556, 588, 620, 652, 684, 716, 748, 780, 812, 844, 876,
     924, 988, 1052, 1116, 1180, 1244, 1308, 1372, 1436, 1500, 1564, 1628, 1692, 1756, 1820, 1884,
     1980, 2108, 2236, 2364, 2492, 2620, 2748, 2876, 3004, 3132, 3260, 3388, 3516, 3644, 3772, 3900,
     4092, 4348, 4604, 4860, 5116, 5372, 5628, 5884, 6140, 6396, 6652, 6908, 7164, 7420, 7676, 7932,
     8316, 8828, 9340, 9852, 10364, 10876, 11388, 11900, 12412, 12924, 13436, 13948, 14460, 14972, 15484, 15996,
     16764, 17788, 18812, 19836, 20860, 21884, 22908, 23932, 24956, 25980, 27004, 28028, 29052, 30076, 31100, 32124] ∧
  (∀ c : Byte, ulawEntry .g711 (c ^^^ 0x80#8) = -ulawEntry .g711 c) ∧
  (∀ (values : List Int) (c : Byte), ulawEntry (.entries values) c = values.getD c.toNat 0) ∧
  (List.range 16).map (fun e => (gain (BitVec.ofNat 12 (e * 256)), gain (BitVec.ofNat 12 (e * 256 + 0x80)),
      gain (BitVec.ofNat 12 (e * 256 + 0xFF)))) =
    [(0, 0, 0), (1, 1, 1), (2, 3, 3), (4, 6, 7), (8, 12, 15), (16, 24, 31),
     (32, 48, 63), (64, 96, 127), (128, 192, 255), (256, 384, 511), (512, 768, 1022), (1024, 1536, 2044),
     (2048, 3072, 4088), (4096, 6144, 8176), (8192, 12288, 16352), (16384, 24576, 32704)] ∧
  (List.range 49).map stepSize =
    [16, 17, 19, 21, 23, 25, 28, 31, 34, 37, 41, 45, 50, 55, 60, 66, 73, 80, 88, 97, 107, 118, 130, 143, 157, 173, 190,
     209, 230, 253, 279, 307, 337, 371, 408, 449, 494, 544, 598, 658, 724, 796, 876, 963, 1060, 1166, 1282, 1411,
     1552] ∧
  (List.range 49).map (fun s => (List.range 8).map fun c => adpDelta s (BitVec.ofNat 4 c)) =
    [[2, 6, 10, 14, 18, 22, 26, 30], [2, 6, 10, 14, 19, 23, 27, 31],
     [2, 6, 11, 15, 21, 25, 30, 34], [2, 7, 12, 17, 23, 28, 33, 38],
     [2, 7, 13, 18, 25, 30, 36, 41], [3, 9, 15, 21, 28, 34, 40, 46],
     [3, 10, 17, 24, 31, 38, 45, 52], [3, 10, 18, 25, 34, 41, 49, 56],
     [4, 12, 21, 29, 38, 46, 55, 63], [4, 13, 22, 31, 41, 50, 59, 68],
     [5, 15, 25, 35, 46, 56, 66, 76], [5, 16, 27, 38, 50, 61, 72, 83],
     [6, 18, 31, 43, 56, 68, 81, 93], [6, 19, 33, 46, 61, 74, 88, 101],
     [7, 22, 37, 52, 67, 82, 97, 112], [8, 24, 41, 57, 74, 90, 107, 123],
     [9, 27, 45, 63, 82, 100, 118, 136], [10, 30, 50, 70, 90, 110, 130, 150],
     [11, 33, 55, 77, 99, 121, 143, 165], [12, 36, 60, 84, 109, 133, 157, 181],
     [13, 39, 66, 92, 120, 146, 173, 199], [14, 43, 73, 102, 132, 161, 191, 220],
     [16, 48, 81, 113, 146, 178, 211, 243], [17, 52, 88, 123, 160, 195, 231, 266],
     [19, 58, 97, 136, 176, 215, 254, 293], [21, 64, 107, 150, 194, 237, 280, 323],
     [23, 70, 118, 165, 213, 260, 308, 355], [26, 78, 130, 182, 235, 287, 339, 391],
     [28, 85, 143, 200, 258, 315, 373, 430], [31, 94, 157, 220, 284, 347, 410, 473],
     [34, 103, 173, 242, 313, 382, 452, 521], [38, 114, 191, 267, 345, 421, 498, 574],
     [42, 126, 210, 294, 379, 463, 547, 631], [46, 138, 231, 323, 417, 509, 602, 694],
     [51, 153, 255, 357, 459, 561, 663, 765], [56, 168, 280, 392, 505, 617, 729, 841],
     [61, 184, 308, 431, 555, 678, 802, 925], [68, 204, 340, 476, 612, 748, 884, 1020],
     [74, 223, 373, 522, 672, 821, 971, 1120], [82, 246, 411, 575, 740, 904, 1069, 1233],
     [90, 271, 452, 633, 814, 995, 1176, 1357], [99, 298, 497, 696, 895, 1094, 1293, 1492],
     [109, 328, 547, 766, 985, 1204, 1423, 1642], [120, 360, 601, 841, 1083, 1323, 1564, 1804],
     [132, 397, 662, 927, 1192, 1457, 1722, 1987], [145, 436, 728, 1019, 1311, 1602, 1894, 2185],
     [160, 480, 801, 1121, 1442, 1762, 2083, 2403], [176, 528, 881, 1233, 1587, 1939, 2292, 2644],
     [194, 582, 970, 1358, 1746, 2134, 2522, 2910]] ∧
  (∀ (s : Nat) (c : BitVec 4), adpDelta s (c ^^^ 8#4) = -adpDelta s c) ∧
  (List.range 4).map (fun r => prescale (BitVec.ofNat 2 r)) = [48, 64, 96, 192] ∧
  (List.range 16).map (fun c => adpAdjust (BitVec.ofNat 4 c)) =
    [-1, -1, -1, -1, 2, 4, 6, 8, -1, -1, -1, -1, 2, 4, 6, 8] ∧
  gain 0x0FF#12 = 0 ∧ gain 0x100#12 = 1 ∧ gain 0x800#12 = 128 ∧ gain 0xF00#12 = 16384 ∧ gain 0xFFF#12 = 32704

/-! ### SWE -/

/-- R321 to R326: the SWE writes change the fields of their voice that the rule names and nothing else. The CTRL
layout is the spec's general knowledge (R321; log 17). -/
def Obligations.SweWrites : Prop :=
  ∀ (a : BitVec 12) (d : Byte) (s : State) (q : Swe), s.swe = some q →
    let done (x : Swe) : Result := .next (State.emit { s with swe := some x } [])
    exec (.sweWrCtrl0 a d) s =
      done { q with v0 := { q.v0 with wf := d.extractLsb' 5 3, vol := d.extractLsb' 0 4 } } ∧
    exec (.sweWrCtrl1 a d) s =
      done { q with v1 := { q.v1 with wf := d.extractLsb' 5 3, vol := d.extractLsb' 0 4 } } ∧
    exec (.sweWrLatch0 a d) s = done { q with v0 := { q.v0 with pl := BitVec.ofNat 12 (0xFFF - a.toNat) } } ∧
    exec (.sweWrLatch1 a d) s = done { q with v1 := { q.v1 with pl := BitVec.ofNat 12 (0xFFF - a.toNat) } } ∧
    exec (.sweWrTrig0 a d) s = done { q with v0 := { q.v0 with frq := q.v0.pl } } ∧
    exec (.sweWrTrig1 a d) s = done { q with v1 := { q.v1 with frq := q.v1.pl } }

/-- R329 to R335: the SWE TICK: the counters of the unmuted voices, and the one output value; nothing else changes. Two's
complement and the factor 128 are the spec's own choice (R334, R335; log 17). -/
def Obligations.SweTick : Prop :=
  ∀ (s : State) (q : Swe), s.swe = some q →
    let next (v : SweVoice) : SweVoice :=
      { v with cnt := if v.cnt = 0#12 then v.frq else BitVec.ofNat 12 (v.cnt.toNat - 1),
               addr := if v.cnt = 0#12 then BitVec.ofNat 5 ((v.addr.toNat + 1) % 32) else v.addr }
    let part (bank : Nat) (v : SweVoice) : Int :=
      let k := bank + v.wf.toNat * 32 + v.addr.toNat
      let b : Byte := if k < q.lut.size then Memory.read q.lut.mem k else 0#8
      (b.extractLsb' 0 4).toInt * (v.vol.toNat : Int)
    let v0 := if q.smute.getLsbD 0 then q.v0 else next q.v0
    let v1 := if q.smute.getLsbD 1 then q.v1 else next q.v1
    let mix := (if q.smute.getLsbD 0 then 0 else part 0x000 v0) + (if q.smute.getLsbD 1 then 0 else part 0x100 v1)
    exec .sweTick s =
      .next (State.emit { s with swe := some { q with v0 := v0, v1 := v1 } } [.out .swe [mix * 128]])

/-- R287, R335: the output ranges of an ADP and of a SWE TICK. The spec derives R287 itself. -/
def Obligations.OutputRanges : Prop :=
  (∀ (s : State) (p : Adp), s.adp = some p → AdpInv p →
    ∃ t y, exec .adpTick s = .next t ∧ t.trace = s.trace ++ [.done [.out .adp [y]]] ∧
      ((p.ctl.getLsbD 0 = true ∨ p.amute = true) → y = 0) ∧
      (p.ctl.getLsbD 0 = false → p.amute = false → p.wr ≠ p.rd → y % 16 = 0 ∧ -32768 ≤ y ∧ y ≤ 32752) ∧
      (p.ctl.getLsbD 0 = false → p.amute = false → p.wr = p.rd → -1920 ≤ y ∧ y ≤ 1919)) ∧
  ∀ (s : State) (q : Swe), s.swe = some q →
    ∃ t y, exec .sweTick s = .next t ∧ t.trace = s.trace ++ [.done [.out .swe [y]]] ∧ -30720 ≤ y ∧ y ≤ 26880 ∧ y % 128 = 0

/-- R330, R331: with FRQ fixed, FRQ + 1 TICKs advance the wave address of an unmuted voice exactly once, modulo 32, and
bring its counter back, wherever in its period the counter stood. -/
def Obligations.SwePeriod : Prop :=
  ∀ (s : State) (q : Swe), s.swe = some q →
    (q.smute.getLsbD 0 = false → q.v0.cnt.toNat ≤ q.v0.frq.toNat →
      ∃ t q', repeatExec .sweTick (q.v0.frq.toNat + 1) s = .next t ∧ t.swe = some q' ∧
        q'.v0 = { q.v0 with addr := q.v0.addr + 1#5 }) ∧
    (q.smute.getLsbD 1 = false → q.v1.cnt.toNat ≤ q.v1.frq.toNat →
      ∃ t q', repeatExec .sweTick (q.v1.frq.toNat + 1) s = .next t ∧ t.swe = some q' ∧
        q'.v1 = { q.v1 with addr := q.v1.addr + 1#5 })
end

