-- ==== Sys2Proof/Laws/State.lean ====
section
/-! SUPPORT. One lemma a field an update: what each shared operation on a record leaves and what it sets. -/

namespace Sys2Proof.Machine

/-! ### State.emit -/

@[simp] theorem emit_wve (s : State) (es : List Event) : (s.emit es).wve = s.wve := rfl
@[simp] theorem emit_adp (s : State) (es : List Event) : (s.emit es).adp = s.adp := rfl
@[simp] theorem emit_swe (s : State) (es : List Event) : (s.emit es).swe = s.swe := rfl
@[simp] theorem emit_pending (s : State) (es : List Event) : (s.emit es).pending = s.pending := rfl
@[simp] theorem emit_oob (s : State) (es : List Event) : (s.emit es).oob = s.oob := rfl
@[simp] theorem emit_trace (s : State) (es : List Event) : (s.emit es).trace = s.trace ++ [.done es] := rfl

/-! ### State.refuse -/

@[simp] theorem refuse_wve (s : State) (r : RefusalReason) : (s.refuse r).wve = s.wve := rfl
@[simp] theorem refuse_adp (s : State) (r : RefusalReason) : (s.refuse r).adp = s.adp := rfl
@[simp] theorem refuse_swe (s : State) (r : RefusalReason) : (s.refuse r).swe = s.swe := rfl
@[simp] theorem refuse_pending (s : State) (r : RefusalReason) : (s.refuse r).pending = s.pending := rfl
@[simp] theorem refuse_oob (s : State) (r : RefusalReason) : (s.refuse r).oob = s.oob := rfl
@[simp] theorem refuse_trace (s : State) (r : RefusalReason) : (s.refuse r).trace = s.trace ++ [.refused r] := rfl

/-! ### State.presenting -/

@[simp] theorem presenting_wve (s : State) (c : Command) (rest : List Command) : (s.presenting c rest).wve = s.wve := rfl
@[simp] theorem presenting_adp (s : State) (c : Command) (rest : List Command) : (s.presenting c rest).adp = s.adp := rfl
@[simp] theorem presenting_swe (s : State) (c : Command) (rest : List Command) : (s.presenting c rest).swe = s.swe := rfl
@[simp] theorem presenting_pending (s : State) (c : Command) (rest : List Command) : (s.presenting c rest).pending = rest := rfl
@[simp] theorem presenting_oob (s : State) (c : Command) (rest : List Command) : (s.presenting c rest).oob = c.oob := rfl
@[simp] theorem presenting_trace (s : State) (c : Command) (rest : List Command) : (s.presenting c rest).trace = s.trace := rfl

/-! ### Wve.setVoice -/

@[simp] theorem setVoice_cfg (w : Wve) (i : Fin 32) (x : Voice) : (w.setVoice i x).cfg = w.cfg := rfl
@[simp] theorem setVoice_voices (w : Wve) (i : Fin 32) (x : Voice) : (w.setVoice i x).voices = w.voices.set i x := rfl
@[simp] theorem setVoice_page (w : Wve) (i : Fin 32) (x : Voice) : (w.setVoice i x).page = w.page := rfl
@[simp] theorem setVoice_wlatch (w : Wve) (i : Fin 32) (x : Voice) : (w.setVoice i x).wlatch = w.wlatch := rfl
@[simp] theorem setVoice_rlatch (w : Wve) (i : Fin 32) (x : Voice) : (w.setVoice i x).rlatch = w.rlatch := rfl
@[simp] theorem setVoice_regions (w : Wve) (i : Fin 32) (x : Voice) : (w.setVoice i x).regions = w.regions := rfl
@[simp] theorem setVoice_wmute (w : Wve) (i : Fin 32) (x : Voice) : (w.setVoice i x).wmute = w.wmute := rfl
@[simp] theorem setVoice_irqOut (w : Wve) (i : Fin 32) (x : Voice) : (w.setVoice i x).irqOut = w.irqOut := rfl

/-! ### Wve.setRegion -/

@[simp] theorem setRegion_cfg (w : Wve) (r : Fin 4) (st : Store) : (w.setRegion r st).cfg = w.cfg := rfl
@[simp] theorem setRegion_voices (w : Wve) (r : Fin 4) (st : Store) : (w.setRegion r st).voices = w.voices := rfl
@[simp] theorem setRegion_page (w : Wve) (r : Fin 4) (st : Store) : (w.setRegion r st).page = w.page := rfl
@[simp] theorem setRegion_wlatch (w : Wve) (r : Fin 4) (st : Store) : (w.setRegion r st).wlatch = w.wlatch := rfl
@[simp] theorem setRegion_rlatch (w : Wve) (r : Fin 4) (st : Store) : (w.setRegion r st).rlatch = w.rlatch := rfl
@[simp] theorem setRegion_regions (w : Wve) (r : Fin 4) (st : Store) : (w.setRegion r st).regions = w.regions.set r st := rfl
@[simp] theorem setRegion_wmute (w : Wve) (r : Fin 4) (st : Store) : (w.setRegion r st).wmute = w.wmute := rfl
@[simp] theorem setRegion_irqOut (w : Wve) (r : Fin 4) (st : Store) : (w.setRegion r st).irqOut = w.irqOut := rfl

/-! ### settleIrq -/

@[simp] theorem settleIrq_cfg (w : Wve) : (settleIrq w).cfg = w.cfg := rfl
@[simp] theorem settleIrq_voices (w : Wve) : (settleIrq w).voices = w.voices := rfl
@[simp] theorem settleIrq_page (w : Wve) : (settleIrq w).page = w.page := rfl
@[simp] theorem settleIrq_wlatch (w : Wve) : (settleIrq w).wlatch = w.wlatch := rfl
@[simp] theorem settleIrq_rlatch (w : Wve) : (settleIrq w).rlatch = w.rlatch := rfl
@[simp] theorem settleIrq_regions (w : Wve) : (settleIrq w).regions = w.regions := rfl
@[simp] theorem settleIrq_wmute (w : Wve) : (settleIrq w).wmute = w.wmute := rfl
@[simp] theorem settleIrq_irqOut (w : Wve) : (settleIrq w).irqOut = irqLevel w.voices := rfl

/-! ### resetWve -/

@[simp] theorem resetWve_cfg (w : Wve) : (resetWve w).cfg = w.cfg := rfl
@[simp] theorem resetWve_voices (w : Wve) : (resetWve w).voices = Vector.replicate 32 resetVoice := rfl
@[simp] theorem resetWve_page (w : Wve) : (resetWve w).page = 0 := rfl
@[simp] theorem resetWve_wlatch (w : Wve) : (resetWve w).wlatch = 0 := rfl
@[simp] theorem resetWve_rlatch (w : Wve) : (resetWve w).rlatch = 0 := rfl
@[simp] theorem resetWve_regions (w : Wve) : (resetWve w).regions = w.regions := rfl
@[simp] theorem resetWve_wmute (w : Wve) : (resetWve w).wmute = w.wmute := rfl
@[simp] theorem resetWve_irqOut (w : Wve) : (resetWve w).irqOut = false := rfl

/-! ### startedWve -/

@[simp] theorem startedWve_cfg (cfg : WveConfig) : (startedWve cfg).cfg = cfg := rfl
@[simp] theorem startedWve_voices (cfg : WveConfig) : (startedWve cfg).voices = Vector.replicate 32 zeroVoice := rfl
@[simp] theorem startedWve_page (cfg : WveConfig) : (startedWve cfg).page = 0 := rfl
@[simp] theorem startedWve_wlatch (cfg : WveConfig) : (startedWve cfg).wlatch = 0 := rfl
@[simp] theorem startedWve_rlatch (cfg : WveConfig) : (startedWve cfg).rlatch = 0 := rfl
@[simp] theorem startedWve_regions (cfg : WveConfig) : (startedWve cfg).regions = Vector.replicate 4 Store.empty := rfl
@[simp] theorem startedWve_wmute (cfg : WveConfig) : (startedWve cfg).wmute = 0 := rfl
@[simp] theorem startedWve_irqOut (cfg : WveConfig) : (startedWve cfg).irqOut = false := rfl

/-! ### setHistories -/

@[simp] theorem setHistories_ctrl (v : Voice) (p : Poles) : (setHistories v p).ctrl = v.ctrl := rfl
@[simp] theorem setHistories_freq (v : Voice) (p : Poles) : (setHistories v p).freq = v.freq := rfl
@[simp] theorem setHistories_loopStart (v : Voice) (p : Poles) : (setHistories v p).loopStart = v.loopStart := rfl
@[simp] theorem setHistories_loopEnd (v : Voice) (p : Poles) : (setHistories v p).loopEnd = v.loopEnd := rfl
@[simp] theorem setHistories_accum (v : Voice) (p : Poles) : (setHistories v p).accum = v.accum := rfl
@[simp] theorem setHistories_lvol (v : Voice) (p : Poles) : (setHistories v p).lvol = v.lvol := rfl
@[simp] theorem setHistories_lvramp (v : Voice) (p : Poles) : (setHistories v p).lvramp = v.lvramp := rfl
@[simp] theorem setHistories_rvol (v : Voice) (p : Poles) : (setHistories v p).rvol = v.rvol := rfl
@[simp] theorem setHistories_rvramp (v : Voice) (p : Poles) : (setHistories v p).rvramp = v.rvramp := rfl
@[simp] theorem setHistories_ecount (v : Voice) (p : Poles) : (setHistories v p).ecount = v.ecount := rfl
@[simp] theorem setHistories_k1 (v : Voice) (p : Poles) : (setHistories v p).k1 = v.k1 := rfl
@[simp] theorem setHistories_k1ramp (v : Voice) (p : Poles) : (setHistories v p).k1ramp = v.k1ramp := rfl
@[simp] theorem setHistories_k2 (v : Voice) (p : Poles) : (setHistories v p).k2 = v.k2 := rfl
@[simp] theorem setHistories_k2ramp (v : Voice) (p : Poles) : (setHistories v p).k2ramp = v.k2ramp := rfl
@[simp] theorem setHistories_o1 (v : Voice) (p : Poles) : (setHistories v p).o1 = BitVec.ofInt 32 p.p1 := rfl
@[simp] theorem setHistories_o2 (v : Voice) (p : Poles) : (setHistories v p).o2 = BitVec.ofInt 32 p.p2 := rfl
@[simp] theorem setHistories_o3 (v : Voice) (p : Poles) : (setHistories v p).o3 = BitVec.ofInt 32 p.p3 := rfl
@[simp] theorem setHistories_o4 (v : Voice) (p : Poles) : (setHistories v p).o4 = BitVec.ofInt 32 p.p4 := rfl
@[simp] theorem setHistories_tickcnt (v : Voice) (p : Poles) : (setHistories v p).tickcnt = v.tickcnt := rfl

/-! ### envelope -/

@[simp] theorem envelope_ctrl (v : Voice) : (envelope v).ctrl = v.ctrl := by unfold envelope; split <;> rfl
@[simp] theorem envelope_freq (v : Voice) : (envelope v).freq = v.freq := by unfold envelope; split <;> rfl
@[simp] theorem envelope_loopStart (v : Voice) : (envelope v).loopStart = v.loopStart := by unfold envelope; split <;> rfl
@[simp] theorem envelope_loopEnd (v : Voice) : (envelope v).loopEnd = v.loopEnd := by unfold envelope; split <;> rfl
@[simp] theorem envelope_accum (v : Voice) : (envelope v).accum = v.accum := by unfold envelope; split <;> rfl
@[simp] theorem envelope_lvol (v : Voice) : (envelope v).lvol = if v.ecount = 0#16 then v.lvol else rampStep v.lvol v.lvramp := by unfold envelope; split <;> rfl
@[simp] theorem envelope_lvramp (v : Voice) : (envelope v).lvramp = v.lvramp := by unfold envelope; split <;> rfl
@[simp] theorem envelope_rvol (v : Voice) : (envelope v).rvol = if v.ecount = 0#16 then v.rvol else rampStep v.rvol v.rvramp := by unfold envelope; split <;> rfl
@[simp] theorem envelope_rvramp (v : Voice) : (envelope v).rvramp = v.rvramp := by unfold envelope; split <;> rfl
@[simp] theorem envelope_ecount (v : Voice) : (envelope v).ecount = if v.ecount = 0#16 then v.ecount else v.ecount - 1#16 := by unfold envelope; split <;> rfl
@[simp] theorem envelope_k1 (v : Voice) : (envelope v).k1 = if v.ecount = 0#16 then v.k1 else coefficientStep v.k1 v.k1ramp v.tickcnt := by unfold envelope; split <;> rfl
@[simp] theorem envelope_k1ramp (v : Voice) : (envelope v).k1ramp = v.k1ramp := by unfold envelope; split <;> rfl
@[simp] theorem envelope_k2 (v : Voice) : (envelope v).k2 = if v.ecount = 0#16 then v.k2 else coefficientStep v.k2 v.k2ramp v.tickcnt := by unfold envelope; split <;> rfl
@[simp] theorem envelope_k2ramp (v : Voice) : (envelope v).k2ramp = v.k2ramp := by unfold envelope; split <;> rfl
@[simp] theorem envelope_o1 (v : Voice) : (envelope v).o1 = v.o1 := by unfold envelope; split <;> rfl
@[simp] theorem envelope_o2 (v : Voice) : (envelope v).o2 = v.o2 := by unfold envelope; split <;> rfl
@[simp] theorem envelope_o3 (v : Voice) : (envelope v).o3 = v.o3 := by unfold envelope; split <;> rfl
@[simp] theorem envelope_o4 (v : Voice) : (envelope v).o4 = v.o4 := by unfold envelope; split <;> rfl
@[simp] theorem envelope_tickcnt (v : Voice) : (envelope v).tickcnt = v.tickcnt + 1#3 := by unfold envelope; split <;> rfl

/-! ### cross: every register but CTRL and ACCUM is unchanged -/

@[simp] theorem cross_freq (cfg : WveConfig) (v : Voice) (rev : Bool) (n : Int) : (cross cfg v rev n).freq = v.freq := by unfold cross; split <;> rfl
@[simp] theorem cross_loopStart (cfg : WveConfig) (v : Voice) (rev : Bool) (n : Int) : (cross cfg v rev n).loopStart = v.loopStart := by unfold cross; split <;> rfl
@[simp] theorem cross_loopEnd (cfg : WveConfig) (v : Voice) (rev : Bool) (n : Int) : (cross cfg v rev n).loopEnd = v.loopEnd := by unfold cross; split <;> rfl
@[simp] theorem cross_lvol (cfg : WveConfig) (v : Voice) (rev : Bool) (n : Int) : (cross cfg v rev n).lvol = v.lvol := by unfold cross; split <;> rfl
@[simp] theorem cross_lvramp (cfg : WveConfig) (v : Voice) (rev : Bool) (n : Int) : (cross cfg v rev n).lvramp = v.lvramp := by unfold cross; split <;> rfl
@[simp] theorem cross_rvol (cfg : WveConfig) (v : Voice) (rev : Bool) (n : Int) : (cross cfg v rev n).rvol = v.rvol := by unfold cross; split <;> rfl
@[simp] theorem cross_rvramp (cfg : WveConfig) (v : Voice) (rev : Bool) (n : Int) : (cross cfg v rev n).rvramp = v.rvramp := by unfold cross; split <;> rfl
@[simp] theorem cross_ecount (cfg : WveConfig) (v : Voice) (rev : Bool) (n : Int) : (cross cfg v rev n).ecount = v.ecount := by unfold cross; split <;> rfl
@[simp] theorem cross_k1 (cfg : WveConfig) (v : Voice) (rev : Bool) (n : Int) : (cross cfg v rev n).k1 = v.k1 := by unfold cross; split <;> rfl
@[simp] theorem cross_k1ramp (cfg : WveConfig) (v : Voice) (rev : Bool) (n : Int) : (cross cfg v rev n).k1ramp = v.k1ramp := by unfold cross; split <;> rfl
@[simp] theorem cross_k2 (cfg : WveConfig) (v : Voice) (rev : Bool) (n : Int) : (cross cfg v rev n).k2 = v.k2 := by unfold cross; split <;> rfl
@[simp] theorem cross_k2ramp (cfg : WveConfig) (v : Voice) (rev : Bool) (n : Int) : (cross cfg v rev n).k2ramp = v.k2ramp := by unfold cross; split <;> rfl
@[simp] theorem cross_o1 (cfg : WveConfig) (v : Voice) (rev : Bool) (n : Int) : (cross cfg v rev n).o1 = v.o1 := by unfold cross; split <;> rfl
@[simp] theorem cross_o2 (cfg : WveConfig) (v : Voice) (rev : Bool) (n : Int) : (cross cfg v rev n).o2 = v.o2 := by unfold cross; split <;> rfl
@[simp] theorem cross_o3 (cfg : WveConfig) (v : Voice) (rev : Bool) (n : Int) : (cross cfg v rev n).o3 = v.o3 := by unfold cross; split <;> rfl
@[simp] theorem cross_o4 (cfg : WveConfig) (v : Voice) (rev : Bool) (n : Int) : (cross cfg v rev n).o4 = v.o4 := by unfold cross; split <;> rfl
@[simp] theorem cross_tickcnt (cfg : WveConfig) (v : Voice) (rev : Bool) (n : Int) : (cross cfg v rev n).tickcnt = v.tickcnt := by unfold cross; split <;> rfl

/-! ### advance: every register but CTRL and ACCUM is unchanged -/

@[simp] theorem advance_freq (cfg : WveConfig) (v : Voice) : (advance cfg v).freq = v.freq := by unfold advance; split <;> simp
@[simp] theorem advance_loopStart (cfg : WveConfig) (v : Voice) : (advance cfg v).loopStart = v.loopStart := by unfold advance; split <;> simp
@[simp] theorem advance_loopEnd (cfg : WveConfig) (v : Voice) : (advance cfg v).loopEnd = v.loopEnd := by unfold advance; split <;> simp
@[simp] theorem advance_lvol (cfg : WveConfig) (v : Voice) : (advance cfg v).lvol = v.lvol := by unfold advance; split <;> simp
@[simp] theorem advance_lvramp (cfg : WveConfig) (v : Voice) : (advance cfg v).lvramp = v.lvramp := by unfold advance; split <;> simp
@[simp] theorem advance_rvol (cfg : WveConfig) (v : Voice) : (advance cfg v).rvol = v.rvol := by unfold advance; split <;> simp
@[simp] theorem advance_rvramp (cfg : WveConfig) (v : Voice) : (advance cfg v).rvramp = v.rvramp := by unfold advance; split <;> simp
@[simp] theorem advance_ecount (cfg : WveConfig) (v : Voice) : (advance cfg v).ecount = v.ecount := by unfold advance; split <;> simp
@[simp] theorem advance_k1 (cfg : WveConfig) (v : Voice) : (advance cfg v).k1 = v.k1 := by unfold advance; split <;> simp
@[simp] theorem advance_k1ramp (cfg : WveConfig) (v : Voice) : (advance cfg v).k1ramp = v.k1ramp := by unfold advance; split <;> simp
@[simp] theorem advance_k2 (cfg : WveConfig) (v : Voice) : (advance cfg v).k2 = v.k2 := by unfold advance; split <;> simp
@[simp] theorem advance_k2ramp (cfg : WveConfig) (v : Voice) : (advance cfg v).k2ramp = v.k2ramp := by unfold advance; split <;> simp
@[simp] theorem advance_o1 (cfg : WveConfig) (v : Voice) : (advance cfg v).o1 = v.o1 := by unfold advance; split <;> simp
@[simp] theorem advance_o2 (cfg : WveConfig) (v : Voice) : (advance cfg v).o2 = v.o2 := by unfold advance; split <;> simp
@[simp] theorem advance_o3 (cfg : WveConfig) (v : Voice) : (advance cfg v).o3 = v.o3 := by unfold advance; split <;> simp
@[simp] theorem advance_o4 (cfg : WveConfig) (v : Voice) : (advance cfg v).o4 = v.o4 := by unfold advance; split <;> simp
@[simp] theorem advance_tickcnt (cfg : WveConfig) (v : Voice) : (advance cfg v).tickcnt = v.tickcnt := by unfold advance; split <;> simp

/-! ### enqueue -/

@[simp] theorem enqueue_cfg (p : Adp) (c : BitVec 4) : (enqueue p c).cfg = p.cfg := rfl
@[simp] theorem enqueue_signal (p : Adp) (c : BitVec 4) : (enqueue p c).signal = p.signal := rfl
@[simp] theorem enqueue_step (p : Adp) (c : BitVec 4) : (enqueue p c).step = p.step := rfl
@[simp] theorem enqueue_fq (p : Adp) (c : BitVec 4) : (enqueue p c).fq = p.fq.set p.wr.toFin c := rfl
@[simp] theorem enqueue_rd (p : Adp) (c : BitVec 4) : (enqueue p c).rd = p.rd := rfl
@[simp] theorem enqueue_wr (p : Adp) (c : BitVec 4) : (enqueue p c).wr = p.wr + 1#3 := rfl
@[simp] theorem enqueue_ctl (p : Adp) (c : BitVec 4) : (enqueue p c).ctl = p.ctl := rfl
@[simp] theorem enqueue_amute (p : Adp) (c : BitVec 4) : (enqueue p c).amute = p.amute := rfl

/-! ### writeCtl -/

@[simp] theorem writeCtl_cfg (p : Adp) (d : Byte) : (writeCtl p d).cfg = p.cfg := by unfold writeCtl; split <;> rfl
@[simp] theorem writeCtl_signal (p : Adp) (d : Byte) : (writeCtl p d).signal = if ctlRst d = ctlRst p.ctl then p.signal else 0 := by unfold writeCtl; split <;> rfl
@[simp] theorem writeCtl_step (p : Adp) (d : Byte) : (writeCtl p d).step = if ctlRst d = ctlRst p.ctl then p.step else 0 := by unfold writeCtl; split <;> rfl
@[simp] theorem writeCtl_fq (p : Adp) (d : Byte) : (writeCtl p d).fq = p.fq := by unfold writeCtl; split <;> rfl
@[simp] theorem writeCtl_rd (p : Adp) (d : Byte) : (writeCtl p d).rd = p.rd := by unfold writeCtl; split <;> rfl
@[simp] theorem writeCtl_wr (p : Adp) (d : Byte) : (writeCtl p d).wr = p.wr := by unfold writeCtl; split <;> rfl
@[simp] theorem writeCtl_ctl (p : Adp) (d : Byte) : (writeCtl p d).ctl = d := by unfold writeCtl; split <;> rfl
@[simp] theorem writeCtl_amute (p : Adp) (d : Byte) : (writeCtl p d).amute = p.amute := by unfold writeCtl; split <;> rfl

/-! ### decodeCode -/

@[simp] theorem decodeCode_cfg (p : Adp) : (decodeCode p).cfg = p.cfg := rfl
@[simp] theorem decodeCode_signal (p : Adp) : (decodeCode p).signal = decodedSignal p.signal (adpDelta p.step p.fq[p.rd.toFin]) := rfl
@[simp] theorem decodeCode_step (p : Adp) : (decodeCode p).step = decodedStep p.step p.fq[p.rd.toFin] := rfl
@[simp] theorem decodeCode_fq (p : Adp) : (decodeCode p).fq = p.fq := rfl
@[simp] theorem decodeCode_rd (p : Adp) : (decodeCode p).rd = p.rd + 1#3 := rfl
@[simp] theorem decodeCode_wr (p : Adp) : (decodeCode p).wr = p.wr := rfl
@[simp] theorem decodeCode_ctl (p : Adp) : (decodeCode p).ctl = p.ctl := rfl
@[simp] theorem decodeCode_amute (p : Adp) : (decodeCode p).amute = p.amute := rfl

/-! ### resetAdp -/

@[simp] theorem resetAdp_cfg (p : Adp) : (resetAdp p).cfg = p.cfg := rfl
@[simp] theorem resetAdp_signal (p : Adp) : (resetAdp p).signal = 0 := rfl
@[simp] theorem resetAdp_step (p : Adp) : (resetAdp p).step = 0 := rfl
@[simp] theorem resetAdp_fq (p : Adp) : (resetAdp p).fq = Vector.replicate 8 0 := rfl
@[simp] theorem resetAdp_rd (p : Adp) : (resetAdp p).rd = 0 := rfl
@[simp] theorem resetAdp_wr (p : Adp) : (resetAdp p).wr = 0 := rfl
@[simp] theorem resetAdp_ctl (p : Adp) : (resetAdp p).ctl = 0 := rfl
@[simp] theorem resetAdp_amute (p : Adp) : (resetAdp p).amute = p.amute := rfl

/-! ### resetSwe -/

@[simp] theorem resetSwe_cfg (q : Swe) : (resetSwe q).cfg = q.cfg := rfl
@[simp] theorem resetSwe_v0 (q : Swe) : (resetSwe q).v0 = zeroSweVoice := rfl
@[simp] theorem resetSwe_v1 (q : Swe) : (resetSwe q).v1 = zeroSweVoice := rfl
@[simp] theorem resetSwe_lut (q : Swe) : (resetSwe q).lut = q.lut := rfl
@[simp] theorem resetSwe_smute (q : Swe) : (resetSwe q).smute = q.smute := rfl

/-! ### stepCounter -/

@[simp] theorem stepCounter_pl (v : SweVoice) : (stepCounter v).pl = v.pl := by unfold stepCounter; split <;> rfl
@[simp] theorem stepCounter_frq (v : SweVoice) : (stepCounter v).frq = v.frq := by unfold stepCounter; split <;> rfl
@[simp] theorem stepCounter_vol (v : SweVoice) : (stepCounter v).vol = v.vol := by unfold stepCounter; split <;> rfl
@[simp] theorem stepCounter_wf (v : SweVoice) : (stepCounter v).wf = v.wf := by unfold stepCounter; split <;> rfl
@[simp] theorem stepCounter_cnt (v : SweVoice) : (stepCounter v).cnt = if v.cnt = 0#12 then v.frq else v.cnt - 1#12 := by unfold stepCounter; split <;> rfl
@[simp] theorem stepCounter_addr (v : SweVoice) : (stepCounter v).addr = if v.cnt = 0#12 then v.addr + 1#5 else v.addr := by unfold stepCounter; split <;> rfl

/-! ### Store -/

@[simp] theorem putByte_size (st : Store) (a : Nat) (b : Byte) : (st.putByte a b).size = st.size := rfl
@[simp] theorem putByte_mem (st : Store) (a : Nat) (b : Byte) : (st.putByte a b).mem = Memory.write st.mem a b := rfl

/-! ### Store.grow -/

@[simp] theorem grow_size (st : Store) (i : Nat) : (st.grow i).size = max st.size (i + 1) := rfl
@[simp] theorem grow_mem (st : Store) (i : Nat) : (st.grow i).mem = st.mem := rfl

/-! ### The voice file and the regions -/

@[simp] theorem voice_setVoice_same (w : Wve) (i : Fin 32) (x : Voice) : (w.setVoice i x).voice i = x := by
  simp [Wve.voice, Wve.setVoice]

@[simp] theorem voice_setVoice_other (w : Wve) (i j : Fin 32) (x : Voice) (h : i ≠ j) :
    (w.setVoice i x).voice j = w.voice j := by
  have h' : i.val ≠ j.val := fun e => h (Fin.ext e)
  simp [Wve.voice, Wve.setVoice, h']

@[simp] theorem region_setRegion_same (w : Wve) (r : Fin 4) (st : Store) : (w.setRegion r st).region r = st := by
  simp [Wve.region, Wve.setRegion]

@[simp] theorem region_setRegion_other (w : Wve) (r q : Fin 4) (st : Store) (h : r ≠ q) :
    (w.setRegion r st).region q = w.region q := by
  have h' : r.val ≠ q.val := fun e => h (Fin.ext e)
  simp [Wve.region, Wve.setRegion, h']

@[simp] theorem voice_setRegion (w : Wve) (r : Fin 4) (st : Store) (i : Fin 32) :
    (w.setRegion r st).voice i = w.voice i := rfl

@[simp] theorem region_setVoice (w : Wve) (i : Fin 32) (x : Voice) (r : Fin 4) :
    (w.setVoice i x).region r = w.region r := rfl

@[simp] theorem voice_settleIrq (w : Wve) (i : Fin 32) : (settleIrq w).voice i = w.voice i := rfl

@[simp] theorem region_settleIrq (w : Wve) (r : Fin 4) : (settleIrq w).region r = w.region r := rfl

@[simp] theorem voice_resetWve (w : Wve) (i : Fin 32) : (resetWve w).voice i = resetVoice := by
  simp [Wve.voice]

@[simp] theorem region_resetWve (w : Wve) (r : Fin 4) : (resetWve w).region r = w.region r := rfl

@[simp] theorem voice_startedWve (cfg : WveConfig) (i : Fin 32) : (startedWve cfg).voice i = zeroVoice := by
  simp [Wve.voice]

@[simp] theorem region_startedWve (cfg : WveConfig) (r : Fin 4) : (startedWve cfg).region r = Store.empty := by
  simp [Wve.region]

end Sys2Proof.Machine
end

