-- ==== Sys2Proof/Laws/Memory.lean ====
section
/-! SUPPORT. Sample memory: a read after a write, the canonical form, and that every operation on a memory or a store
keeps it. -/

namespace Sys2Proof.Machine

/-! ### Memory -/

theorem wfFrom_mono {lo lo' : Nat} {m : Memory} (h : lo' ≤ lo) (hm : Memory.wfFrom lo m = true) :
    Memory.wfFrom lo' m = true := by
  cases m with
  | nil => rfl
  | cons c m =>
    simp only [Memory.wfFrom, Bool.and_eq_true, decide_eq_true_eq] at hm ⊢
    exact ⟨⟨le_trans h hm.1.1, hm.1.2⟩, hm.2⟩

theorem read_below_wfFrom {lo a : Nat} {m : Memory} (hm : Memory.wfFrom lo m = true) (h : a < lo) :
    Memory.read m a = Memory.blank := by
  induction m generalizing lo with
  | nil => rfl
  | cons c m ih =>
    simp only [Memory.wfFrom, Bool.and_eq_true, decide_eq_true_eq] at hm
    have hne : c.1 ≠ a := by omega
    simp only [Memory.read, hne, if_false]
    exact ih hm.2 (by omega)

theorem read_write_same_from {lo : Nat} {m : Memory} (hm : Memory.wfFrom lo m = true) (a : Nat) (b : Byte) :
    Memory.read (Memory.write m a b) a = b := by
  induction m generalizing lo with
  | nil =>
    by_cases hb : b = Memory.blank <;> simp [Memory.write, Memory.read, hb]
  | cons c m ih =>
    have hm' := hm
    simp only [Memory.wfFrom, Bool.and_eq_true, decide_eq_true_eq] at hm'
    by_cases h1 : a < c.1
    · by_cases hb : b = Memory.blank
      · have hne : c.1 ≠ a := by omega
        simp only [Memory.write, h1, hb, if_true, Memory.read, hne, if_false]
        exact read_below_wfFrom hm'.2 (by omega)
      · simp [Memory.write, h1, hb, Memory.read]
    · by_cases h2 : c.1 = a
      · subst h2
        by_cases hb : b = Memory.blank
        · simp only [Memory.write, lt_irrefl, hb, if_true, if_false]
          exact read_below_wfFrom hm'.2 (by omega)
        · simp [Memory.write, hb, Memory.read]
      · simp only [Memory.write, h1, h2, if_false, Memory.read]
        exact ih hm'.2

/-- A read after a write of the same byte gives the byte written. -/
theorem read_write_same {m : Memory} (hm : Memory.wf m = true) (a : Nat) (b : Byte) :
    Memory.read (Memory.write m a b) a = b := read_write_same_from hm a b

/-- A write leaves every other byte as it was. -/
theorem read_write_other (m : Memory) {a a' : Nat} (b : Byte) (h : a' ≠ a) :
    Memory.read (Memory.write m a b) a' = Memory.read m a' := by
  have h' : a ≠ a' := fun e => h e.symm
  induction m with
  | nil =>
    by_cases hb : b = Memory.blank <;> simp [Memory.write, Memory.read, hb, h']
  | cons c m ih =>
    by_cases h1 : a < c.1
    · by_cases hb : b = Memory.blank <;> simp [Memory.write, Memory.read, h1, hb, h']
    · by_cases h2 : c.1 = a
      · have hc : c.1 ≠ a' := by omega
        by_cases hb : b = Memory.blank <;> simp [Memory.write, Memory.read, h2, hb, h']
      · simp only [Memory.write, h1, h2, if_false, Memory.read, ih]

theorem wfFrom_write {lo : Nat} {m : Memory} (hm : Memory.wfFrom lo m = true) {a : Nat} (ha : lo ≤ a) (b : Byte) :
    Memory.wfFrom lo (Memory.write m a b) = true := by
  induction m generalizing lo with
  | nil =>
    by_cases hb : b = Memory.blank <;> simp [Memory.write, Memory.wfFrom, hb, ha]
  | cons c m ih =>
    have hm' := hm
    simp only [Memory.wfFrom, Bool.and_eq_true, decide_eq_true_eq] at hm'
    by_cases h1 : a < c.1
    · by_cases hb : b = Memory.blank
      · simp only [Memory.write, h1, hb, if_true]
        exact hm
      · simp only [Memory.write, h1, hb, if_true, if_false, Memory.wfFrom, Bool.and_eq_true, decide_eq_true_eq]
        exact ⟨⟨ha, by simpa using hb⟩, ⟨by omega, hm'.1.2⟩, hm'.2⟩
    · by_cases h2 : c.1 = a
      · subst h2
        by_cases hb : b = Memory.blank
        · simp only [Memory.write, lt_irrefl, hb, if_true, if_false]
          exact wfFrom_mono (by omega) hm'.2
        · simp only [Memory.write, lt_irrefl, hb, if_true, if_false, Memory.wfFrom, Bool.and_eq_true, decide_eq_true_eq]
          exact ⟨⟨ha, by simpa using hb⟩, hm'.2⟩
      · simp only [Memory.write, h1, h2, if_false, Memory.wfFrom, Bool.and_eq_true, decide_eq_true_eq]
        exact ⟨hm'.1, ih hm'.2 (by omega)⟩

/-- A write keeps the canonical form. -/
theorem wf_write {m : Memory} (hm : Memory.wf m = true) (a : Nat) (b : Byte) :
    Memory.wf (Memory.write m a b) = true := wfFrom_write hm (Nat.zero_le a) b

theorem below_mono {n n' : Nat} {m : Memory} (h : n ≤ n') (hm : Memory.below n m = true) :
    Memory.below n' m = true := by
  simp only [Memory.below, List.all_eq_true, decide_eq_true_eq] at hm ⊢
  intro c hc
  exact lt_of_lt_of_le (hm c hc) h

theorem mem_write {m : Memory} {a : Nat} {b : Byte} {c : Host.Cell} (h : c ∈ Memory.write m a b) :
    c = (a, b) ∨ c ∈ m := by
  induction m with
  | nil =>
    by_cases hb : b = Memory.blank
    · simp [Memory.write, hb] at h
    · simp [Memory.write, hb] at h
      exact .inl h
  | cons d m ih =>
    simp only [Memory.write] at h
    split at h
    · split at h
      · exact .inr h
      · rcases List.mem_cons.1 h with h | h
        · exact .inl h
        · exact .inr h
    · split at h
      · split at h
        · exact .inr (List.mem_cons_of_mem _ h)
        · rcases List.mem_cons.1 h with h | h
          · exact .inl h
          · exact .inr (List.mem_cons_of_mem _ h)
      · rcases List.mem_cons.1 h with h | h
        · exact .inr (h ▸ List.mem_cons_self)
        · exact (ih h).imp id (List.mem_cons_of_mem _)

theorem below_write {n : Nat} {m : Memory} (hm : Memory.below n m = true) {a : Nat} (ha : a < n) (b : Byte) :
    Memory.below n (Memory.write m a b) = true := by
  simp only [Memory.below, List.all_eq_true, decide_eq_true_eq] at hm ⊢
  intro c hc
  rcases mem_write hc with h | h
  · exact h ▸ ha
  · exact hm c h

/-! ### Stores -/

theorem storeWf_iff {unit : Nat} {st : Store} :
    Store.wf unit st = true ↔ Memory.wf st.mem = true ∧ Memory.below (unit * st.size) st.mem = true := by
  simp [Store.wf]

@[simp] theorem wf_empty (unit : Nat) : Store.wf unit Store.empty = true := rfl

theorem wf_grow {unit : Nat} {st : Store} (h : Store.wf unit st = true) (i : Nat) :
    Store.wf unit (st.grow i) = true := by
  rw [storeWf_iff] at h ⊢
  exact ⟨h.1, below_mono (Nat.mul_le_mul_left _ (le_max_left _ _)) h.2⟩

theorem wf_putByte {unit : Nat} {st : Store} (h : Store.wf unit st = true) {a : Nat} (ha : a < unit * st.size) (b : Byte) :
    Store.wf unit (st.putByte a b) = true := by
  rw [storeWf_iff] at h ⊢
  exact ⟨wf_write h.1 a b, below_write h.2 ha b⟩

theorem lt_size_grow (st : Store) (i : Nat) : i < (st.grow i).size := by
  simp only [grow_size]
  omega

theorem wf_loadVerbatimByte {st : Store} (h : Store.wf 2 st = true) (a : Nat) (b : Byte) :
    Store.wf 2 (st.loadVerbatimByte a b) = true := by
  refine wf_putByte (wf_grow h _) ?_ b
  have := lt_size_grow st (a / 2)
  omega

theorem wf_loadExpandedByte {st : Store} (h : Store.wf 2 st = true) (i : Nat) (b : Byte) :
    Store.wf 2 (st.loadExpandedByte i b) = true := by
  have hi := lt_size_grow st i
  refine wf_putByte (wf_putByte (wf_grow h _) ?_ _) ?_ b
  · omega
  · simp only [putByte_size]
    omega

/-- A LOAD keeps a region canonical. -/
theorem wf_loadRegion {st : Store} (h : Store.wf 2 st = true) (x : Bool) (off : Nat) (bytes : List Byte) :
    Store.wf 2 (st.loadRegion x off bytes) = true := by
  induction bytes generalizing st off with
  | nil => exact h
  | cons b rest ih =>
    cases x with
    | false => exact ih (wf_loadVerbatimByte h off b) _
    | true => exact ih (wf_loadExpandedByte h off b) _

/-- A LOAD keeps the LUT canonical. -/
theorem wf_loadLut {st : Store} (h : Store.wf 1 st = true) (off : Nat) (bytes : List Byte) :
    Store.wf 1 (st.loadLut off bytes) = true := by
  induction bytes generalizing st off with
  | nil => exact h
  | cons b rest ih =>
    refine ih (wf_putByte (wf_grow h off) ?_ b) _
    have := lt_size_grow st off
    omega

@[simp] theorem size_loadVerbatimByte (st : Store) (a : Nat) (b : Byte) :
    (st.loadVerbatimByte a b).size = max st.size (a / 2 + 1) := rfl

@[simp] theorem size_loadExpandedByte (st : Store) (i : Nat) (b : Byte) :
    (st.loadExpandedByte i b).size = max st.size (i + 1) := rfl

/-- A LOAD never shrinks a region (R48). -/
theorem size_le_loadRegion (st : Store) (x : Bool) (off : Nat) (bytes : List Byte) :
    st.size ≤ (st.loadRegion x off bytes).size := by
  induction bytes generalizing st off with
  | nil => exact le_rfl
  | cons b rest ih =>
    cases x with
    | false => exact le_trans (le_max_left _ _) (ih (st.loadVerbatimByte off b) _)
    | true => exact le_trans (le_max_left _ _) (ih (st.loadExpandedByte off b) _)

/-- A LOAD never shrinks the LUT. -/
theorem size_le_loadLut (st : Store) (off : Nat) (bytes : List Byte) : st.size ≤ (st.loadLut off bytes).size := by
  induction bytes generalizing st off with
  | nil => exact le_rfl
  | cons b rest ih => exact le_trans (le_max_left _ _) (ih ((st.grow off).putByte off b) _)

/-- The memory before any START has nothing to be out of form: no instance holds one (R20). -/
theorem reset_has_no_memory : State.reset.wve = none ∧ State.reset.swe = none := ⟨rfl, rfl⟩

end Sys2Proof.Machine
end

