-- ==== Sys2Proof/Laws/Ops.lean ====
section
/-! SUPPORT. What each shared operation can do, said once: the outcome of a command, START, commits, and the arithmetic
helpers. -/

namespace Sys2Proof.Machine

open Sys2Proof

/-! ### Outcomes of a command -/

/-- A WVE command has its effect when the instance is present and is refused when it is absent (R134). -/
theorem onWve_next_iff {s t : State} {f : Wve → Wve × List Event} :
    onWve s f = .next t ↔
      (∃ w, s.wve = some w ∧ t = State.emit { s with wve := some (f w).1 } (f w).2) ∨
        s.wve = none ∧ t = s.refuse (.absentInstance .wve) := by
  unfold onWve
  cases h : s.wve with
  | none => simp [eq_comm]
  | some w => simp [eq_comm]

/-- An ADP command has its effect when the instance is present and is refused when it is absent (R134). -/
theorem onAdp_next_iff {s t : State} {f : Adp → Adp × List Event} :
    onAdp s f = .next t ↔
      (∃ p, s.adp = some p ∧ t = State.emit { s with adp := some (f p).1 } (f p).2) ∨
        s.adp = none ∧ t = s.refuse (.absentInstance .adp) := by
  unfold onAdp
  cases h : s.adp with
  | none => simp [eq_comm]
  | some p => simp [eq_comm]

/-- A SWE command has its effect when the instance is present and is refused when it is absent (R134). -/
theorem onSwe_next_iff {s t : State} {f : Swe → Swe × List Event} :
    onSwe s f = .next t ↔
      (∃ q, s.swe = some q ∧ t = State.emit { s with swe := some (f q).1 } (f q).2) ∨
        s.swe = none ∧ t = s.refuse (.absentInstance .swe) := by
  unfold onSwe
  cases h : s.swe with
  | none => simp [eq_comm]
  | some q => simp [eq_comm]

theorem onWve_present {s : State} {w : Wve} (h : s.wve = some w) (f : Wve → Wve × List Event) :
    onWve s f = .next (State.emit { s with wve := some (f w).1 } (f w).2) := by
  unfold onWve; rw [h]

theorem onWve_absent {s : State} (h : s.wve = none) (f : Wve → Wve × List Event) :
    onWve s f = .next (s.refuse (.absentInstance .wve)) := by
  unfold onWve; rw [h]

theorem onAdp_present {s : State} {p : Adp} (h : s.adp = some p) (f : Adp → Adp × List Event) :
    onAdp s f = .next (State.emit { s with adp := some (f p).1 } (f p).2) := by
  unfold onAdp; rw [h]

theorem onAdp_absent {s : State} (h : s.adp = none) (f : Adp → Adp × List Event) :
    onAdp s f = .next (s.refuse (.absentInstance .adp)) := by
  unfold onAdp; rw [h]

theorem onSwe_present {s : State} {q : Swe} (h : s.swe = some q) (f : Swe → Swe × List Event) :
    onSwe s f = .next (State.emit { s with swe := some (f q).1 } (f q).2) := by
  unfold onSwe; rw [h]

theorem onSwe_absent {s : State} (h : s.swe = none) (f : Swe → Swe × List Event) :
    onSwe s f = .next (s.refuse (.absentInstance .swe)) := by
  unfold onSwe; rw [h]

/-- START answers a next state in four ways: refused as present, refused as illegal, the made state, or the diagnostic of a
failed draw (R131, R132, R370). -/
theorem startWith_next_iff {e : Engine} {present legal : Bool} {made s t : State} :
    startWith e present legal made s = .next t ↔
      present = true ∧ t = s.refuse (.startPresent e) ∨
      present = false ∧ legal = false ∧ t = s.refuse (.illegalConfig e) ∨
      present = false ∧ legal = true ∧ s.oob.draw = .success ∧ t = made.emit [] ∨
      present = false ∧ legal = true ∧ s.oob.draw = .allocationFailure ∧ t = s.emit [.diag e .allocationFailure] := by
  unfold startWith
  cases present <;> cases legal <;> cases s.oob.draw <;> simp [eq_comm]

/-- What a commit can do (R161): the present instance takes the committed value and the latch is cleared; an absent one
refuses it. -/
theorem commit_next_iff {d : Byte} {apply : Word → Wve → Wve} {s t : State} :
    commit d apply s = .next t ↔
      (∃ w, s.wve = some w ∧
        t = State.emit { s with wve := some { apply (placeLane 3 w.wlatch d) w with wlatch := 0#32 } } []) ∨
        s.wve = none ∧ t = s.refuse (.absentInstance .wve) :=
  onWve_next_iff

/-- What a voice commit can do (R161): only the voice PAGE selects changes, and the latch is cleared. -/
theorem commitVoice_next_iff {d : Byte} {put : WveConfig → Word → Voice → Voice} {s t : State} :
    commitVoice d put s = .next t ↔
      (∃ w, s.wve = some w ∧
        t = State.emit
          { s with wve := some { w.setVoice (pageVoice w.page)
              (put w.cfg (placeLane 3 w.wlatch d) (w.voice (pageVoice w.page))) with wlatch := 0#32 } } []) ∨
        s.wve = none ∧ t = s.refuse (.absentInstance .wve) :=
  commit_next_iff

/-! ### Lanes -/

/-- Placing lane 0 replaces bits 31:24 (R108). -/
theorem placeLane_zero (latch : Word) (d : Byte) : placeLane 0 latch d = d ++ latch.extractLsb' 0 24 := by
  apply BitVec.eq_of_getLsbD_eq
  intro i hi
  rw [show (d ++ latch.extractLsb' 0 24 : Word).getLsbD i = _ from BitVec.getLsbD_append]
  interval_cases i <;> simp [placeLane]

/-- Placing lane 1 replaces bits 23:16 (R108). -/
theorem placeLane_one (latch : Word) (d : Byte) :
    placeLane 1 latch d = latch.extractLsb' 24 8 ++ (d ++ latch.extractLsb' 0 16 : BitVec 24) := by
  apply BitVec.eq_of_getLsbD_eq
  intro i hi
  rw [show (latch.extractLsb' 24 8 ++ (d ++ latch.extractLsb' 0 16 : BitVec 24) : Word).getLsbD i = _ from
    BitVec.getLsbD_append,
    show (d ++ latch.extractLsb' 0 16 : BitVec 24).getLsbD i = _ from BitVec.getLsbD_append]
  interval_cases i <;> simp [placeLane]

/-- Placing lane 2 replaces bits 15:8 (R108). -/
theorem placeLane_two (latch : Word) (d : Byte) :
    placeLane 2 latch d = latch.extractLsb' 16 16 ++ (d ++ latch.extractLsb' 0 8 : BitVec 16) := by
  apply BitVec.eq_of_getLsbD_eq
  intro i hi
  rw [show (latch.extractLsb' 16 16 ++ (d ++ latch.extractLsb' 0 8 : BitVec 16) : Word).getLsbD i = _ from
    BitVec.getLsbD_append,
    show (d ++ latch.extractLsb' 0 8 : BitVec 16).getLsbD i = _ from BitVec.getLsbD_append]
  interval_cases i <;> simp [placeLane]

/-- Placing lane 3 replaces bits 7:0 (R108). -/
theorem placeLane_three (latch : Word) (d : Byte) : placeLane 3 latch d = latch.extractLsb' 8 24 ++ d := by
  apply BitVec.eq_of_getLsbD_eq
  intro i hi
  rw [show (latch.extractLsb' 8 24 ++ d : Word).getLsbD i = _ from BitVec.getLsbD_append]
  interval_cases i <;> simp [placeLane]

/-! ### Arithmetic -/

theorem clamp_bounds {lo hi : Int} (h : lo ≤ hi) (v : Int) : lo ≤ clamp v lo hi ∧ clamp v lo hi ≤ hi := by
  unfold clamp
  split
  · exact ⟨le_rfl, h⟩
  · split <;> omega

theorem clamp_of_mem {v lo hi : Int} (h1 : lo ≤ v) (h2 : v ≤ hi) : clamp v lo hi = v := by
  unfold clamp
  rw [if_neg (by omega), if_neg (by omega)]

theorem wrap32_bounds (v : Int) : -2147483648 ≤ wrap32 v ∧ wrap32 v ≤ 2147483647 := by
  have h1 := BitVec.le_toInt (BitVec.ofInt 32 v)
  have h2 := BitVec.toInt_lt (x := BitVec.ofInt 32 v)
  unfold wrap32
  constructor <;> omega

theorem wrap32_eq_bmod (v : Int) : wrap32 v = v.bmod 4294967296 := by
  simp [wrap32]

theorem wrap32_of_mem {v : Int} (h1 : -2147483648 ≤ v) (h2 : v ≤ 2147483647) : wrap32 v = v := by
  rw [wrap32_eq_bmod]
  exact Int.bmod_eq_of_le (by omega) (by omega)

theorem wrap32_add_wrap32 (a b : Int) : wrap32 (wrap32 a + b) = wrap32 (a + b) := by
  simp [wrap32_eq_bmod]

/-- A ramp step as an integer (R240): the exact sum clamped to [0, 0xFFFF]. -/
theorem rampStep_toNat (value ramp : Half) :
    ((rampStep value ramp).toNat : Int) = clamp ((value.toNat : Int) + ramp.toInt) 0 0xFFFF := by
  have h := clamp_bounds (lo := 0) (hi := 0xFFFF) (by omega) ((value.toNat : Int) + ramp.toInt)
  unfold rampStep toHalf
  rw [BitVec.toNat_ofInt]
  omega

/-- The decoded step stays in [0, 48] (R281). -/
theorem decodedStep_le (step : Nat) (c : BitVec 4) : decodedStep step c ≤ 48 := by
  have h := clamp_bounds (lo := 0) (hi := 48) (by omega) ((step : Int) + adpAdjust c)
  unfold decodedStep
  omega

/-- The decoded signal stays in [-2048, 2047] (R285). -/
theorem decodedSignal_bounds (signal delta : Int) :
    -2048 ≤ decodedSignal signal delta ∧ decodedSignal signal delta ≤ 2047 :=
  clamp_bounds (by omega) _

end Sys2Proof.Machine
end

