-- ==== Sys2Proof/Laws/Tick.lean ====
section
/-! SUPPORT. What the walk of a WVE TICK can do: it leaves everything but the walked voices and the output, and each
walked voice steps from the registers it had before the TICK (R210, R212). -/

namespace Sys2Proof.Machine

open Sys2Proof

/-! ### The walked voices -/

theorem mem_allVoices (i : Fin 32) : i ∈ allVoices := by
  revert i
  decide +kernel

theorem nodup_allVoices : allVoices.Nodup := by decide +kernel

theorem mem_walkedVoices {actv : Nat} {i : Fin 32} : i ∈ walkedVoices actv ↔ i.val ≤ actv := by
  simp [walkedVoices, mem_allVoices]

theorem nodup_walkedVoices (actv : Nat) : (walkedVoices actv).Nodup := nodup_allVoices.filter _

/-! ### A walked voice reads only itself, the parameters, the mute mask and the regions -/

theorem running_congr {w w' : Wve} {i : Fin 32} (hm : w'.wmute = w.wmute) (hv : w'.voice i = w.voice i) :
    running w' i = running w i := by
  simp [running, hm, hv]

theorem voicePoles_congr {w w' : Wve} {i : Fin 32} (hc : w'.cfg = w.cfg) (hr : w'.regions = w.regions)
    (hv : w'.voice i = w.voice i) : voicePoles w' i = voicePoles w i := by
  have hs : ∀ r j c, regionSample w' r j c = regionSample w r j c := by
    intro r j c
    simp [regionSample, Wve.region, hr, hc]
  simp [voicePoles, voiceSample, hs, hc, hv]

theorem tickVoice_congr {w w' : Wve} {i : Fin 32} (hc : w'.cfg = w.cfg) (hm : w'.wmute = w.wmute)
    (hr : w'.regions = w.regions) (hv : w'.voice i = w.voice i) : tickVoice w' i = tickVoice w i := by
  simp [tickVoice, running_congr hm hv, voicePoles_congr hc hr hv, hc, hv]

theorem tickOut_congr {w w' : Wve} {i : Fin 32} (out : List Int) (hc : w'.cfg = w.cfg) (hm : w'.wmute = w.wmute)
    (hr : w'.regions = w.regions) (hv : w'.voice i = w.voice i) : tickOut w' i out = tickOut w i out := by
  simp [tickOut, running_congr hm hv, voicePoles_congr hc hr hv, hc, hv]

/-! ### The walk -/

theorem foldl_walkVoice_frame (order : List (Fin 32)) (a : Wve × List Int) :
    (order.foldl walkVoice a).1.cfg = a.1.cfg ∧ (order.foldl walkVoice a).1.wmute = a.1.wmute ∧
    (order.foldl walkVoice a).1.regions = a.1.regions ∧ (order.foldl walkVoice a).1.page = a.1.page ∧
    (order.foldl walkVoice a).1.wlatch = a.1.wlatch ∧ (order.foldl walkVoice a).1.rlatch = a.1.rlatch ∧
    (order.foldl walkVoice a).1.irqOut = a.1.irqOut := by
  induction order generalizing a with
  | nil => exact ⟨rfl, rfl, rfl, rfl, rfl, rfl, rfl⟩
  | cons i order ih => exact ih (walkVoice a i)

/-- A voice that is not walked keeps its registers. -/
theorem voice_foldl_walkVoice_other (order : List (Fin 32)) (a : Wve × List Int) {j : Fin 32} (hj : j ∉ order) :
    (order.foldl walkVoice a).1.voice j = a.1.voice j := by
  induction order generalizing a with
  | nil => rfl
  | cons i order ih =>
    rw [List.mem_cons, not_or] at hj
    rw [List.foldl_cons, ih _ hj.2]
    exact voice_setVoice_other _ _ _ _ (fun e => hj.1 e.symm)

/-- A walked voice takes the step it takes alone. -/
theorem voice_foldl_walkVoice {order : List (Fin 32)} (hd : order.Nodup) (a : Wve × List Int) {j : Fin 32}
    (hj : j ∈ order) : (order.foldl walkVoice a).1.voice j = tickVoice a.1 j := by
  induction order generalizing a with
  | nil => simp at hj
  | cons i order ih =>
    rw [List.nodup_cons] at hd
    rw [List.foldl_cons]
    by_cases h : j = i
    · subst h
      rw [voice_foldl_walkVoice_other _ _ hd.1]
      exact voice_setVoice_same _ _ _
    · rw [ih hd.2 _ ((List.mem_cons.1 hj).resolve_left h)]
      exact tickVoice_congr rfl rfl rfl (voice_setVoice_other _ _ _ _ (fun e => h e.symm))

/-- The output of a walk is what each walked voice adds from the state before the walk. -/
theorem out_foldl_walkVoice {order : List (Fin 32)} (hd : order.Nodup) (a : Wve × List Int) :
    (order.foldl walkVoice a).2 = order.foldl (fun out i => tickOut a.1 i out) a.2 := by
  induction order generalizing a with
  | nil => rfl
  | cons i order ih =>
    rw [List.nodup_cons] at hd
    rw [List.foldl_cons, List.foldl_cons, ih hd.2]
    change order.foldl (fun out j => tickOut (a.1.setVoice i (tickVoice a.1 i)) j out) (tickOut a.1 i a.2) = _
    apply List.foldl_ext
    intro out j hj
    have hne : i ≠ j := fun e => hd.1 (e ▸ hj)
    exact tickOut_congr out rfl rfl rfl (voice_setVoice_other _ _ _ _ hne)

@[simp] theorem length_addOut (out : List Int) (c : Nat) (x : Int) : (addOut out c x).length = out.length := by
  simp [addOut]

@[simp] theorem length_tickOut (w : Wve) (i : Fin 32) (out : List Int) : (tickOut w i out).length = out.length := by
  unfold tickOut
  split <;> simp

theorem length_foldl_walkVoice (order : List (Fin 32)) (a : Wve × List Int) :
    (order.foldl walkVoice a).2.length = a.2.length := by
  induction order generalizing a with
  | nil => rfl
  | cons i order ih =>
    rw [List.foldl_cons, ih]
    exact length_tickOut _ _ _

/-- Everything a walk can do, said once. -/
theorem walkVoices_spec {order : List (Fin 32)} (hd : order.Nodup) (w : Wve) :
    (walkVoices order w).1 = { w with voices := (walkVoices order w).1.voices } ∧
    (∀ i ∈ order, (walkVoices order w).1.voice i = tickVoice w i) ∧
    (∀ i, i ∉ order → (walkVoices order w).1.voice i = w.voice i) ∧
    (walkVoices order w).2 = order.foldl (fun out i => tickOut w i out) (List.replicate w.cfg.chans 0) ∧
    (walkVoices order w).2.length = w.cfg.chans := by
  obtain ⟨hc, hm, hr, hp, hw, hl, hi⟩ := foldl_walkVoice_frame order (w, List.replicate w.cfg.chans 0)
  refine ⟨?_, fun i hi' => voice_foldl_walkVoice hd _ hi', fun i hi' => voice_foldl_walkVoice_other _ _ hi',
    out_foldl_walkVoice hd _, ?_⟩
  · unfold walkVoices
    generalize order.foldl walkVoice (w, List.replicate w.cfg.chans 0) = a at hc hm hr hp hw hl hi
    obtain ⟨⟨c, v, p, wl, rl, rg, wm, io⟩, o⟩ := a
    simp only at hc hm hr hp hw hl hi
    subst hc hm hr hp hw hl hi
    rfl
  · unfold walkVoices
    rw [length_foldl_walkVoice]
    simp

/-- What WVE.TICK does to a present instance, said once. -/
theorem wveTick_present {s : State} {w : Wve} (h : s.wve = some w) :
    execWveTick s = .next (State.emit
      { s with wve := some (settleIrq (walkVoices (walkedVoices w.cfg.actv) w).1) }
      [.out .wve (walkVoices (walkedVoices w.cfg.actv) w).2]) := onWve_present h _

/-- What WVE.TICK can do, said once: the walk of a present instance, or the refusal of an absent one. -/
theorem wveTick_next_iff {s t : State} :
    execWveTick s = .next t ↔
      (∃ w, s.wve = some w ∧
        t = State.emit { s with wve := some (settleIrq (walkVoices (walkedVoices w.cfg.actv) w).1) }
          [.out .wve (walkVoices (walkedVoices w.cfg.actv) w).2]) ∨
        s.wve = none ∧ t = s.refuse (.absentInstance .wve) := onWve_next_iff

end Sys2Proof.Machine
end

