-- ==== Sys2Proof/Laws/Advance.lean ====
section
/-! SUPPORT. The advance of a voice in the terms of Sys2Proof/Safety.lean: masks, loop boundaries, positions and
crossings as natural numbers, and what one TICK makes of a running voice (R35 to R37, R210, R231 to R238). -/

namespace Sys2Proof.Machine

open Sys2Proof

/-! ### Masks and boundaries -/

theorem accBits_of_legal {c : WveConfig} (h : wveConfigLegal c = true) : c.accBits = 31 ∨ c.accBits = 32 := by
  simp only [wveConfigLegal, Bool.and_eq_true, Bool.or_eq_true, beq_iff_eq] at h
  exact h.1.1.1.2

theorem chans_of_legal {c : WveConfig} (h : wveConfigLegal c = true) : 1 ≤ c.chans ∧ c.chans ≤ 8 := by
  simp only [wveConfigLegal, Bool.and_eq_true, decide_eq_true_eq] at h
  exact h.1.1.2

theorem toNat_and_accMask {c : WveConfig} (h : wveConfigLegal c = true) (v : Word) :
    (v &&& accMask c).toNat = v.toNat % 2 ^ c.accBits := by
  have := v.isLt
  rcases accBits_of_legal h with hb | hb <;> simp [accMask, hb]
  · exact Nat.and_two_pow_sub_one_eq_mod v.toNat 31
  · exact Nat.and_two_pow_sub_one_eq_mod v.toNat 32 |>.trans (by omega)

theorem toNat_and_addrMask {c : WveConfig} (h : wveConfigLegal c = true) (v : Word) :
    (v &&& addrMask c).toNat = v.toNat % 2 ^ (c.accBits - 11) := by
  rcases accBits_of_legal h with hb | hb <;> simp [accMask, addrMask, hb]
  · exact Nat.and_two_pow_sub_one_eq_mod v.toNat 20
  · exact Nat.and_two_pow_sub_one_eq_mod v.toNat 21

theorem startBound_eq {c : WveConfig} (h : wveConfigLegal c = true) (v : Voice) : startBound c v = (loopLow c v : Int) := by
  simp [startBound, toNat_and_addrMask h, loopLow]

theorem endBound_eq {c : WveConfig} (h : wveConfigLegal c = true) (v : Voice) : endBound c v = (loopHigh c v : Int) := by
  simp [endBound, toNat_and_addrMask h, loopHigh]

theorem loop_lt {c : WveConfig} (h : wveConfigLegal c = true) (v : Voice) :
    loopLow c v < 2 ^ c.accBits ∧ loopHigh c v < 2 ^ c.accBits := by
  unfold loopLow loopHigh
  rcases accBits_of_legal h with hb | hb <;> simp only [hb] <;> omega

/-! ### Positions -/

theorem position_lt (c : WveConfig) (v : Voice) :
    forwardPosition c v < 2 ^ c.accBits ∧ reversePosition c v < 2 ^ c.accBits :=
  ⟨Nat.mod_lt _ (Nat.two_pow_pos _), Nat.mod_lt _ (Nat.two_pow_pos _)⟩

theorem nextPosition_forward {c : WveConfig} (h : wveConfigLegal c = true) {v : Voice}
    (hd : v.ctrl.getLsbD 1 = false) : nextPosition c v = (forwardPosition c v : Int) := by
  have : ctrlDir v.ctrl = false := hd
  simp [nextPosition, this, increment, toNat_and_accMask h, forwardPosition, accModulus]

theorem nextPosition_reverse {c : WveConfig} (h : wveConfigLegal c = true) {v : Voice}
    (hd : v.ctrl.getLsbD 1 = true) : nextPosition c v = (reversePosition c v : Int) := by
  have : ctrlDir v.ctrl = true := hd
  simp only [nextPosition, this, increment, toNat_and_accMask h, reversePosition, accModulus, if_true]
  rcases accBits_of_legal h with hb | hb <;> simp only [hb] <;> omega

theorem crosses_iff {c : WveConfig} (h : wveConfigLegal c = true) (v : Voice) :
    crosses c v = true ↔ CrossesForward c v ∨ CrossesReverse c v := by
  unfold crosses CrossesForward CrossesReverse
  cases hd : v.ctrl.getLsbD 1
  · have : ctrlDir v.ctrl = false := hd
    simp [this, nextPosition_forward h hd, endBound_eq h]
  · have : ctrlDir v.ctrl = true := hd
    simp [this, nextPosition_reverse h hd, startBound_eq h]

theorem crossPolicy_eq {c : WveConfig} (h : wveConfigLegal c = true) (v : Voice) :
    crossPolicy c v = if loopHigh c v ≤ loopLow c v then .stop else loopPolicyOf (v.ctrl.extractLsb' 2 2) := by
  unfold crossPolicy
  rw [endBound_eq h, startBound_eq h]
  by_cases hh : loopHigh c v ≤ loopLow c v
  · rw [if_pos hh, if_pos (by omega)]
  · rw [if_neg hh, if_neg (by omega)]
    rfl

theorem toNat_toAccum {c : WveConfig} (h : wveConfigLegal c = true) {n : Nat} (hn : n < 2 ^ c.accBits) :
    (toAccum (n : Int)).toNat = n := by
  unfold toAccum
  rcases accBits_of_legal h with hb | hb <;> simp only [hb] at hn <;> simp <;> omega

theorem toNat_toAccum_mod {c : WveConfig} (h : wveConfigLegal c = true) (z : Int) :
    ((toAccum (z % 2 ^ c.accBits)).toNat : Int) = z % 2 ^ c.accBits := by
  unfold toAccum
  rcases accBits_of_legal h with hb | hb <;> simp only [hb] <;> simp <;> omega

/-! ### The interrupt part and the step of a running voice -/

theorem raiseIrq_eq (c : BitVec 15) : raiseIrq c = c ||| (if c.getLsbD 13 then 0x4000#15 else 0#15) := by
  unfold raiseIrq ctrlIrqe setIrq
  split <;> simp

/-- The advance reads no history. -/
theorem advance_setHistories (c : WveConfig) (v : Voice) (p : Poles) :
    advance c (setHistories v p) = setHistories (advance c v) p := by
  have h1 : crosses c (setHistories v p) = crosses c v := rfl
  have h2 : nextPosition c (setHistories v p) = nextPosition c v := rfl
  have h3 : crossPolicy c (setHistories v p) = crossPolicy c v := rfl
  unfold advance
  rw [h1, h2]
  split
  · unfold cross
    rw [h3]
    split <;> rfl
  · rfl

/-- A TICK of a running voice: the filter, the advance, the envelope (R210). -/
theorem afterTick_of_runs {s : State} {w : Wve} {i : Fin 32} (h : s.Runs w i) {P : Voice → Prop}
    (hP : P (envelope (setHistories (advance w.cfg (w.voice i)) (voicePoles w i)))) : s.AfterTick i P := by
  obtain ⟨hw, hl, hi, hs, hm⟩ := h
  refine ⟨_, _, wveTick_present hw, rfl, ?_⟩
  have := (walkVoices_spec (nodup_walkedVoices w.cfg.actv) w).2.1 i (mem_walkedVoices.2 hi)
  rw [voice_settleIrq, this, tickVoice, if_pos, advance_setHistories]
  · exact hP
  · have hs' : ctrlStop (w.voice i).ctrl = false := hs
    have hm' : voiceMuted w.wmute i = false := hm
    simp [running, hs', hm']

/-- A TICK of a walked voice that is stopped or muted: the envelope only (R213). -/
theorem afterTick_of_frozen {s : State} {w : Wve} {i : Fin 32} (hw : s.wve = some w) (hi : i.val ≤ w.cfg.actv)
    (h : (w.voice i).ctrl.getLsbD 0 = true ∨ w.wmute.getLsbD i.val = true) {P : Voice → Prop}
    (hP : P (envelope (w.voice i))) : s.AfterTick i P := by
  refine ⟨_, _, wveTick_present hw, rfl, ?_⟩
  have := (walkVoices_spec (nodup_walkedVoices w.cfg.actv) w).2.1 i (mem_walkedVoices.2 hi)
  rw [voice_settleIrq, this, tickVoice, if_neg]
  · exact hP
  · rcases h with h | h
    · have h : ctrlStop (w.voice i).ctrl = true := h
      simp [running, h]
    · have h : voiceMuted w.wmute i = true := h
      simp [running, h]

/-- A TICK does not touch a voice above ACTV (R212). -/
theorem afterTick_of_unwalked {s : State} {w : Wve} {i : Fin 32} (hw : s.wve = some w) (hi : w.cfg.actv < i.val)
    {P : Voice → Prop} (hP : P (w.voice i)) : s.AfterTick i P := by
  refine ⟨_, _, wveTick_present hw, rfl, ?_⟩
  have := (walkVoices_spec (nodup_walkedVoices w.cfg.actv) w).2.2.1 i
    (fun hx => absurd (mem_walkedVoices.1 hx) (by omega))
  rw [voice_settleIrq, this]
  exact hP

end Sys2Proof.Machine
end

