-- ==== Sys2Proof/Laws/Decode.lean ====
section
/-! SUPPORT. The fields of a packed command word, and of the addresses built into one: what the decoder reads back. -/

namespace Sys2Proof

theorem getLsbD_packWord (e : BitVec 2) (k : BitVec 3) (a : BitVec 16) (d : Byte) (i : Nat) :
    (packWord e k a d).getLsbD i =
      if i < 8 then d.getLsbD i
      else if i - 8 < 16 then a.getLsbD (i - 8)
      else if i - 8 - 16 < 3 then false
      else if i - 8 - 16 - 3 < 3 then k.getLsbD (i - 8 - 16 - 3)
      else e.getLsbD (i - 8 - 16 - 3 - 3) := by
  unfold packWord
  rw [show (e ++ k ++ 0#3 ++ a ++ d : Word).getLsbD i = _ from BitVec.getLsbD_append, BitVec.getLsbD_append,
    BitVec.getLsbD_append, BitVec.getLsbD_append]
  simp

theorem wordEng_packWord (e : BitVec 2) (k : BitVec 3) (a : BitVec 16) (d : Byte) :
    wordEng (packWord e k a d) = e := by
  apply BitVec.eq_of_getLsbD_eq
  intro i hi
  simp only [wordEng, BitVec.getLsbD_extractLsb', getLsbD_packWord]
  interval_cases i <;> simp

theorem wordKind_packWord (e : BitVec 2) (k : BitVec 3) (a : BitVec 16) (d : Byte) :
    wordKind (packWord e k a d) = k := by
  apply BitVec.eq_of_getLsbD_eq
  intro i hi
  simp only [wordKind, BitVec.getLsbD_extractLsb', getLsbD_packWord]
  interval_cases i <;> simp

theorem wordZ_packWord (e : BitVec 2) (k : BitVec 3) (a : BitVec 16) (d : Byte) :
    wordZ (packWord e k a d) = 0#3 := by
  apply BitVec.eq_of_getLsbD_eq
  intro i hi
  simp only [wordZ, BitVec.getLsbD_extractLsb', getLsbD_packWord]
  interval_cases i <;> simp

theorem wordAddr_packWord (e : BitVec 2) (k : BitVec 3) (a : BitVec 16) (d : Byte) :
    wordAddr (packWord e k a d) = a := by
  apply BitVec.eq_of_getLsbD_eq
  intro i hi
  simp only [wordAddr, BitVec.getLsbD_extractLsb', getLsbD_packWord]
  interval_cases i <;> simp

theorem wordData_packWord (e : BitVec 2) (k : BitVec 3) (a : BitVec 16) (d : Byte) :
    wordData (packWord e k a d) = d := by
  apply BitVec.eq_of_getLsbD_eq
  intro i hi
  simp only [wordData, BitVec.getLsbD_extractLsb', getLsbD_packWord]
  interval_cases i <;> simp

/-- A word with Z = 0 is its own fields packed. -/
theorem packWord_fields (w : Word) (hz : wordZ w = 0#3) :
    packWord (wordEng w) (wordKind w) (wordAddr w) (wordData w) = w := by
  have hz' : ∀ j, j < 3 → w.getLsbD (24 + j) = false := by
    intro j hj
    have := congrArg (fun z : BitVec 3 => z.getLsbD j) hz
    simpa [wordZ, hj] using this
  apply BitVec.eq_of_getLsbD_eq
  intro i hi
  rw [getLsbD_packWord]
  have h0 := hz' 0 (by omega)
  have h1 := hz' 1 (by omega)
  have h2 := hz' 2 (by omega)
  interval_cases i <;> simp_all [wordEng, wordKind, wordAddr, wordData]

theorem getLsbD_wveAddr (n : BitVec 4) (l : BitVec 2) (i : Nat) :
    (wveAddr n l).getLsbD i =
      if i < 2 then l.getLsbD i else if i - 2 < 4 then n.getLsbD (i - 2) else false := by
  unfold wveAddr
  rw [show (0#10 ++ n ++ l : BitVec 16).getLsbD i = _ from BitVec.getLsbD_append, BitVec.getLsbD_append]
  simp

theorem addrHigh_wveAddr (n : BitVec 4) (l : BitVec 2) : addrHigh (wveAddr n l) = 0#10 := by
  apply BitVec.eq_of_getLsbD_eq
  intro i hi
  simp only [addrHigh, BitVec.getLsbD_extractLsb', getLsbD_wveAddr]
  interval_cases i <;> simp

theorem addrN_wveAddr (n : BitVec 4) (l : BitVec 2) : addrN (wveAddr n l) = n := by
  apply BitVec.eq_of_getLsbD_eq
  intro i hi
  simp only [addrN, BitVec.getLsbD_extractLsb', getLsbD_wveAddr]
  interval_cases i <;> simp

theorem addrLane_wveAddr (n : BitVec 4) (l : BitVec 2) : addrLane (wveAddr n l) = l := by
  apply BitVec.eq_of_getLsbD_eq
  intro i hi
  simp only [addrLane, BitVec.getLsbD_extractLsb', getLsbD_wveAddr]
  interval_cases i <;> simp

/-- An address with ADDR[15:6] = 0 is the register number and lane it holds. -/
theorem wveAddr_fields (addr : BitVec 16) (h : addrHigh addr = 0#10) : wveAddr (addrN addr) (addrLane addr) = addr := by
  have h' : ∀ j, j < 10 → addr.getLsbD (6 + j) = false := by
    intro j hj
    have := congrArg (fun z : BitVec 10 => z.getLsbD j) h
    simpa [addrHigh, hj] using this
  apply BitVec.eq_of_getLsbD_eq
  intro i hi
  rw [getLsbD_wveAddr]
  by_cases h1 : i < 2
  · simp [h1, addrLane]
  · by_cases h2 : i - 2 < 4
    · have : 2 + (i - 2) = i := by omega
      simp [h1, h2, addrN, this]
    · have := h' (i - 6) (by omega)
      have e : 6 + (i - 6) = i := by omega
      rw [e] at this
      simp [h1, h2, this]

theorem addrFn_append (f : BitVec 4) (a : BitVec 12) : addrFn (f ++ a) = f := by
  apply BitVec.eq_of_getLsbD_eq
  intro i hi
  simp only [addrFn, BitVec.getLsbD_extractLsb']
  rw [show (f ++ a : BitVec 16).getLsbD (12 + i) = _ from BitVec.getLsbD_append]
  simp [hi]

theorem addrP12_append (f : BitVec 4) (a : BitVec 12) : addrP12 (f ++ a) = a := by
  apply BitVec.eq_of_getLsbD_eq
  intro i hi
  simp only [addrP12, BitVec.getLsbD_extractLsb']
  rw [show (f ++ a : BitVec 16).getLsbD (0 + i) = _ from BitVec.getLsbD_append]
  simp [hi]

/-- A SWE address is its function and pitch operand. -/
theorem swe_addr_fields (addr : BitVec 16) : (addrFn addr ++ addrP12 addr : BitVec 16) = addr := by
  apply BitVec.eq_of_getLsbD_eq
  intro i hi
  rw [show (addrFn addr ++ addrP12 addr : BitVec 16).getLsbD i = _ from BitVec.getLsbD_append]
  by_cases h : i < 12
  · simp [h, addrP12]
  · have e : 12 + (i - 12) = i := by omega
    have h4 : i - 12 < 4 := by omega
    simp [h, h4, addrFn, e]

end Sys2Proof
end

