-- ==== Sys2Proof/Laws/Exec.lean ====
section
/-! SUPPORT. What exec can do, said once: a command answers a next state in which only its own engine and the observation
differ, and both depend on that engine and on the presented operands only (R9, R92, R360). -/

namespace Sys2Proof.Machine

open Sys2Proof

/-! ### The commands of a present engine -/

theorem onWve_factors (g : OutOfBand → Wve → Wve × List Event) :
    ∃ f : Option Wve → OutOfBand → Option Wve × Observation, ∀ s : State,
      onWve s (g s.oob) =
        .next { s with wve := (f s.wve s.oob).1, trace := s.trace ++ [(f s.wve s.oob).2] } := by
  refine ⟨fun w b =>
    match w with
    | none => (none, .refused (.absentInstance .wve))
    | some w => (some (g b w).1, .done (g b w).2), fun s => ?_⟩
  obtain ⟨w, p, q, pending, oob, trace⟩ := s
  cases w <;> rfl

/-- The same of a command that reads no operand of the port. -/
theorem onWve_factors_const (g : Wve → Wve × List Event) :
    ∃ f : Option Wve → OutOfBand → Option Wve × Observation, ∀ s : State,
      onWve s g =
        .next { s with wve := (f s.wve s.oob).1, trace := s.trace ++ [(f s.wve s.oob).2] } :=
  onWve_factors fun _ => g

theorem onAdp_factors (g : OutOfBand → Adp → Adp × List Event) :
    ∃ f : Option Adp → OutOfBand → Option Adp × Observation, ∀ s : State,
      onAdp s (g s.oob) =
        .next { s with adp := (f s.adp s.oob).1, trace := s.trace ++ [(f s.adp s.oob).2] } := by
  refine ⟨fun p b =>
    match p with
    | none => (none, .refused (.absentInstance .adp))
    | some p => (some (g b p).1, .done (g b p).2), fun s => ?_⟩
  obtain ⟨w, p, q, pending, oob, trace⟩ := s
  cases p <;> rfl

/-- The same of a command that reads no operand of the port. -/
theorem onAdp_factors_const (g : Adp → Adp × List Event) :
    ∃ f : Option Adp → OutOfBand → Option Adp × Observation, ∀ s : State,
      onAdp s g =
        .next { s with adp := (f s.adp s.oob).1, trace := s.trace ++ [(f s.adp s.oob).2] } :=
  onAdp_factors fun _ => g

theorem onSwe_factors (g : OutOfBand → Swe → Swe × List Event) :
    ∃ f : Option Swe → OutOfBand → Option Swe × Observation, ∀ s : State,
      onSwe s (g s.oob) =
        .next { s with swe := (f s.swe s.oob).1, trace := s.trace ++ [(f s.swe s.oob).2] } := by
  refine ⟨fun q b =>
    match q with
    | none => (none, .refused (.absentInstance .swe))
    | some q => (some (g b q).1, .done (g b q).2), fun s => ?_⟩
  obtain ⟨w, p, q, pending, oob, trace⟩ := s
  cases q <;> rfl

/-- The same of a command that reads no operand of the port. -/
theorem onSwe_factors_const (g : Swe → Swe × List Event) :
    ∃ f : Option Swe → OutOfBand → Option Swe × Observation, ∀ s : State,
      onSwe s g =
        .next { s with swe := (f s.swe s.oob).1, trace := s.trace ++ [(f s.swe s.oob).2] } :=
  onSwe_factors fun _ => g

/-! ### START -/

/-- What a START leaves of its instance and records: `present` says whether there is one, `made` is the new one. -/
def startEffect {α : Type} (e : Engine) (legal : OutOfBand → Bool) (made : OutOfBand → α) (x : Option α)
    (b : OutOfBand) : Option α × Observation :=
  if x.isSome then (x, .refused (.startPresent e))
  else if legal b then
    match b.draw with
    | .success => (some (made b), .done [])
    | .allocationFailure => (x, .done [.diag e .allocationFailure])
  else (x, .refused (.illegalConfig e))

/-! ### Every command -/

/-- A WVE command answers a next state; it writes the WVE and the observation, from the WVE and the operands. -/
theorem exec_wve_factors {i : Instr} (h : i.engine = .wve) :
    ∃ f : Option Wve → OutOfBand → Option Wve × Observation, ∀ s : State,
      exec i s = .next { s with wve := (f s.wve s.oob).1, trace := s.trace ++ [(f s.wve s.oob).2] } := by
  cases i with
  | ignored acc =>
    cases acc with
    | wveWrite | wveRead => exact onWve_factors_const _
    | adpWrite | sweWrite => cases h
  | wveLoad =>
    obtain ⟨f, hf⟩ := onWve_factors fun b w =>
      if hr : b.load.region < 4 then
        (w.setRegion ⟨b.load.region, hr⟩
          ((w.region ⟨b.load.region, hr⟩).loadRegion b.load.expand b.load.offset b.load.bytes), [])
      else (w, [])
    refine ⟨fun w b =>
      if w.isSome ∧ ¬ b.load.region < 4 then (w, .refused (.badRegion b.load.region)) else f w b, fun s => ?_⟩
    have hs := hf s
    obtain ⟨w, p, q, pending, oob, trace⟩ := s
    cases w with
    | none => exact hs
    | some w =>
      by_cases hr : oob.load.region < 4
      · simp only [exec, execWveLoad, hr, dite_true] at hs ⊢
        simpa [hr] using hs
      · simp [exec, execWveLoad, hr, State.refuse]
  | wveMute => exact onWve_factors fun b w => ({ w with wmute := b.mask }, [])
  | wveStart =>
    refine ⟨startEffect .wve (fun b => wveConfigLegal b.wveCfg) (fun b => startedWve b.wveCfg), fun s => ?_⟩
    obtain ⟨w, p, q, pending, oob, trace⟩ := s
    simp only [exec, execWveStart, startWith, startEffect]
    cases w <;> cases wveConfigLegal oob.wveCfg <;> cases oob.draw <;> rfl
  | wveStop =>
    refine ⟨fun w _ => if w.isSome then (none, .done []) else (none, .refused (.absentInstance .wve)), fun s => ?_⟩
    obtain ⟨w, p, q, pending, oob, trace⟩ := s
    cases w <;> rfl
  | _ => first | (cases h; done) | exact onWve_factors_const _

/-- An ADP command answers a next state; it writes the ADP and the observation, from the ADP and the operands. -/
theorem exec_adp_factors {i : Instr} (h : i.engine = .adp) :
    ∃ f : Option Adp → OutOfBand → Option Adp × Observation, ∀ s : State,
      exec i s = .next { s with adp := (f s.adp s.oob).1, trace := s.trace ++ [(f s.adp s.oob).2] } := by
  cases i with
  | ignored acc =>
    cases acc with
    | adpWrite => exact onAdp_factors_const _
    | wveWrite | wveRead | sweWrite => cases h
  | adpMute => exact onAdp_factors fun b p => ({ p with amute := b.mask.getLsbD 0 }, [])
  | adpStart =>
    refine ⟨startEffect .adp (fun b => adpConfigLegal b.adpCfg) (fun b => startedAdp b.adpCfg), fun s => ?_⟩
    obtain ⟨w, p, q, pending, oob, trace⟩ := s
    simp only [exec, execAdpStart, startWith, startEffect]
    cases p <;> cases adpConfigLegal oob.adpCfg <;> cases oob.draw <;> rfl
  | adpStop =>
    refine ⟨fun p _ => if p.isSome then (none, .done []) else (none, .refused (.absentInstance .adp)), fun s => ?_⟩
    obtain ⟨w, p, q, pending, oob, trace⟩ := s
    cases p <;> rfl
  | _ => first | (cases h; done) | exact onAdp_factors_const _

/-- A SWE command answers a next state; it writes the SWE and the observation, from the SWE and the operands. -/
theorem exec_swe_factors {i : Instr} (h : i.engine = .swe) :
    ∃ f : Option Swe → OutOfBand → Option Swe × Observation, ∀ s : State,
      exec i s = .next { s with swe := (f s.swe s.oob).1, trace := s.trace ++ [(f s.swe s.oob).2] } := by
  cases i with
  | ignored acc =>
    cases acc with
    | sweWrite => exact onSwe_factors_const _
    | wveWrite | wveRead | adpWrite => cases h
  | sweLoad =>
    exact onSwe_factors fun b q => ({ q with lut := q.lut.loadLut b.load.offset b.load.bytes }, [])
  | sweMute => exact onSwe_factors fun b q => ({ q with smute := b.mask.extractLsb' 0 2 }, [])
  | sweStart =>
    refine ⟨startEffect .swe (fun b => sweConfigLegal b.sweCfg) (fun b => startedSwe b.sweCfg), fun s => ?_⟩
    obtain ⟨w, p, q, pending, oob, trace⟩ := s
    simp only [exec, execSweStart, startWith, startEffect]
    cases q <;> cases sweConfigLegal oob.sweCfg <;> cases oob.draw <;> rfl
  | sweStop =>
    refine ⟨fun q _ => if q.isSome then (none, .done []) else (none, .refused (.absentInstance .swe)), fun s => ?_⟩
    obtain ⟨w, p, q, pending, oob, trace⟩ := s
    cases q <;> rfl
  | _ => first | (cases h; done) | exact onSwe_factors_const _

end Sys2Proof.Machine
end

