-- ==== Sys2Proof/Laws/Load.lean ====
section
/-! SUPPORT. What a LOAD makes of a store, said once: its size and every byte (R135, R136). -/

namespace Sys2Proof.Machine

open Sys2Proof

/-- A verbatim load of a region (R84, R135): byte offsets. -/
theorem loadRegion_verbatim_spec (off : Nat) (bytes : List Byte) {st : Store} (h : Store.wf 2 st = true) :
    (st.loadRegion false off bytes).size =
      (if bytes = [] then st.size else max st.size ((off + bytes.length - 1) / 2 + 1)) ∧
    ∀ k, Memory.read (st.loadRegion false off bytes).mem k =
      if off ≤ k ∧ k < off + bytes.length then bytes.getD (k - off) 0#8 else Memory.read st.mem k := by
  induction bytes generalizing off st with
  | nil => exact ⟨rfl, fun k => by simp [Store.loadRegion]⟩
  | cons b rest ih =>
    obtain ⟨i1, i2⟩ := ih (off + 1) (wf_loadVerbatimByte h off b)
    have e : st.loadRegion false off (b :: rest) = (st.loadVerbatimByte off b).loadRegion false (off + 1) rest := rfl
    rw [e]
    constructor
    · rw [i1]
      rcases rest with _ | ⟨c, rest⟩
      · simp
      · simp
        omega
    · intro k
      rw [i2]
      have hm : Memory.wf st.mem = true := (storeWf_iff.1 h).1
      by_cases h0 : k = off
      · subst h0
        rw [if_neg (by omega), if_pos (by simp)]
        simp [Store.loadVerbatimByte, read_write_same hm]
      · have hr : Memory.read (st.loadVerbatimByte off b).mem k = Memory.read st.mem k := by
          simp only [Store.loadVerbatimByte, putByte_mem, grow_mem]
          exact read_write_other _ _ h0
        rw [hr]
        by_cases h1 : off + 1 ≤ k ∧ k < off + 1 + rest.length
        · rw [if_pos h1, if_pos (by simp; omega), show k - off = k - (off + 1) + 1 by omega, List.getD_cons_succ]
        · rw [if_neg h1, if_neg (by simp; omega)]

/-- An expanding load of a region (R85, R135): word offsets, each byte the high half of its word. -/
theorem loadRegion_expanded_spec (off : Nat) (bytes : List Byte) {st : Store} (h : Store.wf 2 st = true) :
    (st.loadRegion true off bytes).size =
      (if bytes = [] then st.size else max st.size (off + bytes.length - 1 + 1)) ∧
    ∀ k, Memory.read (st.loadRegion true off bytes).mem k =
      if off ≤ k / 2 ∧ k / 2 < off + bytes.length then (if k % 2 = 1 then bytes.getD (k / 2 - off) 0#8 else 0#8)
      else Memory.read st.mem k := by
  induction bytes generalizing off st with
  | nil => exact ⟨rfl, fun k => by simp [Store.loadRegion]⟩
  | cons b rest ih =>
    obtain ⟨i1, i2⟩ := ih (off + 1) (wf_loadExpandedByte h off b)
    have e : st.loadRegion true off (b :: rest) = (st.loadExpandedByte off b).loadRegion true (off + 1) rest := rfl
    rw [e]
    constructor
    · rw [i1]
      rcases rest with _ | ⟨c, rest⟩
      · simp
      · simp
        omega
    · intro k
      rw [i2]
      have hm : Memory.wf st.mem = true := (storeWf_iff.1 h).1
      have hm2 : Memory.wf (Memory.write st.mem (2 * off) 0#8) = true := wf_write hm _ _
      by_cases h0 : k / 2 = off
      · rw [if_neg (by omega), if_pos (by simp [h0])]
        by_cases hk : k % 2 = 1
        · obtain rfl : k = 2 * off + 1 := by omega
          rw [if_pos hk, show (2 * off + 1) / 2 - off = 0 by omega]
          simp [Store.loadExpandedByte, read_write_same hm2]
        · obtain rfl : k = 2 * off := by omega
          rw [if_neg hk]
          simp only [Store.loadExpandedByte, putByte_mem, grow_mem]
          rw [read_write_other _ _ (by omega), read_write_same hm]
      · have hr : Memory.read (st.loadExpandedByte off b).mem k = Memory.read st.mem k := by
          simp only [Store.loadExpandedByte, putByte_mem, grow_mem]
          rw [read_write_other _ _ (by omega), read_write_other _ _ (by omega)]
        rw [hr]
        by_cases h1 : off + 1 ≤ k / 2 ∧ k / 2 < off + 1 + rest.length
        · have h2 : off ≤ k / 2 ∧ k / 2 < off + (b :: rest).length := by
            simp
            omega
          rw [if_pos h1, if_pos h2, show k / 2 - off = k / 2 - (off + 1) + 1 by omega, List.getD_cons_succ]
        · rw [if_neg h1, if_neg (by simp; omega)]

/-- A load of the LUT (R136). -/
theorem loadLut_spec (off : Nat) (bytes : List Byte) {st : Store} (h : Store.wf 1 st = true) :
    (st.loadLut off bytes).size = (if bytes = [] then st.size else max st.size (off + bytes.length)) ∧
    ∀ k, Memory.read (st.loadLut off bytes).mem k =
      if off ≤ k ∧ k < off + bytes.length then bytes.getD (k - off) 0#8 else Memory.read st.mem k := by
  induction bytes generalizing off st with
  | nil => exact ⟨rfl, fun k => by simp [Store.loadLut]⟩
  | cons b rest ih =>
    have hw : Store.wf 1 ((st.grow off).putByte off b) = true := by
      refine wf_putByte (wf_grow h off) ?_ b
      have := lt_size_grow st off
      omega
    obtain ⟨i1, i2⟩ := ih (off + 1) hw
    have e : st.loadLut off (b :: rest) = ((st.grow off).putByte off b).loadLut (off + 1) rest := rfl
    rw [e]
    constructor
    · rw [i1]
      rcases rest with _ | ⟨c, rest⟩
      · simp
      · simp
        omega
    · intro k
      rw [i2]
      have hm : Memory.wf st.mem = true := (storeWf_iff.1 h).1
      by_cases h0 : k = off
      · subst h0
        rw [if_neg (by omega), if_pos (by simp)]
        simp [read_write_same hm]
      · have hr : Memory.read ((st.grow off).putByte off b).mem k = Memory.read st.mem k := by
          simp only [putByte_mem, grow_mem]
          exact read_write_other _ _ h0
        rw [hr]
        by_cases h1 : off + 1 ≤ k ∧ k < off + 1 + rest.length
        · rw [if_pos h1, if_pos (by simp; omega), show k - off = k - (off + 1) + 1 by omega, List.getD_cons_succ]
        · rw [if_neg h1, if_neg (by simp; omega)]

end Sys2Proof.Machine
end

