-- ==== Sys2Proof/Laws/PerInstr.lean ====
section
/-! SUPPORT. One lemma a constructor of Instr: the command word the encoder writes has the fixed bits of the
constructor's row of spec/opcode_table.json (R116: `(word & mask) == match`). -/

namespace Sys2Proof.Laws.RowMatch

open Sys2Proof

/-- The `match` and `mask` of the row of spec/opcode_table.json that a constructor stands for. -/
def row : Instr → Word × Word
  | .wveWrL0 _ _ => (0x00000000#32, 0xFFFFC300#32)
  | .wveWrL1 _ _ => (0x00000100#32, 0xFFFFC300#32)
  | .wveWrL2 _ _ => (0x00000200#32, 0xFFFFC300#32)
  | .wveWrCtrl _ => (0x00000300#32, 0xFFFFFF00#32)
  | .wveWrFreq _ => (0x00000700#32, 0xFFFFFF00#32)
  | .wveWrStart _ => (0x00000B00#32, 0xFFFFFF00#32)
  | .wveWrEnd _ => (0x00000F00#32, 0xFFFFFF00#32)
  | .wveWrAccum _ => (0x00001300#32, 0xFFFFFF00#32)
  | .wveWrLvol _ => (0x00000300#32, 0xFFFFFF00#32)
  | .wveWrLvramp _ => (0x00000700#32, 0xFFFFFF00#32)
  | .wveWrRvol _ => (0x00000B00#32, 0xFFFFFF00#32)
  | .wveWrRvramp _ => (0x00000F00#32, 0xFFFFFF00#32)
  | .wveWrEcount _ => (0x00001300#32, 0xFFFFFF00#32)
  | .wveWrK1 _ => (0x00000300#32, 0xFFFFFF00#32)
  | .wveWrK1ramp _ => (0x00000700#32, 0xFFFFFF00#32)
  | .wveWrK2 _ => (0x00000B00#32, 0xFFFFFF00#32)
  | .wveWrK2ramp _ => (0x00000F00#32, 0xFFFFFF00#32)
  | .wveWrO1 _ => (0x00001300#32, 0xFFFFFF00#32)
  | .wveWrO2 _ => (0x00001700#32, 0xFFFFFF00#32)
  | .wveWrO3 _ => (0x00001B00#32, 0xFFFFFF00#32)
  | .wveWrO4 _ => (0x00001F00#32, 0xFFFFFF00#32)
  | .wveWrPage _ => (0x00003F00#32, 0xFFFFFF00#32)
  | .wveWrNone _ _ => (0x00000300#32, 0xFFFFC300#32)
  | .wveRdL0 _ => (0x08000000#32, 0xFFFFC3FF#32)
  | .wveRdL1 _ => (0x08000100#32, 0xFFFFC3FF#32)
  | .wveRdL2 _ => (0x08000200#32, 0xFFFFC3FF#32)
  | .wveRdL3 _ => (0x08000300#32, 0xFFFFC3FF#32)
  | .wveLoad => (0x10000000#32, 0xFFFFFFFF#32)
  | .wveMute => (0x18000000#32, 0xFFFFFFFF#32)
  | .wveReset => (0x20000000#32, 0xFFFFFFFF#32)
  | .wveStart => (0x28000000#32, 0xFFFFFFFF#32)
  | .wveStop => (0x30000000#32, 0xFFFFFFFF#32)
  | .wveTick => (0x38000000#32, 0xFFFFFFFF#32)
  | .adpWrData _ => (0x40000000#32, 0xFFFFFF00#32)
  | .adpWrCtrl _ => (0x40000100#32, 0xFFFFFF00#32)
  | .adpRd _ => (0x48000000#32, 0xFF0000FF#32)
  | .adpLoad => (0x50000000#32, 0xFFFFFFFF#32)
  | .adpMute => (0x58000000#32, 0xFFFFFFFF#32)
  | .adpReset => (0x60000000#32, 0xFFFFFFFF#32)
  | .adpStart => (0x68000000#32, 0xFFFFFFFF#32)
  | .adpStop => (0x70000000#32, 0xFFFFFFFF#32)
  | .adpTick => (0x78000000#32, 0xFFFFFFFF#32)
  | .sweWrCtrl0 _ _ => (0x80000000#32, 0xFFF00000#32)
  | .sweWrCtrl1 _ _ => (0x80100000#32, 0xFFF00000#32)
  | .sweWrLatch0 _ _ => (0x80200000#32, 0xFFF00000#32)
  | .sweWrLatch1 _ _ => (0x80300000#32, 0xFFF00000#32)
  | .sweWrTrig0 _ _ => (0x80400000#32, 0xFFF00000#32)
  | .sweWrTrig1 _ _ => (0x80500000#32, 0xFFF00000#32)
  | .sweRd _ => (0x88000000#32, 0xFF0000FF#32)
  | .sweLoad => (0x90000000#32, 0xFFFFFFFF#32)
  | .sweMute => (0x98000000#32, 0xFFFFFFFF#32)
  | .sweReset => (0xA0000000#32, 0xFFFFFFFF#32)
  | .sweStart => (0xA8000000#32, 0xFFFFFFFF#32)
  | .sweStop => (0xB0000000#32, 0xFFFFFFFF#32)
  | .sweTick => (0xB8000000#32, 0xFFFFFFFF#32)
  | .ignored _ => (0x00000000#32, 0x00000000#32)

/-- A well-formed instruction's word has the fixed bits of its row. -/
def Statement (i : Instr) : Prop := i.wf = true → encode i &&& (row i).2 = (row i).1

/-! ### The shapes of a word -/

theorem wve_write_lane (n : BitVec 4) (l : BitVec 2) (d : Byte) :
    encodeWveWrite n l d &&& 0xFFFFC300#32 = l.setWidth 32 <<< 8 := by
  apply BitVec.eq_of_getLsbD_eq
  intro i hi
  rw [BitVec.getLsbD_and, encodeWveWrite, getLsbD_packWord, getLsbD_wveAddr]
  interval_cases i <;> simp

theorem wve_write_commit (n : BitVec 4) (d : Byte) :
    encodeWveWrite n 3#2 d &&& 0xFFFFFF00#32 = (n.setWidth 32 <<< 10) ||| 0x300#32 := by
  apply BitVec.eq_of_getLsbD_eq
  intro i hi
  rw [BitVec.getLsbD_and, encodeWveWrite, getLsbD_packWord, getLsbD_wveAddr]
  interval_cases i <;> simp

theorem wve_read_lane (n : BitVec 4) (l : BitVec 2) :
    encodeWveRead n l &&& 0xFFFFC3FF#32 = 0x08000000#32 ||| (l.setWidth 32 <<< 8) := by
  apply BitVec.eq_of_getLsbD_eq
  intro i hi
  rw [BitVec.getLsbD_and, encodeWveRead, getLsbD_packWord, getLsbD_wveAddr]
  interval_cases i <;> simp

theorem adp_write (a : BitVec 16) (d : Byte) :
    packWord 1#2 0#3 a d &&& 0xFFFFFF00#32 = 0x40000000#32 ||| (a.setWidth 32 <<< 8) := by
  apply BitVec.eq_of_getLsbD_eq
  intro i hi
  rw [BitVec.getLsbD_and, getLsbD_packWord]
  interval_cases i <;> simp

theorem any_read (e : BitVec 2) (a : BitVec 16) :
    packWord e 1#3 a 0#8 &&& 0xFF0000FF#32 = 0x08000000#32 ||| (e.setWidth 32 <<< 30) := by
  apply BitVec.eq_of_getLsbD_eq
  intro i hi
  rw [BitVec.getLsbD_and, getLsbD_packWord]
  interval_cases i <;> simp

theorem swe_write (f : BitVec 4) (a : BitVec 12) (d : Byte) :
    encodeSweWrite f a d &&& 0xFFF00000#32 = 0x80000000#32 ||| (f.setWidth 32 <<< 20) := by
  have hf : ∀ i, (f ++ a : BitVec 16).getLsbD i = if i < 12 then a.getLsbD i else f.getLsbD (i - 12) :=
    fun i => by rw [show (f ++ a : BitVec 16).getLsbD i = _ from BitVec.getLsbD_append]
  apply BitVec.eq_of_getLsbD_eq
  intro i hi
  rw [BitVec.getLsbD_and, encodeSweWrite, getLsbD_packWord, hf]
  interval_cases i <;> simp

/-! ### One lemma a constructor -/

theorem wveWrL0 (n : BitVec 4) (d : Byte) : Statement (.wveWrL0 n d) := fun _ => wve_write_lane n 0#2 d
theorem wveWrL1 (n : BitVec 4) (d : Byte) : Statement (.wveWrL1 n d) := fun _ => wve_write_lane n 1#2 d
theorem wveWrL2 (n : BitVec 4) (d : Byte) : Statement (.wveWrL2 n d) := fun _ => wve_write_lane n 2#2 d
theorem wveWrCtrl (d : Byte) : Statement (.wveWrCtrl d) := fun _ => wve_write_commit 0#4 d
theorem wveWrFreq (d : Byte) : Statement (.wveWrFreq d) := fun _ => wve_write_commit 1#4 d
theorem wveWrStart (d : Byte) : Statement (.wveWrStart d) := fun _ => wve_write_commit 2#4 d
theorem wveWrEnd (d : Byte) : Statement (.wveWrEnd d) := fun _ => wve_write_commit 3#4 d
theorem wveWrAccum (d : Byte) : Statement (.wveWrAccum d) := fun _ => wve_write_commit 4#4 d
theorem wveWrLvol (d : Byte) : Statement (.wveWrLvol d) := fun _ => wve_write_commit 0#4 d
theorem wveWrLvramp (d : Byte) : Statement (.wveWrLvramp d) := fun _ => wve_write_commit 1#4 d
theorem wveWrRvol (d : Byte) : Statement (.wveWrRvol d) := fun _ => wve_write_commit 2#4 d
theorem wveWrRvramp (d : Byte) : Statement (.wveWrRvramp d) := fun _ => wve_write_commit 3#4 d
theorem wveWrEcount (d : Byte) : Statement (.wveWrEcount d) := fun _ => wve_write_commit 4#4 d
theorem wveWrK1 (d : Byte) : Statement (.wveWrK1 d) := fun _ => wve_write_commit 0#4 d
theorem wveWrK1ramp (d : Byte) : Statement (.wveWrK1ramp d) := fun _ => wve_write_commit 1#4 d
theorem wveWrK2 (d : Byte) : Statement (.wveWrK2 d) := fun _ => wve_write_commit 2#4 d
theorem wveWrK2ramp (d : Byte) : Statement (.wveWrK2ramp d) := fun _ => wve_write_commit 3#4 d
theorem wveWrO1 (d : Byte) : Statement (.wveWrO1 d) := fun _ => wve_write_commit 4#4 d
theorem wveWrO2 (d : Byte) : Statement (.wveWrO2 d) := fun _ => wve_write_commit 5#4 d
theorem wveWrO3 (d : Byte) : Statement (.wveWrO3 d) := fun _ => wve_write_commit 6#4 d
theorem wveWrO4 (d : Byte) : Statement (.wveWrO4 d) := fun _ => wve_write_commit 7#4 d
theorem wveWrPage (d : Byte) : Statement (.wveWrPage d) := fun _ => wve_write_commit 15#4 d
theorem wveWrNone (n : BitVec 4) (d : Byte) : Statement (.wveWrNone n d) := fun _ => wve_write_lane n 3#2 d
theorem wveRdL0 (n : BitVec 4) : Statement (.wveRdL0 n) := fun _ => wve_read_lane n 0#2
theorem wveRdL1 (n : BitVec 4) : Statement (.wveRdL1 n) := fun _ => wve_read_lane n 1#2
theorem wveRdL2 (n : BitVec 4) : Statement (.wveRdL2 n) := fun _ => wve_read_lane n 2#2
theorem wveRdL3 (n : BitVec 4) : Statement (.wveRdL3 n) := fun _ => wve_read_lane n 3#2
theorem wveLoad : Statement (.wveLoad) := fun _ => by decide
theorem wveMute : Statement (.wveMute) := fun _ => by decide
theorem wveReset : Statement (.wveReset) := fun _ => by decide
theorem wveStart : Statement (.wveStart) := fun _ => by decide
theorem wveStop : Statement (.wveStop) := fun _ => by decide
theorem wveTick : Statement (.wveTick) := fun _ => by decide
theorem adpWrData (d : Byte) : Statement (.adpWrData d) := fun _ => adp_write 0#16 d
theorem adpWrCtrl (d : Byte) : Statement (.adpWrCtrl d) := fun _ => adp_write 1#16 d
theorem adpRd (addr : BitVec 16) : Statement (.adpRd addr) := fun _ => any_read 1#2 addr
theorem adpLoad : Statement (.adpLoad) := fun _ => by decide
theorem adpMute : Statement (.adpMute) := fun _ => by decide
theorem adpReset : Statement (.adpReset) := fun _ => by decide
theorem adpStart : Statement (.adpStart) := fun _ => by decide
theorem adpStop : Statement (.adpStop) := fun _ => by decide
theorem adpTick : Statement (.adpTick) := fun _ => by decide
theorem sweWrCtrl0 (a : BitVec 12) (d : Byte) : Statement (.sweWrCtrl0 a d) := fun _ => swe_write 0#4 a d
theorem sweWrCtrl1 (a : BitVec 12) (d : Byte) : Statement (.sweWrCtrl1 a d) := fun _ => swe_write 1#4 a d
theorem sweWrLatch0 (a : BitVec 12) (d : Byte) : Statement (.sweWrLatch0 a d) := fun _ => swe_write 2#4 a d
theorem sweWrLatch1 (a : BitVec 12) (d : Byte) : Statement (.sweWrLatch1 a d) := fun _ => swe_write 3#4 a d
theorem sweWrTrig0 (a : BitVec 12) (d : Byte) : Statement (.sweWrTrig0 a d) := fun _ => swe_write 4#4 a d
theorem sweWrTrig1 (a : BitVec 12) (d : Byte) : Statement (.sweWrTrig1 a d) := fun _ => swe_write 5#4 a d
theorem sweRd (addr : BitVec 16) : Statement (.sweRd addr) := fun _ => any_read 2#2 addr
theorem sweLoad : Statement (.sweLoad) := fun _ => by decide
theorem sweMute : Statement (.sweMute) := fun _ => by decide
theorem sweReset : Statement (.sweReset) := fun _ => by decide
theorem sweStart : Statement (.sweStart) := fun _ => by decide
theorem sweStop : Statement (.sweStop) := fun _ => by decide
theorem sweTick : Statement (.sweTick) := fun _ => by decide
theorem ignored (acc : IgnoredAccess) : Statement (.ignored acc) := fun _ => BitVec.and_zero

end Sys2Proof.Laws.RowMatch
end

