-- ==== Sys2Proof/Tests/Slice0.lean ====
section
/-! SUPPORT. Tests: ill-formed terms, the decoding of every constructor from a word written out from spec/30_encoding,
one step of the instructions with values from the examples of the rules and spec/95_test_vectors, and for each statement
of Certificates/Slice0/Obligations.lean that has hypotheses a concrete case that meets them. -/

namespace Sys2Proof.Tests

set_option Elab.async false

open Sys2Proof Sys2Proof.Machine

/-! ### Well-formedness: an ill-formed term of each check is refused -/

theorem test_wf_none_rejects_page : (Instr.wveWrNone 15#4 0#8).wf = false := by decide
theorem test_wf_none_accepts_14 : (Instr.wveWrNone 14#4 0#8).wf = true := by decide
theorem test_wf_ignored_wveWrite : (Instr.ignored (.wveWrite 0x003F#16 0#8)).wf = false := by decide
theorem test_wf_ignored_wveRead : (Instr.ignored (.wveRead 0x003F#16)).wf = false := by decide
theorem test_wf_ignored_adpWrite : (Instr.ignored (.adpWrite 1#16 0#8)).wf = false := by decide
theorem test_wf_ignored_sweWrite : (Instr.ignored (.sweWrite 0x5FFF#16 0#8)).wf = false := by decide

/-! ### Decoding: one word of every constructor (R100 to R107, R112; spec/95 section 2.1) -/

/-- The word `w` decodes to `i` under group `g`. -/
def decodesTo (g : BitVec 2) (w : Word) (i : Instr) : Bool :=
  match decode g w with
  | .ok j => decide (j = i)
  | .error _ => false

/-- The word `w` spells no command (R101). -/
def undecodable (g : BitVec 2) (w : Word) (e : DecodeError) : Bool :=
  match decode g w with
  | .ok _ => false
  | .error f => decide (f = e)

theorem test_decode_wveWrL0 : decodesTo 0#2 0x00000412#32 (.wveWrL0 1#4 0x12#8) = true := by decide
theorem test_decode_wveWrL1 : decodesTo 1#2 0x00000534#32 (.wveWrL1 1#4 0x34#8) = true := by decide
theorem test_decode_wveWrL2 : decodesTo 2#2 0x00000656#32 (.wveWrL2 1#4 0x56#8) = true := by decide
theorem test_decode_wveWrCtrl : decodesTo 0#2 0x00000305#32 (.wveWrCtrl 0x05#8) = true := by decide
theorem test_decode_wveWrFreq : decodesTo 0#2 0x00000703#32 (.wveWrFreq 0x03#8) = true := by decide
theorem test_decode_wveWrStart : decodesTo 0#2 0x00000B03#32 (.wveWrStart 0x03#8) = true := by decide
theorem test_decode_wveWrEnd : decodesTo 0#2 0x00000F03#32 (.wveWrEnd 0x03#8) = true := by decide
theorem test_decode_wveWrAccum : decodesTo 0#2 0x00001303#32 (.wveWrAccum 0x03#8) = true := by decide
theorem test_decode_wveWrLvol : decodesTo 1#2 0x00000303#32 (.wveWrLvol 0x03#8) = true := by decide
theorem test_decode_wveWrLvramp : decodesTo 1#2 0x00000703#32 (.wveWrLvramp 0x03#8) = true := by decide
theorem test_decode_wveWrRvol : decodesTo 1#2 0x00000B03#32 (.wveWrRvol 0x03#8) = true := by decide
theorem test_decode_wveWrRvramp : decodesTo 1#2 0x00000F03#32 (.wveWrRvramp 0x03#8) = true := by decide
theorem test_decode_wveWrEcount : decodesTo 1#2 0x00001303#32 (.wveWrEcount 0x03#8) = true := by decide
theorem test_decode_wveWrK1 : decodesTo 2#2 0x00000303#32 (.wveWrK1 0x03#8) = true := by decide
theorem test_decode_wveWrK1ramp : decodesTo 2#2 0x00000703#32 (.wveWrK1ramp 0x03#8) = true := by decide
theorem test_decode_wveWrK2 : decodesTo 2#2 0x00000B03#32 (.wveWrK2 0x03#8) = true := by decide
theorem test_decode_wveWrK2ramp : decodesTo 2#2 0x00000F03#32 (.wveWrK2ramp 0x03#8) = true := by decide
theorem test_decode_wveWrO1 : decodesTo 2#2 0x00001303#32 (.wveWrO1 0x03#8) = true := by decide
theorem test_decode_wveWrO2 : decodesTo 2#2 0x00001703#32 (.wveWrO2 0x03#8) = true := by decide
theorem test_decode_wveWrO3 : decodesTo 2#2 0x00001B03#32 (.wveWrO3 0x03#8) = true := by decide
theorem test_decode_wveWrO4 : decodesTo 2#2 0x00001F03#32 (.wveWrO4 0x03#8) = true := by decide
theorem test_decode_wveWrPage : decodesTo 3#2 0x00003F45#32 (.wveWrPage 0x45#8) = true := by decide
theorem test_decode_wveWrNone : decodesTo 3#2 0x00000703#32 (.wveWrNone 1#4 0x03#8) = true := by decide
theorem test_decode_wveWrNone_group0 : decodesTo 0#2 0x00001703#32 (.wveWrNone 5#4 0x03#8) = true := by decide
theorem test_decode_wveRdL0 : decodesTo 0#2 0x08001000#32 (.wveRdL0 4#4) = true := by decide
theorem test_decode_wveRdL1 : decodesTo 0#2 0x08001100#32 (.wveRdL1 4#4) = true := by decide
theorem test_decode_wveRdL2 : decodesTo 0#2 0x08001200#32 (.wveRdL2 4#4) = true := by decide
theorem test_decode_wveRdL3 : decodesTo 0#2 0x08001300#32 (.wveRdL3 4#4) = true := by decide
theorem test_decode_wveLoad : decodesTo 0#2 0x10000000#32 .wveLoad = true := by decide
theorem test_decode_wveMute : decodesTo 0#2 0x18000000#32 .wveMute = true := by decide
theorem test_decode_wveReset : decodesTo 0#2 0x20000000#32 .wveReset = true := by decide
theorem test_decode_wveStart : decodesTo 0#2 0x28000000#32 .wveStart = true := by decide
theorem test_decode_wveStop : decodesTo 0#2 0x30000000#32 .wveStop = true := by decide
theorem test_decode_wveTick : decodesTo 0#2 0x38000000#32 .wveTick = true := by decide
theorem test_decode_adpWrData : decodesTo 0#2 0x40000007#32 (.adpWrData 7#8) = true := by decide
theorem test_decode_adpWrCtrl : decodesTo 0#2 0x4000010C#32 (.adpWrCtrl 0x0C#8) = true := by decide
theorem test_decode_adpRd : decodesTo 0#2 0x48000100#32 (.adpRd 1#16) = true := by decide
theorem test_decode_adpLoad : decodesTo 0#2 0x50000000#32 .adpLoad = true := by decide
theorem test_decode_adpMute : decodesTo 0#2 0x58000000#32 .adpMute = true := by decide
theorem test_decode_adpReset : decodesTo 0#2 0x60000000#32 .adpReset = true := by decide
theorem test_decode_adpStart : decodesTo 0#2 0x68000000#32 .adpStart = true := by decide
theorem test_decode_adpStop : decodesTo 0#2 0x70000000#32 .adpStop = true := by decide
theorem test_decode_adpTick : decodesTo 0#2 0x78000000#32 .adpTick = true := by decide
theorem test_decode_sweWrCtrl0 : decodesTo 0#2 0x8000004F#32 (.sweWrCtrl0 0#12 0x4F#8) = true := by decide
theorem test_decode_sweWrCtrl1 : decodesTo 0#2 0x801FFF10#32 (.sweWrCtrl1 0xFFF#12 0x10#8) = true := by decide
theorem test_decode_sweWrLatch0 : decodesTo 0#2 0x802EFF00#32 (.sweWrLatch0 0xEFF#12 0#8) = true := by decide
theorem test_decode_sweWrLatch1 : decodesTo 0#2 0x803FFF00#32 (.sweWrLatch1 0xFFF#12 0#8) = true := by decide
theorem test_decode_sweWrTrig0 : decodesTo 0#2 0x80400000#32 (.sweWrTrig0 0#12 0#8) = true := by decide
theorem test_decode_sweWrTrig1 : decodesTo 0#2 0x805ABC12#32 (.sweWrTrig1 0xABC#12 0x12#8) = true := by decide
theorem test_decode_sweRd : decodesTo 0#2 0x88000000#32 (.sweRd 0#16) = true := by decide
theorem test_decode_sweLoad : decodesTo 0#2 0x90000000#32 .sweLoad = true := by decide
theorem test_decode_sweMute : decodesTo 0#2 0x98000000#32 .sweMute = true := by decide
theorem test_decode_sweReset : decodesTo 0#2 0xA0000000#32 .sweReset = true := by decide
theorem test_decode_sweStart : decodesTo 0#2 0xA8000000#32 .sweStart = true := by decide
theorem test_decode_sweStop : decodesTo 0#2 0xB0000000#32 .sweStop = true := by decide
theorem test_decode_sweTick : decodesTo 0#2 0xB8000000#32 .sweTick = true := by decide
theorem test_decode_ignored_wveWrite :
    decodesTo 0#2 0x00004055#32 (.ignored (.wveWrite 0x0040#16 0x55#8)) = true := by decide
theorem test_decode_ignored_wveRead : decodesTo 0#2 0x08004000#32 (.ignored (.wveRead 0x0040#16)) = true := by decide
theorem test_decode_ignored_adpWrite :
    decodesTo 0#2 0x40000255#32 (.ignored (.adpWrite 2#16 0x55#8)) = true := by decide
theorem test_decode_ignored_sweWrite :
    decodesTo 0#2 0x80600000#32 (.ignored (.sweWrite 0x6000#16 0#8)) = true := by decide
/-- The refused words of spec/95 section 2.1. -/
theorem test_decode_refused :
    undecodable 0#2 0x08001301#32 .strayData = true ∧ undecodable 0#2 0xC0000000#32 .noEngine = true ∧
    undecodable 0#2 0x01000000#32 .reservedBits = true ∧ undecodable 0#2 0x38000100#32 .strayAddr = true ∧
    undecodable 0#2 0x20000001#32 .strayData = true := by decide

/-! ### Small states -/

/-- A fresh WVE(1, 0) of spec/95: START with clock 1 and ACTV 0, then RESET. -/
def freshWve : Wve := resetWve (startedWve { clock := 1, actv := 0 })
/-- A fresh ADP(384000) of spec/95. -/
def freshAdp : Adp := resetAdp (startedAdp { clock := 384000 })
/-- A fresh SWE(1) of spec/95. -/
def freshSwe : Swe := resetSwe (startedSwe { clock := 1 })
/-- The three fresh engines. -/
def fresh : State := { State.reset with wve := some freshWve, adp := some freshAdp, swe := some freshSwe }
/-- `fresh` with another WVE. -/
def onlyWve (w : Wve) : State := { fresh with wve := some w }
/-- `fresh` with another ADP. -/
def onlyAdp (p : Adp) : State := { fresh with adp := some p }
/-- `fresh` with another SWE. -/
def onlySwe (q : Swe) : State := { fresh with swe := some q }

/-- exec answers a next state with property `P`. -/
def completes (i : Instr) (s : State) (P : State → Bool) : Bool :=
  match exec i s with
  | .next t => P t
  | _ => false
/-- exec answers the same state with refusal `r` recorded (R360). -/
def refuses (i : Instr) (s : State) (r : RefusalReason) : Bool :=
  completes i s fun t => decide (t = { s with trace := s.trace ++ [.refused r] })
/-- exec completes, with `events` as its observation and `P` of the WVE after it. -/
def wveAfter (i : Instr) (s : State) (events : List Event) (P : Wve → Bool) : Bool :=
  completes i s fun t => decide (t.trace = s.trace ++ [.done events]) && t.wve.any P
/-- The same of the ADP. -/
def adpAfter (i : Instr) (s : State) (events : List Event) (P : Adp → Bool) : Bool :=
  completes i s fun t => decide (t.trace = s.trace ++ [.done events]) && t.adp.any P
/-- The same of the SWE. -/
def sweAfter (i : Instr) (s : State) (events : List Event) (P : Swe → Bool) : Bool :=
  completes i s fun t => decide (t.trace = s.trace ++ [.done events]) && t.swe.any P

/-! ### WVE registers (spec/95 section 2.2) -/

/-- WLATCH holds 0x123456xx and voice 5 of group `g` is selected. -/
def latched (g : BitVec 2) : State := onlyWve { freshWve with wlatch := 0x123456FF#32, page := g ++ 5#5 }
/-- A commit of 0x12345678 leaves voice 5 with `P`, the other voices as they were, and WLATCH 0. -/
def commits (g : BitVec 2) (i : Instr) (P : Voice → Bool) : Bool :=
  wveAfter i (latched g) [] fun w =>
    P (w.voice 5) && w.wlatch == 0#32 && w.voice 4 == resetVoice && w.voice 6 == resetVoice

theorem test_wveWrL0 : wveAfter (.wveWrL0 1#4 0x12#8) fresh [] (fun w => w.wlatch == 0x12000000#32) = true := by
  decide +kernel
theorem test_wveWrL1 : wveAfter (.wveWrL1 9#4 0xAB#8) (latched 3#2) [] (fun w => w.wlatch == 0x12AB56FF#32) = true := by
  decide +kernel
theorem test_wveWrL2 : wveAfter (.wveWrL2 9#4 0xAB#8) (latched 3#2) [] (fun w => w.wlatch == 0x1234ABFF#32) = true := by
  decide +kernel
/-- Row 3 of section 2.2: 0xFFFFFFFF gives CTRL = 0x7F7F and IRQ_OUT = 1. -/
theorem test_wveWrCtrl_set :
    wveAfter (.wveWrCtrl 0xFF#8) (onlyWve { freshWve with wlatch := 0xFFFFFF00#32 }) []
      (fun w => (w.voice 0).ctrl == 0x7F7F#15 && w.irqOut && w.wlatch == 0#32) = true := by decide +kernel
/-- Row 4: 0x00000001 then gives CTRL = 0x0001 and IRQ_OUT = 0. -/
theorem test_wveWrCtrl_clear :
    wveAfter (.wveWrCtrl 0x01#8)
      (onlyWve { freshWve.setVoice 0 { resetVoice with ctrl := 0x7F7F#15 } with irqOut := true }) []
      (fun w => (w.voice 0).ctrl == 0x0001#15 && !w.irqOut) = true := by decide +kernel
theorem test_wveWrFreq : commits 0#2 (.wveWrFreq 0x78#8) (fun v => v.freq == 0x12345678#32) = true := by decide +kernel
theorem test_wveWrStart : commits 0#2 (.wveWrStart 0x78#8) (fun v => v.loopStart == 0x12345678#32) = true := by
  decide +kernel
theorem test_wveWrEnd : commits 0#2 (.wveWrEnd 0x78#8) (fun v => v.loopEnd == 0x12345678#32) = true := by decide +kernel
theorem test_wveWrAccum : commits 0#2 (.wveWrAccum 0x78#8) (fun v => v.accum == 0x12345678#32) = true := by
  decide +kernel
/-- R168: with ACC_BITS = 31, 0xFFFFFFFF gives 0x7FFFFFFF. -/
theorem test_wveWrAccum_31 :
    wveAfter (.wveWrAccum 0xFF#8)
      (onlyWve { freshWve with cfg := { clock := 1, actv := 0, accBits := 31 }, wlatch := 0xFFFFFF00#32 }) []
      (fun w => (w.voice 0).accum == 0x7FFFFFFF#32) = true := by decide +kernel
theorem test_wveWrLvol : commits 1#2 (.wveWrLvol 0x78#8) (fun v => v.lvol == 0x5678#16) = true := by decide +kernel
theorem test_wveWrLvramp : commits 1#2 (.wveWrLvramp 0x78#8) (fun v => v.lvramp == 0x5678#16) = true := by
  decide +kernel
theorem test_wveWrRvol : commits 1#2 (.wveWrRvol 0x78#8) (fun v => v.rvol == 0x5678#16) = true := by decide +kernel
theorem test_wveWrRvramp : commits 1#2 (.wveWrRvramp 0x78#8) (fun v => v.rvramp == 0x5678#16) = true := by
  decide +kernel
theorem test_wveWrEcount : commits 1#2 (.wveWrEcount 0x78#8) (fun v => v.ecount == 0x5678#16) = true := by
  decide +kernel
theorem test_wveWrK1 : commits 2#2 (.wveWrK1 0x78#8) (fun v => v.k1 == 0x5678#16) = true := by decide +kernel
theorem test_wveWrK1ramp : commits 2#2 (.wveWrK1ramp 0x78#8) (fun v => v.k1ramp == 0x5678#16) = true := by
  decide +kernel
theorem test_wveWrK2 : commits 2#2 (.wveWrK2 0x78#8) (fun v => v.k2 == 0x5678#16) = true := by decide +kernel
theorem test_wveWrK2ramp : commits 2#2 (.wveWrK2ramp 0x78#8) (fun v => v.k2ramp == 0x5678#16) = true := by
  decide +kernel
theorem test_wveWrO1 : commits 2#2 (.wveWrO1 0x78#8) (fun v => v.o1 == 0x12345678#32) = true := by decide +kernel
theorem test_wveWrO2 : commits 2#2 (.wveWrO2 0x78#8) (fun v => v.o2 == 0x12345678#32) = true := by decide +kernel
theorem test_wveWrO3 : commits 2#2 (.wveWrO3 0x78#8) (fun v => v.o3 == 0x12345678#32) = true := by decide +kernel
theorem test_wveWrO4 : commits 2#2 (.wveWrO4 0x78#8) (fun v => v.o4 == 0x12345678#32) = true := by decide +kernel
/-- R163: 0x00000045 selects voice 5, group 2. -/
theorem test_wveWrPage :
    wveAfter (.wveWrPage 0x45#8) fresh [] (fun w => pageVsel w.page == 5#5 && pageGroup w.page == 2#2) = true := by
  decide +kernel
/-- Row 9 of section 2.2: no register changes and WLATCH ends at 0. -/
theorem test_wveWrNone : commits 3#2 (.wveWrNone 0#4 0xFF#8) (fun v => v == resetVoice) = true := by decide +kernel

/-- The snapshot example of R182: voice 0 has ACCUM = 0x00032000. -/
def accumState : State := onlyWve (freshWve.setVoice 0 { resetVoice with accum := 0x00032000#32 })
/-- A stale RLATCH. -/
def rlatchState : State := onlyWve { freshWve with rlatch := 0x00032000#32 }

theorem test_wveRdL0 :
    wveAfter (.wveRdL0 4#4) accumState [.readByte .wve 0x00#8] (fun w => w.rlatch == 0x00032000#32) = true := by
  decide +kernel
/-- R182: a lane-0 read that selects no register snapshots 0. -/
theorem test_wveRdL0_none :
    wveAfter (.wveRdL0 5#4) rlatchState [.readByte .wve 0x00#8] (fun w => w.rlatch == 0#32) = true := by decide +kernel
theorem test_wveRdL1 :
    wveAfter (.wveRdL1 4#4) rlatchState [.readByte .wve 0x03#8] (fun w => w.rlatch == 0x00032000#32) = true := by
  decide +kernel
theorem test_wveRdL2 :
    wveAfter (.wveRdL2 4#4) rlatchState [.readByte .wve 0x20#8] (fun w => w.rlatch == 0x00032000#32) = true := by
  decide +kernel
theorem test_wveRdL3 :
    wveAfter (.wveRdL3 4#4) rlatchState [.readByte .wve 0x00#8] (fun w => w.rlatch == 0x00032000#32) = true := by
  decide +kernel

/-! ### The device contract (spec/95 section 2.11) -/

/-- `s` with LOAD operands. -/
def withLoad (s : State) (region offset : Nat) (bytes : List Byte) (expand : Bool) : State :=
  { s with oob := { OutOfBand.empty with load := { region := region, offset := offset, bytes := bytes, expand := expand } } }
/-- `s` with a MUTE mask. -/
def withMask (s : State) (mask : Word) : State := { s with oob := { OutOfBand.empty with mask := mask } }

/-- LOAD odd length: words 0xBBAA and 0x00CC, then word 1 becomes 0xDDCC. -/
theorem test_wveLoad_verbatim :
    wveAfter .wveLoad
      (withLoad (onlyWve (freshWve.setRegion 0 { size := 2, mem := [(0, 0xAA#8), (1, 0xBB#8), (2, 0xCC#8)] }))
        0 3 [0xDD#8] false) []
      (fun w => (w.region 0).size == 2 && (w.region 0).word 0 == some 0xBBAA#16 &&
        (w.region 0).word 1 == some 0xDDCC#16 && (w.region 0).word 2 == none) = true := by decide +kernel
/-- LOAD expand: REG[1][4] = 0x8000, words 0 to 3 are 0 and SIZE[1] = 5. -/
theorem test_wveLoad_expand :
    wveAfter .wveLoad (withLoad fresh 1 4 [0x80#8] true) []
      (fun w => (w.region 1).size == 5 && (w.region 1).word 4 == some 0x8000#16 && (w.region 1).word 3 == some 0#16) =
      true := by decide +kernel
theorem test_wveMute : wveAfter .wveMute (withMask fresh 0x80000003#32) [] (fun w => w.wmute == 0x80000003#32) = true := by
  decide +kernel
/-- RESET keeps regions and mute, and emits 40000 at clock 16000000 and ACTV 24. -/
theorem test_wveReset :
    wveAfter .wveReset
      (onlyWve
        { (startedWve { clock := 16000000, actv := 24 }).setRegion 0 { size := 1, mem := [(0, 0x34#8), (1, 0x12#8)] } with
          wmute := 3#32 })
      [.rate .wve 40000]
      (fun w => w.wmute == 3#32 && (w.region 0).word 0 == some 0x1234#16 && (w.voice 31).ctrl == 1#15 &&
        (w.voice 0).k1 == 0xFFFF#16) = true := by decide +kernel
theorem test_wveStart :
    wveAfter .wveStart { State.reset with oob := { OutOfBand.empty with wveCfg := { clock := 16000000, actv := 24 } } } []
      (fun w => w == startedWve { clock := 16000000, actv := 24 }) = true := by decide +kernel
/-- START with ACTV = 32 is refused. -/
theorem test_wveStart_bad :
    refuses .wveStart { State.reset with oob := { OutOfBand.empty with wveCfg := { clock := 16000000, actv := 32 } } }
      (.illegalConfig .wve) = true := by decide +kernel
theorem test_wveStop : completes .wveStop fresh (fun t => t.wve == none && t.adp == fresh.adp) = true := by decide +kernel
theorem test_adpLoad : adpAfter .adpLoad (withLoad fresh 0 0 [1#8, 2#8, 3#8] false) [] (fun p => p == freshAdp) = true := by
  decide +kernel
/-- Mask 0xFE leaves AMUTE 0. -/
theorem test_adpMute : adpAfter .adpMute (withMask fresh 0xFE#32) [] (fun p => p.amute == false) = true := by
  decide +kernel
theorem test_adpReset :
    adpAfter .adpReset (onlyAdp { freshAdp with amute := true, ctl := 0x0D#8, wr := 3#3, signal := 7, step := 9 })
      [.rate .adp 8000] (fun p => p == { freshAdp with amute := true }) = true := by decide +kernel
theorem test_adpStart_fail :
    completes .adpStart
      { State.reset with
          oob := { OutOfBand.empty with adpCfg := { clock := 384000 }, draw := .allocationFailure } }
      (fun t => t.adp == none && t.trace == [.done [.diag .adp .allocationFailure]]) = true := by decide +kernel
theorem test_adpStop : completes .adpStop fresh (fun t => t.adp == none && t.swe == fresh.swe) = true := by decide +kernel
theorem test_sweLoad :
    sweAfter .sweLoad (withLoad fresh 3 0x200 [0x11#8] true) []
      (fun q => q.lut.size == 0x201 && q.lut.lutByte 0x200 == 0x11#8 && q.lut.lutByte 0x1FF == 0#8) = true := by
  decide +kernel
theorem test_sweMute : sweAfter .sweMute (withMask fresh 0xFFFFFFFE#32) [] (fun q => q.smute == 2#2) = true := by
  decide +kernel
theorem test_sweReset :
    sweAfter .sweReset (onlySwe { freshSwe with cfg := { clock := 3579545, clockDiv := 2 }, smute := 3#2 })
      [.rate .swe (mkRat 3579545 2)] (fun q => q.smute == 3#2) = true := by decide +kernel
theorem test_sweStart_present : refuses .sweStart fresh (.startPresent .swe) = true := by decide +kernel
theorem test_sweStop : completes .sweStop fresh (fun t => t.swe == none && t.wve == fresh.wve) = true := by decide +kernel
/-- R112: not even WLATCH changes. -/
theorem test_ignored :
    wveAfter (.ignored (.wveWrite 0x40#16 0x55#8)) (latched 0#2) [] (fun w => w.wlatch == 0x123456FF#32) = true := by
  decide +kernel

/-! ### WVE.TICK (spec/95 sections 2.3 to 2.8) -/

/-- Voice 0 as in section 2.3, with a region holding `bytes`. -/
def sounding (ctrl : BitVec 15) (accum : Word) (region : Fin 4) (st : Store) : State :=
  onlyWve ((freshWve.setVoice 0 { resetVoice with ctrl := ctrl, accum := accum }).setRegion region st)

theorem test_wveTick_pcm :
    wveAfter .wveTick (sounding 0x0030#15 0x400#32 0 { size := 2, mem := [(1, 0x10#8), (3, 0x20#8)] })
      [.out .wve [97984, 97984]] (fun _ => true) = true := by decide +kernel
theorem test_wveTick_ulaw :
    wveAfter .wveTick (sounding 0x0270#15 0#32 2 { size := 2, mem := [(1, 0x81#8), (3, 0x7F#8)] })
      [.out .wve [-64, -64]] (fun _ => true) = true := by decide +kernel

/-- Section 2.4, row by row for the modes 0 to 3: one filter step on 1000 with histories 100, 200, 300, 400. -/
theorem test_filterPoles :
    ([0x00#15, 0x10#15, 0x20#15, 0x30#15].map fun c =>
      let p := filterPoles freshWve.cfg
        { resetVoice with ctrl := c, k1 := 0x8000#16, k2 := 0x4000#16, o1 := 100, o2 := 200, o3 := 300, o4 := 400 } 1000
      [p.p1, p.p2, p.p3, p.p4]) =
    [[550, 375, 334, 246], [550, 375, 337, 249], [550, 375, 318, 380], [550, 375, 337, 385]] := by decide +kernel
/-- Section 2.5: contributions and routing. -/
theorem test_gain_route :
    contribution 1000 0xFFFF#16 = 15968 ∧ contribution 1000 0x8000#16 = 62 ∧ contribution (-1000) 0xFFFF#16 = -15969 ∧
    contribution (-1) 0x1000#16 = -1 ∧ contribution 30000 0x0FFF#16 = 0 ∧
    (allVoices.take 8).map (fun i => route 3 (BitVec.ofNat 3 i.val)) =
      [(0, 1), (1, 2), (2, 2), (0, 1), (1, 2), (2, 2), (0, 1), (1, 2)] := by decide +kernel
/-- Section 2.3: interpolation floors. -/
theorem test_interpolate :
    interpolate 0x1000 0x2000 1024 = 6144 ∧ interpolate (-1) 0 1 = -1 ∧ interpolate (-3) 5 1 = -3 ∧
    interpolate (-32768) 32767 2047 = 32735 := by decide +kernel

/-- ACCUM and CTRL after one advance. -/
def advanced (ctrl : BitVec 15) (start loopEnd accum freq : Word) : Word × BitVec 15 :=
  let v := advance freshWve.cfg
    { resetVoice with ctrl := ctrl, loopStart := start, loopEnd := loopEnd, accum := accum, freq := freq }
  (v.accum, v.ctrl)
/-- W2 and section 2.6, the loop [0x80000, 0x100000), forward. -/
theorem test_advance_forward :
    advanced 0x0004#15 0x100#32 0x200#32 0xFF000#32 0x3000#32 = (0x82000#32, 0x0004#15) ∧
    advanced 0x0008#15 0x100#32 0x200#32 0xFF000#32 0x3000#32 = (0xFE000#32, 0x000A#15) ∧
    advanced 0x000C#15 0x100#32 0x200#32 0xFF000#32 0x3000#32 = (0xFE000#32, 0x000C#15) ∧
    advanced 0x2004#15 0#32 0x800#32 0x3FF800#32 0x1000#32 = (0x800#32, 0x6004#15) := by decide +kernel
/-- Section 2.6, reverse. -/
theorem test_advance_reverse :
    advanced 0x0006#15 0x100#32 0x200#32 0x81000#32 0x3000#32 = (0xFE000#32, 0x0006#15) ∧
    advanced 0x000A#15 0x100#32 0x200#32 0x81000#32 0x3000#32 = (0x82000#32, 0x0008#15) ∧
    advanced 0x000E#15 0x100#32 0x200#32 0x81000#32 0x3000#32 = (0x82000#32, 0x000E#15) ∧
    advanced 0x0002#15 0#32 0x800#32 0x800#32 0x1000#32 = (0xFFFFF800#32, 0x0002#15) := by decide +kernel
/-- Section 2.6, degenerate loops and wraps. -/
theorem test_advance_degenerate :
    advanced 0x0006#15 0x100#32 0x100#32 0x80000#32 0x800#32 = (0x7F800#32, 0x0007#15) ∧
    advanced 0x200C#15 0x200#32 0x100#32 0x80000#32 0x800#32 = (0x80800#32, 0x600D#15) ∧
    advanced 0x0008#15 0#32 0x800#32 0x3FF800#32 0x401000#32 = (0xFFFFF800#32, 0x000A#15) ∧
    advanced 0x0000#15 0#32 0x800#32 0x3FF000#32 0x1000#32 = (0x400000#32, 0x0001#15) := by decide +kernel
/-- Section 2.7, the first TICK. -/
theorem test_envelope :
    envelope { resetVoice with lvol := 0xFFF0#16, lvramp := 0x0008#16, rvol := 0x0005#16, rvramp := 0xFFFC#16,
                               k1 := 0x1000#16, k1ramp := 0xFFF0#16, k2 := 0x1000#16, k2ramp := 0x0010#16,
                               ecount := 10#16 } =
      { resetVoice with lvol := 0xFFF8#16, lvramp := 0x0008#16, rvol := 0x0001#16, rvramp := 0xFFFC#16,
                        k1 := 0x0FF0#16, k1ramp := 0xFFF0#16, k2 := 0x1010#16, k2ramp := 0x0010#16, ecount := 9#16,
                        tickcnt := 1#3 } := by decide +kernel

/-! ### ADP (spec/95 section 2.9) -/

theorem test_adpWrData :
    adpAfter (.adpWrData 0x17#8) fresh [] (fun p => p.fq[0] == 7#4 && p.wr == 1#3 && p.rd == 0#3) = true := by
  decide +kernel
/-- 3-bit mode stores 0xFC as code 8. -/
theorem test_adpWrData_3bit :
    adpAfter (.adpWrData 0xFC#8) (onlyAdp { freshAdp with ctl := 2#8, wr := 7#3, rd := 3#3 }) []
      (fun p => p.fq[7] == 8#4 && p.wr == 0#3) = true := by decide +kernel
theorem test_adpWrCtrl_rate :
    adpAfter (.adpWrCtrl 0x04#8) fresh [.rate .adp 6000] (fun p => p.ctl == 0x04#8) = true := by decide +kernel
/-- Only bits 7:4 changed: no event. -/
theorem test_adpWrCtrl_silent :
    adpAfter (.adpWrCtrl 0xF4#8) (onlyAdp { freshAdp with ctl := 4#8, signal := 30, step := 8 }) []
      (fun p => p.signal == 30 && p.step == 8) = true := by decide +kernel
theorem test_adpRd : adpAfter (.adpRd 0x1234#16) fresh [.readByte .adp 0#8] (fun p => p == freshAdp) = true := by
  decide +kernel
theorem test_adpTick_first :
    adpAfter .adpTick (onlyAdp { freshAdp with fq := freshAdp.fq.set 0 7#4, wr := 1#3 }) [.out .adp [480]]
      (fun p => p.signal == 30 && p.step == 8 && p.rd == 1#3) = true := by decide +kernel
theorem test_adpTick_idle :
    adpAfter .adpTick (onlyAdp { freshAdp with signal := -30, step := 8 }) [.out .adp [-28]]
      (fun p => p.signal == -30) = true := by decide +kernel

/-! ### SWE (spec/95 section 2.10) -/

theorem test_sweWrCtrl0 :
    sweAfter (.sweWrCtrl0 0#12 0x4F#8) fresh [] (fun q => q.v0.wf == 2#3 && q.v0.vol == 15#4 && q.v1 == zeroSweVoice) =
      true := by decide +kernel
theorem test_sweWrCtrl1 :
    sweAfter (.sweWrCtrl1 0#12 0xE7#8) fresh [] (fun q => q.v1.wf == 7#3 && q.v1.vol == 7#4 && q.v0 == zeroSweVoice) =
      true := by decide +kernel
theorem test_sweWrLatch0 :
    sweAfter (.sweWrLatch0 0xEFF#12 0#8) fresh [] (fun q => q.v0.pl == 0x100#12 && q.v0.frq == 0#12) = true := by
  decide +kernel
theorem test_sweWrLatch1 :
    sweAfter (.sweWrLatch1 0#12 0xFF#8) fresh [] (fun q => q.v1.pl == 0xFFF#12 && q.v0.pl == 0#12) = true := by
  decide +kernel
theorem test_sweWrTrig0 :
    sweAfter (.sweWrTrig0 0xABC#12 0x12#8) (onlySwe { freshSwe with v0 := { zeroSweVoice with pl := 0x100#12 } }) []
      (fun q => q.v0.frq == 0x100#12 && q.v0.pl == 0x100#12 && q.v0.cnt == 0#12) = true := by decide +kernel
theorem test_sweWrTrig1 :
    sweAfter (.sweWrTrig1 0xABC#12 0x12#8) (onlySwe { freshSwe with v1 := { zeroSweVoice with pl := 0x100#12 } }) []
      (fun q => q.v1.frq == 0x100#12 && q.v0.frq == 0#12) = true := by decide +kernel
theorem test_sweRd : sweAfter (.sweRd 0#16) fresh [.readByte .swe 0#8] (fun q => q == freshSwe) = true := by
  decide +kernel
/-- The largest output: nibbles 7 and volumes 15 on both voices. -/
theorem test_sweTick_largest :
    sweAfter .sweTick
      (onlySwe
        { freshSwe with v0 := { zeroSweVoice with vol := 15#4 }, v1 := { zeroSweVoice with vol := 15#4 },
                        lut := { size := 0x102, mem := [(0, 7#8), (1, 7#8), (0x100, 7#8), (0x101, 7#8)] } })
      [.out .swe [26880]] (fun q => q.v0.addr == 1#5 && q.v1.addr == 1#5) = true := by decide +kernel
/-- Bits 7:4 of a byte are ignored and the nibble is signed: -8 * 15 * 128. -/
theorem test_sweTick_negative :
    sweAfter .sweTick
      (onlySwe { freshSwe with v1 := { zeroSweVoice with vol := 15#4 }, lut := { size := 0x102, mem := [(0x101, 0xF8#8)] } })
      [.out .swe [-15360]] (fun q => q.v1.addr == 1#5) = true := by decide +kernel

/-! ### Witnesses: for each statement with hypotheses, a concrete case that meets them -/

/-- `fresh` with one command issued. -/
def issued (w : Word) : State := { fresh with pending := [{ word := w, oob := OutOfBand.empty }] }
/-- A step answers a next state with property `P`. -/
def steps (s : State) (P : State → Bool) : Bool :=
  match step s with
  | .next t => P t
  | _ => false
/-- A step takes its word from the queue and records it as malformed, and the engines stay as they were. -/
def malformed (s : State) : Bool :=
  steps s fun t =>
    t.pending == s.pending.tail && t.wve == s.wve && t.adp == s.adp && t.swe == s.swe &&
      (t.trace.drop s.trace.length).any fun entry =>
        match entry with
        | .refused (.malformedWord _) => true
        | _ => false

theorem test_witness_DecodeEncode :
    ((Instr.wveWrNone 14#4 0xFF#8).wf && (Instr.wveWrNone 14#4 0xFF#8).groupOk 3#2 &&
      (Instr.wveWrNone 5#4 0#8).groupOk 0#2 && (Instr.wveWrNone 8#4 0#8).groupOk 2#2 &&
      (Instr.ignored (.wveWrite 0x40#16 0#8)).wf && (Instr.ignored (.adpWrite 2#16 0#8)).wf &&
      (Instr.ignored (.sweWrite 0x6000#16 0#8)).wf && (Instr.wveWrO4 0#8).groupOk 2#2) = true := by decide
theorem test_witness_EncodeDecode : decodesTo 2#2 0x00002303#32 (.wveWrNone 8#4 0x03#8) = true := by decide
/-- Each way to be malformed at the edge of its field, and beside it a word that is not. -/
theorem test_witness_MalformedRefused :
    (issued 0xC0000000#32).pending ≠ [] ∧ malformed (issued 0xC0000000#32) = true ∧
    malformed (issued 0xB9000000#32) = true ∧ malformed (issued 0x08000001#32) = true ∧
    malformed (issued 0x10000100#32) = true ∧ malformed (issued 0x38000001#32) = true ∧
    malformed (issued 0x10000000#32) = false ∧ malformed (issued 0x08FFFF00#32) = false ∧
    malformed (issued 0x80FFFFFF#32) = false := by decide +kernel
theorem test_witness_StepRunsDecoded :
    (issued 0x00003F45#32).pending = [{ word := 0x00003F45#32, oob := OutOfBand.empty }] ∧
    decodesTo (issued 0x00003F45#32).pageGroup 0x00003F45#32 (.wveWrPage 0x45#8) = true ∧
    (Instr.wveWrPage 0x45#8).wf = true ∧ (latched 2#2).wve.isSome = true ∧ State.reset.wve = none := by decide +kernel
theorem test_witness_ResetAndIdle : State.reset.pending = [] ∧ fresh.pending = [] := by decide +kernel
theorem test_witness_InvStep : (issued 0x38000000#32).Inv ∧ steps (issued 0x38000000#32) (fun _ => true) = true := by
  decide +kernel
theorem test_witness_StepKeepsR62 :
    (issued 0x78000000#32).Inv ∧
    steps (issued 0x78000000#32) (fun t => t.wve.isSome && t.adp.isSome && (issued 0x78000000#32).wve.isSome) = true := by
  decide +kernel
theorem test_witness_EngineFrame :
    completes .wveTick fresh (fun _ => true) = true ∧ Instr.engine .wveTick ≠ .adp ∧ Instr.engine .wveTick ≠ .swe ∧
    completes .adpTick fresh (fun _ => true) = true ∧ Instr.engine .adpTick ≠ .wve := by decide +kernel
/-- A WVE LOAD with its operands and an ADP MUTE with its own. -/
theorem test_witness_EnginesCommute :
    Instr.engine .wveLoad ≠ Instr.engine .adpMute ∧
    completes .wveLoad (withLoad fresh 0 0 [0x34#8] true)
      (fun t => completes .adpMute (withMask t 1#32) (fun u => u.adp.any fun p => p.amute)) = true := by decide +kernel
theorem test_witness_AbsentRefused :
    State.reset.present .wve = false ∧ Instr.isStart .wveTick = false ∧
    refuses .wveTick State.reset (.absentInstance .wve) = true ∧ refuses .adpStop State.reset (.absentInstance .adp) = true ∧
    refuses (.ignored (.sweWrite 0x6000#16 0#8)) State.reset (.absentInstance .swe) = true := by decide +kernel
theorem test_witness_RefusedExactly :
    refuses .wveLoad (withLoad fresh 4 0 [] false) (.badRegion 4) = true ∧
    completes .wveLoad (withLoad fresh 3 0 [] false) (fun t => t.trace == [.done []]) = true ∧
    refuses .adpStart State.reset (.illegalConfig .adp) = true ∧ refuses .adpStart fresh (.startPresent .adp) = true := by
  decide +kernel
theorem test_witness_KeptByAll :
    completes .wveTick fresh (fun t => t.wve.isSome && fresh.wve.isSome) = true ∧
    completes (.adpWrCtrl 1#8) fresh (fun t => t.adp.isSome) = true ∧
    completes .sweTick fresh (fun t => t.swe.isSome) = true := by decide +kernel
/-- The four sources of a rate event. -/
theorem test_witness_RateEvents :
    completes .wveReset fresh (fun t => t.trace == [.done [.rate .wve (mkRat 1 16)]]) = true ∧
    completes .adpReset fresh (fun t => t.trace == [.done [.rate .adp 8000]]) = true ∧
    completes .sweReset fresh (fun t => t.trace == [.done [.rate .swe 1]]) = true ∧
    completes (.adpWrCtrl 0x0D#8) fresh (fun t => t.trace == [.done [.rate .adp 2000]]) = true := by decide +kernel

/-- Voice 0 has its interrupt pending; the latch holds zeros. -/
def irqState : State :=
  onlyWve { freshWve.setVoice 0 { resetVoice with ctrl := 0x4001#15 } with irqOut := true }
theorem test_witness_IrqSticky :
    irqState.wve.any (fun w => (w.voice 0).ctrl.getLsbD 14) = true ∧
    completes .wveReset irqState (fun t => t.wve.any fun w => !(w.voice 0).ctrl.getLsbD 14) = true ∧
    completes (.wveWrCtrl 0#8) irqState (fun t => t.wve.any fun w => !(w.voice 0).ctrl.getLsbD 14) = true := by
  decide +kernel

/-- Voice 0 of a fresh WVE with the given CTRL, loop, position and frequency. -/
def loopWve (ctrl : BitVec 15) (start loopEnd accum freq : Word) : Wve :=
  freshWve.setVoice 0
    { resetVoice with ctrl := ctrl, loopStart := start, loopEnd := loopEnd, accum := accum, freq := freq }
/-- The forward step of section 2.6 over the end of [0x80000, 0x100000). -/
def overEnd (ctrl : BitVec 15) : Wve := loopWve ctrl 0x100#32 0x200#32 0xFF000#32 0x3000#32
/-- The reverse step of section 2.6 below its start. -/
def belowStart (ctrl : BitVec 15) : Wve := loopWve ctrl 0x100#32 0x200#32 0x81000#32 0x3000#32

theorem test_witness_IrqSource :
    (overEnd 0x2004#15).cfg.actv ≤ 31 ∧ wveConfigLegal (overEnd 0x2004#15).cfg = true ∧
    ((overEnd 0x2004#15).voice 0).ctrl.getLsbD 14 = false ∧
    completes .wveTick (onlyWve (overEnd 0x2004#15)) (fun t => t.wve.any fun w => (w.voice 0).ctrl.getLsbD 14) = true ∧
    completes .wveTick (onlyWve (belowStart 0x2006#15)) (fun t => t.wve.any fun w => (w.voice 0).ctrl.getLsbD 14) = true ∧
    completes (.wveWrCtrl 0#8) (onlyWve { freshWve with wlatch := 0x00004000#32 })
      (fun t => t.wve.any fun w => (w.voice 0).ctrl.getLsbD 14) = true := by decide +kernel
theorem test_witness_IrqOutLevel :
    wveAfter .wveTick irqState [.out .wve [0, 0]] (fun w => w.irqOut) = true ∧
    wveAfter (.wveWrCtrl 1#8) irqState [] (fun w => !w.irqOut) = true := by decide +kernel

/-- PAGE selects voice 5 in group `g` (the first voice and the last one for the other two pages). -/
def selects (p : BitVec 7) (v g : Nat) : Bool := decide (p.toNat % 32 = v) && decide (p.toNat / 32 = g)
theorem test_witness_LaneWrites : (latched 3#2).wve.any (fun w => w.wlatch == 0x123456FF#32) = true := by decide +kernel
theorem test_witness_CommitCtrl :
    (latched 0#2).wve.any (fun w => selects w.page 5 0) = true ∧ selects 0x1F#7 31 0 = true ∧ selects 0x00#7 0 0 = true := by
  decide +kernel
theorem test_witness_CommitGroup0 : (latched 0#2).wve.any (fun w => selects w.page 5 0) = true := by decide +kernel
theorem test_witness_CommitGroup1 : (latched 1#2).wve.any (fun w => selects w.page 5 1) = true := by decide +kernel
theorem test_witness_CommitGroup2 : (latched 2#2).wve.any (fun w => selects w.page 5 2) = true := by decide +kernel
theorem test_witness_CommitPageNone : (latched 3#2).wve.any (fun w => selects w.page 5 3) = true := by decide +kernel

/-- A voice with a different value in every register that can be read. -/
def distinctVoice : Voice where
  ctrl := 0x4005
  freq := 0x11000001
  loopStart := 0x12000002
  loopEnd := 0x13000003
  accum := 0x14000004
  lvol := 0x2005
  lvramp := 0x2106
  rvol := 0x2207
  rvramp := 0x2308
  ecount := 0x2409
  k1 := 0x300A
  k1ramp := 0x310B
  k2 := 0x320C
  k2ramp := 0x330D
  o1 := 0x3400000E
  o2 := 0x3500000F
  o3 := 0x36000010
  o4 := 0xFFFFFFFE
  tickcnt := 5
/-- That voice selected in group `g`. -/
def distinctState (g : BitVec 2) : State :=
  onlyWve { freshWve.setVoice 5 distinctVoice with page := g ++ 5#5, rlatch := 0xDEADBEEF#32 }
/-- RLATCH after a lane-0 read of register number `n` in group `g`. -/
def snapshot (g : BitVec 2) (n : Nat) : Nat :=
  match exec (.wveRdL0 (BitVec.ofNat 4 n)) (distinctState g) with
  | .next t => (t.wve.map fun w => w.rlatch.toNat).getD 0xBAD
  | _ => 0xBAD
/-- All 19 readable (group, N) pairs, and the pairs next to them that select no register. -/
theorem test_witness_ReadSnapshot :
    (List.range 6).map (snapshot 0#2) = [0x4005, 0x11000001, 0x12000002, 0x13000003, 0x14000004, 0] ∧
    (List.range 6).map (snapshot 1#2) = [0x2005, 0x2106, 0x2207, 0x2308, 0x2409, 0] ∧
    (List.range 9).map (snapshot 2#2) =
      [0x300A, 0x310B, 0x320C, 0x330D, 0x3400000E, 0x3500000F, 0x36000010, 0xFFFFFFFE, 0] ∧
    [snapshot 0#2 14, snapshot 3#2 0, snapshot 3#2 14] = [0, 0, 0] ∧
    [snapshot 0#2 15, snapshot 1#2 15, snapshot 2#2 15, snapshot 3#2 15] = [0x05, 0x25, 0x45, 0x65] := by decide +kernel
theorem test_witness_ReadLanes : rlatchState.wve.any (fun w => w.rlatch == 0x00032000#32) = true := by decide +kernel
theorem test_witness_WriteReadBack : (latched 0#2).wve.any (fun w => w.page.extractLsb' 5 2 == 0#2) = true := by
  decide +kernel

theorem test_witness_Resets : fresh.wve.isSome = true ∧ fresh.adp.isSome = true ∧ fresh.swe.isSome = true := by
  decide +kernel
/-- The operands of a START: WVE with ACTV `actv`, ADP and SWE with clock `clock`. -/
def startState (actv clock div : Nat) (draw : StartDraw) : State :=
  { State.reset with
      oob := { OutOfBand.empty with
                wveCfg := { clock := 1, actv := actv }, adpCfg := { clock := clock },
                sweCfg := { clock := 1, clockDiv := div }, draw := draw } }
/-- Every case of START, for every engine. -/
theorem test_witness_Starts :
    refuses .wveStart fresh (.startPresent .wve) = true ∧
    refuses .wveStart (startState 32 1 1 .success) (.illegalConfig .wve) = true ∧
    completes .wveStart (startState 31 1 1 .allocationFailure)
      (fun t => t.wve == none && t.trace == [.done [.diag .wve .allocationFailure]]) = true ∧
    completes .wveStart (startState 31 1 1 .success) (fun t => t.wve.isSome) = true ∧
    refuses .adpStart fresh (.startPresent .adp) = true ∧
    refuses .adpStart (startState 31 0 1 .success) (.illegalConfig .adp) = true ∧
    completes .adpStart (startState 31 1 1 .allocationFailure)
      (fun t => t.adp == none && t.trace == [.done [.diag .adp .allocationFailure]]) = true ∧
    completes .adpStart (startState 31 1 1 .success) (fun t => t.adp.isSome) = true ∧
    refuses .sweStart fresh (.startPresent .swe) = true ∧
    refuses .sweStart (startState 31 1 0 .success) (.illegalConfig .swe) = true ∧
    completes .sweStart (startState 31 1 1 .allocationFailure)
      (fun t => t.swe == none && t.trace == [.done [.diag .swe .allocationFailure]]) = true ∧
    completes .sweStart (startState 31 1 1 .success) (fun t => t.swe.isSome) = true := by decide +kernel
/-- The edges of the legal values of R10, and a table that breaks each law of R218. -/
theorem test_witness_LegalWveConfig :
    wveConfigLegal { clock := 1, actv := 31, accBits := 31, chans := 8 } = true ∧
    wveConfigLegal { clock := 1, actv := 0, chans := 1, ulaw := .entries (List.replicate 256 0) } = true ∧
    wveConfigLegal { clock := 0, actv := 0 } = false ∧ wveConfigLegal { clock := 1, actv := 32 } = false ∧
    wveConfigLegal { clock := 1, actv := 0, accBits := 30 } = false ∧
    wveConfigLegal { clock := 1, actv := 0, accBits := 33 } = false ∧
    wveConfigLegal { clock := 1, actv := 0, chans := 0 } = false ∧
    wveConfigLegal { clock := 1, actv := 0, chans := 9 } = false ∧
    wveConfigLegal { clock := 1, actv := 0, ulaw := .entries (List.replicate 255 0) } = false ∧
    wveConfigLegal { clock := 1, actv := 0, ulaw := .entries (List.replicate 256 1) } = false ∧
    wveConfigLegal { clock := 1, actv := 0, ulaw := .entries (5 :: List.replicate 127 0 ++ -5 :: List.replicate 127 0) } =
      false := by decide +kernel
theorem test_witness_Stops : fresh.wve.isSome = true ∧ State.reset.wve = none ∧ State.reset.adp = none := by
  decide +kernel
theorem test_witness_WveLoad :
    refuses .wveLoad (withLoad fresh 4 0 [0#8] false) (.badRegion 4) = true ∧
    Store.wf 2 (freshWve.region 3) = true ∧
    Store.wf 2 { size := 2, mem := [(0, 0xAA#8), (1, 0xBB#8), (2, 0xCC#8)] } = true ∧
    completes .wveLoad (withLoad fresh 3 1 [0x11#8, 0x22#8] false)
      (fun t => t.wve.any fun w => (w.region 3).word 0 == some 0x1100#16 && (w.region 3).word 1 == some 0x0022#16) = true := by
  decide +kernel
theorem test_witness_SweLoad :
    fresh.swe.any (fun q => Store.wf 1 q.lut) = true ∧ Store.wf 1 { size := 2, mem := [(1, 7#8)] } = true := by
  decide +kernel
theorem test_witness_Mutes : fresh.wve.isSome = true ∧ fresh.adp.isSome = true ∧ fresh.swe.isSome = true := by
  decide +kernel
theorem test_witness_NoEffectCommands :
    completes (.ignored (.wveRead 0x40#16)) fresh (fun t => t.trace == [.done [.readByte .wve 0#8]]) = true ∧
    completes (.ignored (.adpWrite 2#16 0xFF#8)) fresh (fun t => t.trace == [.done []]) = true ∧
    completes (.ignored (.sweWrite 0xF123#16 0xFF#8)) fresh (fun t => t.trace == [.done []]) = true := by decide +kernel
theorem test_witness_GenerateSucceeds :
    fresh.wve.isSome = true ∧ fresh.adp.isSome = true ∧ fresh.swe.isSome = true := by decide +kernel

/-- Voice 1 is above ACTV = 0. -/
theorem test_witness_TickFrame :
    wveAfter .wveTick (onlyWve (freshWve.setVoice 1 { distinctVoice with ctrl := 0#15 })) [.out .wve [0, 0]]
      (fun w => w.voice 1 == { distinctVoice with ctrl := 0#15 }) = true ∧ freshWve.cfg.actv < (1 : Fin 32).val := by
  decide +kernel
/-- Two instances that agree on voice 0, the parameters, the regions and the mute mask, and in nothing else. -/
theorem test_witness_TickIsolation :
    let w := overEnd 0x2004#15
    let w' := { w.setVoice 1 distinctVoice with page := 0x45#7, wlatch := 7#32, rlatch := 9#32, irqOut := true }
    w'.cfg = w.cfg ∧ w'.regions = w.regions ∧ w'.wmute = w.wmute ∧ w'.voice 0 = w.voice 0 ∧ w' ≠ w := by decide +kernel
theorem test_witness_TickOrder :
    ([2, 0, 3, 1] : List (Fin 32)).Nodup ∧ ∀ i : Fin 32, i ∈ ([2, 0, 3, 1] : List (Fin 32)) ↔ i.val ≤ 3 := by
  decide +kernel
/-- Two running voices on one channel (R230): `65344 + 65344 + 255 + 65344` of spec/95 section 2.5. -/
theorem test_witness_TickOutputSum :
    let v : Voice := { resetVoice with ctrl := 0x0030#15 }
    let base := startedWve { clock := 1, actv := 1, chans := 1 }
    let loaded := base.setRegion 0 { size := 2, mem := [(1, 0x10#8), (3, 0x10#8)] }
    wveAfter .wveTick (onlyWve ((loaded.setVoice 0 v).setVoice 1 { v with lvol := 0x8000#16 })) [.out .wve [196287]]
      (fun w => decide (0 < w.cfg.chans)) = true := by decide +kernel
/-- A stopped voice and a muted one. -/
theorem test_witness_FrozenVoice :
    (freshWve.voice 0).ctrl.getLsbD 0 = true ∧ { overEnd 0x0004#15 with wmute := 1#32 }.wmute.getLsbD 0 = true ∧
    wveAfter .wveTick (onlyWve { overEnd 0x0004#15 with wmute := 1#32 }) [.out .wve [0, 0]]
      (fun w => (w.voice 0).accum == 0xFF000#32 && (w.voice 0).tickcnt == 1#3) = true := by decide +kernel
/-- Voice 0 is the last walked one; ECOUNT = 0, ECOUNT = 1, and a negative ramp with TICKCNT 0 and 7. -/
theorem test_witness_EnvelopeTick :
    let v : Voice := { resetVoice with k1ramp := 0xFF00#16, ecount := 1#16 }
    (0 : Fin 32).val ≤ freshWve.cfg.actv ∧
    wveAfter .wveTick fresh [.out .wve [0, 0]] (fun w => (w.voice 0).ecount == 0#16 && (w.voice 0).tickcnt == 1#3) = true ∧
    wveAfter .wveTick (onlyWve (freshWve.setVoice 0 v)) [.out .wve [0, 0]]
      (fun w => (w.voice 0).k1 == 0xFEFF#16 && (w.voice 0).ecount == 0#16) = true ∧
    wveAfter .wveTick (onlyWve (freshWve.setVoice 0 { v with tickcnt := 7#3 })) [.out .wve [0, 0]]
      (fun w => (w.voice 0).k1 == 0xFFFF#16 && (w.voice 0).tickcnt == 0#3) = true := by decide +kernel
/-- The successor index wraps at the top of the accumulator (R214). -/
theorem test_witness_SampleAndInterpolation :
    wveConfigLegal freshWve.cfg = true ∧ successorIndex freshWve.cfg { resetVoice with accum := 0xFFFFF800#32 } = 0 ∧
    sampleIndex { resetVoice with accum := 0xFFFFF800#32 } = 0x1FFFFF := by decide +kernel
/-- `overEnd` under a host-given FILTER_STAGE2: pole 3 is `p2 * 3`, pole 4 is `p3 + x`, whatever FMODE is. -/
def ruledWve (ctrl : BitVec 15) : Wve :=
  let rule : PoleRule := { pole3 := .mul (.var .p2) (.const 3), pole4 := .add (.var .p3) (.var .x) }
  let w := overEnd ctrl
  { w with cfg := { w.cfg with stage2 := .rules rule rule rule rule } }
theorem test_witness_FilterPoles :
    State.Runs (onlyWve (overEnd 0x0004#15)) (overEnd 0x0004#15) 0 ∧ (overEnd 0x0004#15).cfg.stage2 = .standard ∧
    State.Runs (onlyWve (ruledWve 0x0034#15)) (ruledWve 0x0034#15) 0 ∧ wveConfigLegal (ruledWve 0x0034#15).cfg = true ∧
    ((-32768 : Int) ≤ 32767) := by decide +kernel
/-- R224: with x = 4096, p1 = 4095 and p2 = 4094 (R221, R223), so pole 3 is 12282 and pole 4 is 16378; the output is
floor(16378 * 32704 / 2048) at full volume (R227, R228). -/
theorem test_wveTick_rules :
    let v : Voice := { resetVoice with ctrl := 0x0000#15, loopEnd := 0x100#32 }
    let w := { ruledWve 0#15 with regions := (freshWve.setRegion 0 { size := 2, mem := [(1, 0x10#8), (3, 0x10#8)] }).regions }
    wveAfter .wveTick (onlyWve (w.setVoice 0 v)) [.out .wve [261536, 261536]]
      (fun w => (w.voice 0).o3 == 12282#32 && (w.voice 0).o4 == 16378#32) = true := by
  decide +kernel
/-- A forward voice landing one below its loop end, and a reverse one landing on its loop start. -/
theorem test_witness_AdvanceInside :
    let f := loopWve 0x0004#15 0x100#32 0x200#32 0xFF000#32 0xFFF#32
    let r := loopWve 0x0006#15 0x100#32 0x200#32 0x81000#32 0x1000#32
    (State.Runs (onlyWve f) f 0 ∧ ¬ CrossesForward f.cfg (f.voice 0) ∧ ¬ CrossesReverse f.cfg (f.voice 0)) ∧
    State.Runs (onlyWve r) r 0 ∧ ¬ CrossesForward r.cfg (r.voice 0) ∧ ¬ CrossesReverse r.cfg (r.voice 0) := by
  unfold CrossesForward CrossesReverse; decide +kernel
/-- The stop policy, landing on the end, and an empty loop left in reverse. -/
theorem test_witness_CrossStop :
    let f := loopWve 0x0000#15 0#32 0x800#32 0x3FF000#32 0x1000#32
    let r := loopWve 0x0006#15 0x100#32 0x100#32 0x80000#32 0x800#32
    (State.Runs (onlyWve f) f 0 ∧ (f.voice 0).ctrl.extractLsb' 2 2 = 0#2 ∧ CrossesForward f.cfg (f.voice 0)) ∧
    State.Runs (onlyWve r) r 0 ∧ loopHigh r.cfg (r.voice 0) ≤ loopLow r.cfg (r.voice 0) ∧
    CrossesReverse r.cfg (r.voice 0) := by
  unfold CrossesForward CrossesReverse; decide +kernel
/-- What the three looping policies ask of a voice that crosses. -/
def CrossingCase (loop : BitVec 2) (w : Wve) (P : Prop) : Prop :=
  State.Runs (onlyWve w) w 0 ∧ (w.voice 0).ctrl.extractLsb' 2 2 = loop ∧
    loopLow w.cfg (w.voice 0) < loopHigh w.cfg (w.voice 0) ∧ P
theorem test_witness_CrossLoopForward :
    CrossingCase 1#2 (overEnd 0x0004#15) (CrossesForward freshWve.cfg ((overEnd 0x0004#15).voice 0)) ∧
    CrossingCase 1#2 (belowStart 0x0006#15) (CrossesReverse freshWve.cfg ((belowStart 0x0006#15).voice 0)) := by
  unfold CrossingCase CrossesForward CrossesReverse; decide +kernel
theorem test_witness_CrossBounce :
    CrossingCase 2#2 (overEnd 0x2008#15) (CrossesForward freshWve.cfg ((overEnd 0x2008#15).voice 0)) ∧
    CrossingCase 2#2 (belowStart 0x000A#15) (CrossesReverse freshWve.cfg ((belowStart 0x000A#15).voice 0)) := by
  unfold CrossingCase CrossesForward CrossesReverse; decide +kernel
theorem test_witness_CrossLoopWithBounce :
    CrossingCase 3#2 (overEnd 0x000C#15) (CrossesForward freshWve.cfg ((overEnd 0x000C#15).voice 0)) ∧
    CrossingCase 3#2 (belowStart 0x200E#15) (CrossesReverse freshWve.cfg ((belowStart 0x200E#15).voice 0)) := by
  unfold CrossingCase CrossesForward CrossesReverse; decide +kernel
/-- ACTV = 24 as in spec/95 section 2.11. -/
theorem test_witness_FirstTickAfterStart :
    wveConfigLegal { clock := 16000000, actv := 24 } = true ∧
    wveAfter .wveTick (onlyWve (startedWve { clock := 16000000, actv := 24 })) [.out .wve [0, 0]]
      (fun w => (w.voice 24).ctrl == 1#15 && (w.voice 25).ctrl == 0#15) = true := by decide +kernel
theorem test_witness_MissingDataSilence :
    let w := loopWve 0x0300#15 0#32 0x800#32 0#32 0x800#32
    State.Runs (onlyWve w) w 0 ∧ w.cfg.stage2 = .standard ∧
    (w.region ((w.voice 0).ctrl.extractLsb' 8 2).toFin).size = 0 ∧ (w.voice 0).o1 = 0#32 ∧ (w.voice 0).o4 = 0#32 := by
  decide +kernel

/-- `n` codes waiting from cursor 3 on. -/
def queued (n : BitVec 3) : Adp :=
  { freshAdp with fq := Vector.ofFn fun k => BitVec.ofNat 4 (k.val + 1), rd := 3#3, wr := 3#3 + n }
/-- Six codes waiting: accepted. Seven: rejected. -/
theorem test_witness_AdpData :
    ((queued 6#3).wr.toNat + 1) % 8 ≠ (queued 6#3).rd.toNat ∧ ((queued 7#3).wr.toNat + 1) % 8 = (queued 7#3).rd.toNat ∧
    adpAfter (.adpWrData 9#8) (onlyAdp (queued 7#3)) [.diag .adp .fifoOverflow] (fun p => p == queued 7#3) = true := by
  decide +kernel
theorem test_witness_AdpCtrl :
    adpAfter (.adpWrCtrl 0x05#8) (onlyAdp { freshAdp with ctl := 4#8, signal := 30, step := 8 }) [.rate .adp 6000]
      (fun p => p.signal == 0 && p.step == 0) = true := by decide +kernel
/-- Held in reset, muted, decoding and idle. -/
theorem test_witness_AdpTick :
    adpAfter .adpTick (onlyAdp { queued 2#3 with ctl := 1#8, signal := 30 }) [.out .adp [0]] (fun p => p.signal == 0) = true ∧
    adpAfter .adpTick (onlyAdp { queued 2#3 with amute := true }) [.out .adp [0]] (fun p => p.rd == 3#3) = true ∧
    adpAfter .adpTick (onlyAdp (queued 1#3)) [.out .adp [288]] (fun p => p.rd == 4#3 && p.step == 2) = true ∧
    adpAfter .adpTick (onlyAdp (queued 0#3)) [.out .adp [0]] (fun p => p.rd == 3#3) = true := by decide +kernel
/-- Each clause: six and seven codes waiting, a decoding TICK, TICKs that decode nothing, RESET, another command, START. -/
theorem test_witness_AdpFifoQueue :
    fifoOccupancy (queued 6#3) = 6 ∧ fifoOccupancy (queued 7#3) = 7 ∧ fifoCodes (queued 2#3) = [4#4, 5#4] ∧
    completes (.adpWrData 9#8) (onlyAdp (queued 6#3)) (fun t => t.adp.any fun p => fifoOccupancy p == 7) = true ∧
    completes .adpTick (onlyAdp (queued 1#3)) (fun t => t.adp.any fun p => fifoOccupancy p == 0) = true ∧
    completes .adpTick (onlyAdp { queued 1#3 with amute := true }) (fun t => t.adp.isSome) = true ∧
    completes .adpReset (onlyAdp (queued 7#3)) (fun t => t.adp.any fun p => fifoOccupancy p == 0) = true ∧
    completes (.adpWrCtrl 1#8) (onlyAdp (queued 7#3)) (fun t => t.adp.any fun p => fifoOccupancy p == 7) = true ∧
    completes .adpStart (startState 0 1 1 .success) (fun t => t.adp.any fun p => fifoOccupancy p == 0) = true := by
  decide +kernel
theorem test_witness_SweWrites : fresh.swe.isSome = true := by decide +kernel
/-- Voice 0 muted, voice 1 at an underflow that wraps its address. -/
theorem test_witness_SweTick :
    sweAfter .sweTick
      (onlySwe { freshSwe with v1 := { zeroSweVoice with addr := 31#5, frq := 9#12, vol := 1#4 }, smute := 1#2,
                               lut := { size := 0x101, mem := [(0x100, 5#8)] } })
      [.out .swe [640]] (fun q => q.v1.addr == 0#5 && q.v1.cnt == 9#12 && q.v0 == zeroSweVoice) = true := by decide +kernel
theorem test_witness_OutputRanges :
    AdpInv (queued 1#3) ∧ AdpInv { freshAdp with signal := -2048, step := 48 } ∧
    adpAfter .adpTick (onlyAdp { freshAdp with signal := -2048, step := 48 }) [.out .adp [-1920]] (fun _ => true) = true ∧
    fresh.swe.isSome = true := by decide +kernel
/-- CNT = FRQ and CNT = 0, the two ends of a period. -/
theorem test_witness_SwePeriod :
    let q := { freshSwe with v0 := { zeroSweVoice with frq := 2#12, cnt := 2#12, addr := 31#5 },
                             v1 := { zeroSweVoice with frq := 0x100#12 } }
    q.smute.getLsbD 0 = false ∧ q.v0.cnt.toNat ≤ q.v0.frq.toNat ∧ q.smute.getLsbD 1 = false ∧
    q.v1.cnt.toNat ≤ q.v1.frq.toNat ∧ (onlySwe q).swe = some q := by decide +kernel

end Sys2Proof.Tests
end

/-! The step, the frame of a command and the legal WVE configurations (R8, R9, R10, R92, R218, R360). -/

namespace Sys2Proof.Machine

open Sys2Proof

/-! ### The step (R8) -/

/-- A step on a word that decodes executes the command, presented (R8, R100). -/
theorem step_of_decode_ok {s : State} {c : Command} {rest : List Command} {i : Instr} (hp : s.pending = c :: rest)
    (hd : decode s.pageGroup c.word = .ok i) : step s = exec i (s.presenting c rest) := by
  simp only [step, hp, hd]

theorem state_pageGroup_present {s : State} {w : Wve} (h : s.wve = some w) :
    s.pageGroup = w.page.extractLsb' 5 2 := by
  simp only [State.pageGroup, h]
  rfl

theorem state_pageGroup_absent {s : State} (h : s.wve = none) : s.pageGroup = 0#2 := by
  simp only [State.pageGroup, h]

/-- Settles O4: the step's own equation, and the two cases of PAGE.GROUP. -/
theorem stepRunsDecoded : Obligations.StepRunsDecoded :=
  ⟨fun _ _ _ _ hp hd _ => step_of_decode_ok hp hd, fun _ _ => state_pageGroup_present, fun _ => state_pageGroup_absent⟩

/-! ### The frame of a command (R9, R92, R360) -/

/-- Settles O10: by the engine addressed, each command maps that engine's registers and the operands to
that engine's new registers and one more observation. -/
theorem engineFrame : Obligations.EngineFrame := by
  intro i s t h
  have eq_of_next : ∀ {t' : State}, exec i s = .next t' → t' = t := fun h' => Host.Outcome.next.inj (h'.symm.trans h)
  cases he : i.engine with
  | wve =>
    obtain ⟨f, hf⟩ := exec_wve_factors he
    simp [← eq_of_next (hf s)]
  | adp =>
    obtain ⟨f, hf⟩ := exec_adp_factors he
    simp [← eq_of_next (hf s)]
  | swe =>
    obtain ⟨f, hf⟩ := exec_swe_factors he
    simp [← eq_of_next (hf s)]

/-! ### The legal WVE configurations (R10, R218)

`ulawLegal` checks a table by natural-number index over lists; the laws of R218 speak of the byte `k` and of
`k XOR 0x80`. The lemmas below turn each check into its law. -/

/-- The range R10 gives a table entry, and the sign law of R218, over every code. -/
def UlawSigned (entry : Byte → Int) : Prop :=
  ∀ k : Byte, -32768 ≤ entry k ∧ entry k ≤ 32767 ∧ entry (k ^^^ 0x80#8) = -entry k

/-- The monotonic law of R218: within a sign half a magnitude does not fall. -/
def UlawMonotonic (entry : Byte → Int) : Prop :=
  ∀ k : Byte, k ≠ 0x7F#8 → k ≠ 0xFF#8 → (entry k).natAbs ≤ (entry (k + 1#8)).natAbs

/-- The default table obeys the range and both laws of R218, code by code. -/
theorem g711Entry_lawful : UlawSigned g711Entry ∧ UlawMonotonic g711Entry := by
  unfold UlawSigned UlawMonotonic
  decide +kernel

/-- A law of every byte, read by its number. -/
theorem forall_byte_toNat_iff {P : Nat → Prop} : (∀ k : Byte, P k.toNat) ↔ ∀ n < 256, P n := by
  constructor
  · intro h n hn
    simpa [Nat.mod_eq_of_lt hn] using h (BitVec.ofNat 8 n)
  · exact fun h k => h k.toNat k.isLt

/-- Bit 7 of a code picks the sign half: `XOR 0x80` moves a code to the same place of the other half. -/
theorem toNat_xor_signBit (k : Byte) :
    (k ^^^ 0x80#8).toNat = if k.toNat < 128 then 128 + k.toNat else k.toNat - 128 := by
  revert k
  decide +kernel

/-- A property holds of every entry of a full table exactly when it holds of the entry of every byte. -/
theorem forall_mem_iff_tableEntry {values : List Int} (hl : values.length = 256) {P : Int → Prop} :
    (∀ x ∈ values, P x) ↔ ∀ k : Byte, P (tableEntry values k.toNat) := by
  rw [forall_byte_toNat_iff (P := fun n => P (tableEntry values n)), List.forall_mem_iff_getElem]
  simp only [hl]
  refine forall₂_congr fun n hn => ?_
  rw [tableEntry, List.getD_eq_getElem]

/-- The upper half negates the lower half exactly when `XOR 0x80` negates every entry. -/
theorem upperHalf_neg_iff {T : Nat → Int} :
    (∀ c < 128, T (128 + c) = -T c) ↔ ∀ k : Byte, T (k ^^^ 0x80#8).toNat = -T k.toNat := by
  simp only [toNat_xor_signBit]
  rw [forall_byte_toNat_iff (P := fun n => T (if n < 128 then 128 + n else n - 128) = -T n)]
  constructor
  · intro h n hn
    rcases Nat.lt_or_ge n 128 with hlow | hhigh
    · simpa [hlow] using h n hlow
    · obtain ⟨c, rfl⟩ := Nat.exists_eq_add_of_le hhigh
      simp [h c (by omega)]
  · intro h c hc
    simpa [hc] using h c (by omega)

/-- Both halves are monotonic entry by entry exactly when every byte but the last of each half is below the next. -/
theorem halves_monotonic_iff {M : Nat → Nat} :
    (∀ c < 127, M c ≤ M (c + 1) ∧ M (128 + c) ≤ M (128 + c + 1)) ↔
      ∀ k : Byte, k ≠ 0x7F#8 → k ≠ 0xFF#8 → M k.toNat ≤ M (k + 1#8).toNat := by
  simp only [ne_eq, ← BitVec.toNat_inj, BitVec.toNat_add, BitVec.toNat_ofNat, Nat.reducePow, Nat.reduceMod]
  rw [forall_byte_toNat_iff (P := fun n => ¬n = 127 → ¬n = 255 → M n ≤ M ((n + 1) % 256))]
  constructor
  · intro h n hn h127 h255
    rw [Nat.mod_eq_of_lt (by omega)]
    rcases Nat.lt_or_ge n 128 with hlow | hhigh
    · exact (h n (by omega)).1
    · obtain ⟨c, rfl⟩ := Nat.exists_eq_add_of_le hhigh
      exact (h c (by omega)).2
  · intro h c hc
    have hlow := h c (by omega) (by omega) (by omega)
    have hhigh := h (128 + c) (by omega) (by omega) (by omega)
    rw [Nat.mod_eq_of_lt (by omega)] at hlow hhigh
    exact ⟨hlow, hhigh⟩

/-- A table of the host's is accepted exactly when it is full and obeys R10 and R218. -/
theorem ulawLegal_entries_iff (values : List Int) :
    ulawLegal (.entries values) = true ↔
      values.length = 256 ∧ UlawSigned (ulawEntry (.entries values)) ∧ UlawMonotonic (ulawEntry (.entries values)) := by
  simp only [ulawLegal, Bool.and_eq_true, beq_iff_eq, List.all_eq_true, decide_eq_true_eq, List.mem_range, and_assoc]
  refine and_congr_right fun hl => ?_
  have hrange := forall_mem_iff_tableEntry hl (P := fun x => -32768 ≤ x ∧ x ≤ 32767)
  have hmono := halves_monotonic_iff (M := fun c => (tableEntry values c).natAbs)
  rw [hrange, hmono, upperHalf_neg_iff]
  simp only [UlawSigned, UlawMonotonic, ulawEntry, ← and_assoc, forall_and]
  exact and_right_comm

/-- Any ULAW_TABLE is accepted exactly when it obeys R10 and R218: the default one always does. -/
theorem ulawLegal_iff (t : UlawTable) :
    ulawLegal t = true ↔
      (∀ values, t = .entries values → values.length = 256) ∧ UlawSigned (ulawEntry t) ∧ UlawMonotonic (ulawEntry t) := by
  cases t with
  | g711 => exact ⟨fun _ => ⟨fun _ h => UlawTable.noConfusion h, g711Entry_lawful⟩, fun _ => rfl⟩
  | entries values =>
    rw [ulawLegal_entries_iff]
    simp only [UlawTable.entries.injEq, forall_eq']

/-- Settles O30: the numeric parameters are compared as R10 lists them, and the table obeys its laws. -/
theorem legalWveConfig : Obligations.LegalWveConfig := by
  intro c
  simp only [wveConfigLegal, Bool.and_eq_true, Bool.or_eq_true, decide_eq_true_eq, beq_iff_eq, and_assoc]
  rw [ulawLegal_iff]
  simp only [UlawSigned, UlawMonotonic, and_assoc]

end Sys2Proof.Machine

/-! What a step can do to each engine, and the invariants it keeps (R20, R24, R38, R48, R50 to R53, R57, R62, R369). -/

namespace Sys2Proof.Machine

open Sys2Proof

/-! ### What a command can do to an engine (R20, R131, R133, R134)

One relation for the three engines: `Change` says what a command can make of a present engine, `Started` what a
START can make. -/

/-- One engine, present or absent, before and after a command. -/
inductive EngineEffect {α : Type} (Started : α → Prop) (Change : α → α → Prop) : Option α → Option α → Prop
  /-- the command is refused, fails or is another engine's -/
  | same (x : Option α) : EngineEffect Started Change x x
  /-- STOP (R133) -/
  | stopped (x : Option α) : EngineEffect Started Change x none
  /-- START (R131) -/
  | started {a : α} (h : Started a) : EngineEffect Started Change none (some a)
  /-- any other command of a present engine -/
  | changed {a b : α} (h : Change a b) : EngineEffect Started Change (some a) (some b)

namespace EngineEffect

variable {α : Type} {Started : α → Prop} {Change : α → α → Prop} {x y : Option α}

/-- A property that START establishes and every change keeps is kept by the command. -/
theorem invariant {P : α → Prop} (hstart : ∀ a, Started a → P a) (hchange : ∀ a b, Change a b → P a → P b)
    (h : EngineEffect Started Change x y) (hx : ∀ a ∈ x, P a) : ∀ b ∈ y, P b := by
  cases h with
  | same => exact hx
  | stopped => simp
  | started h => simpa using hstart _ h
  | changed h => simpa using hchange _ _ h (hx _ rfl)

/-- A reflexive relation that every change obeys holds of an engine present before and after the command. -/
theorem related {R : α → α → Prop} (hrefl : ∀ a, R a a) (hchange : ∀ a b, Change a b → R a b)
    (h : EngineEffect Started Change x y) : ∀ a ∈ x, ∀ b ∈ y, R a b := by
  cases h with
  | same =>
    intro a ha b hb
    exact Option.mem_unique ha hb ▸ hrefl a
  | stopped => simp
  | started => simp
  | changed h => simpa using hchange _ _ h

end EngineEffect

/-- START makes the engine where there was none, or leaves it as it was (R131, R132). -/
theorem engineEffect_of_start {α : Type} {Started : α → Prop} {Change : α → α → Prop} {get : State → Option α}
    {e : Engine} {legal : Bool} {made s t : State} {a : α} (hemit : ∀ s' es, get (State.emit s' es) = get s')
    (hrefuse : ∀ s' r, get (State.refuse s' r) = get s') (hmade : get made = some a)
    (ha : legal = true → Started a) (h : startWith e (get s).isSome legal made s = .next t) :
    EngineEffect Started Change (get s) (get t) := by
  obtain ⟨-, rfl⟩ | ⟨-, -, rfl⟩ | ⟨hs, hl, -, rfl⟩ | ⟨-, -, -, rfl⟩ := startWith_next_iff.1 h
  · rw [hrefuse]
    exact .same _
  · rw [hrefuse]
    exact .same _
  · have hnone : get s = none := by simpa using hs
    rw [hemit, hmade, hnone]
    exact .started (ha hl)
  · rw [hemit]
    exact .same _

/-! ### WVE -/

/-- What WVE.START can make (R131). -/
def WveStarted (w : Wve) : Prop := ∃ cfg, wveConfigLegal cfg = true ∧ w = startedWve cfg

/-- What a command other than START and STOP can make of a present WVE. -/
inductive WveChange (w : Wve) : Wve → Prop
  /-- lane writes, reads, PAGE, MUTE and the commands without effect (R160, R162, R163, R182, R138, R112) -/
  | latches (page : BitVec 7) (wlatch rlatch wmute : Word) :
      WveChange w { w with page := page, wlatch := wlatch, rlatch := rlatch, wmute := wmute }
  /-- a commit to a voice register but CTRL; ACCUM takes a masked value (R165 to R181) -/
  | commit {i : Fin 32} {x : Voice} (hctrl : x.ctrl = (w.voice i).ctrl)
      (haccum : x.accum = (w.voice i).accum ∨ ∃ val, x.accum = val &&& accMask w.cfg) :
      WveChange w { w.setVoice i x with wlatch := 0#32 }
  /-- a commit to CTRL (R164) -/
  | commitCtrl (i : Fin 32) (val : Word) :
      WveChange w { settleIrq (w.setVoice i { w.voice i with ctrl := ctrlKept val }) with wlatch := 0#32 }
  /-- LOAD (R135) -/
  | load (r : Fin 4) (expand : Bool) (off : Nat) (bytes : List Byte) :
      WveChange w (w.setRegion r ((w.region r).loadRegion expand off bytes))
  /-- RESET (R390) -/
  | reset : WveChange w (resetWve w)
  /-- TICK (R210) -/
  | tick : WveChange w (settleIrq (walkVoices (walkedVoices w.cfg.actv) w).1)

/-- A command that leaves a present WVE as it is. -/
theorem WveChange.unchanged (w : Wve) : WveChange w w := .latches w.page w.wlatch w.rlatch w.wmute

/-- The WVE, present or absent, before and after a command. -/
abbrev WveEffect : Option Wve → Option Wve → Prop := EngineEffect WveStarted WveChange

theorem onWve_effect {s t : State} {f : Wve → Wve × List Event} (h : onWve s f = .next t)
    (hf : ∀ w, WveChange w (f w).1) : WveEffect s.wve t.wve := by
  obtain ⟨w, hw, rfl⟩ | ⟨-, rfl⟩ := onWve_next_iff.1 h
  · rw [hw]
    exact .changed (hf w)
  · exact .same _

theorem wveLoad_effect {s t : State} (h : execWveLoad s = .next t) : WveEffect s.wve t.wve := by
  unfold execWveLoad at h
  split at h
  · cases h
    exact .same _
  · split at h
    · exact onWve_effect h fun _ => .load _ _ _ _
    · cases h
      exact .same _

theorem wveStop_effect {s t : State} (h : execWveStop s = .next t) : WveEffect s.wve t.wve := by
  unfold execWveStop at h
  split at h <;> cases h
  · exact .same _
  · exact .stopped _

/-- What a command can do to the WVE, said once. -/
theorem exec_wve_effect {i : Instr} {s t : State} (h : exec i s = .next t) : WveEffect s.wve t.wve := by
  by_cases he : i.engine = .wve
  case neg =>
    obtain ⟨hframe, -⟩ := engineFrame i s t h
    rw [hframe he]
    exact .same _
  cases i with
  | wveWrL0 | wveWrL1 | wveWrL2 | wveWrPage | wveWrNone | wveRdL0 | wveMute =>
    exact onWve_effect h fun _ => .latches _ _ _ _
  | wveRdL1 | wveRdL2 | wveRdL3 => exact onWve_effect h .unchanged
  | wveWrCtrl => exact onWve_effect h fun _ => .commitCtrl _ _
  | wveWrFreq | wveWrStart | wveWrEnd | wveWrLvol | wveWrLvramp | wveWrRvol | wveWrRvramp | wveWrEcount | wveWrK1
  | wveWrK1ramp | wveWrK2 | wveWrK2ramp | wveWrO1 | wveWrO2 | wveWrO3 | wveWrO4 =>
    exact onWve_effect h fun _ => .commit rfl (.inl rfl)
  | wveWrAccum => exact onWve_effect h fun _ => .commit rfl (.inr ⟨_, rfl⟩)
  | wveLoad => exact wveLoad_effect h
  | wveReset => exact onWve_effect h fun _ => .reset
  | wveStart =>
    exact engineEffect_of_start (get := State.wve) emit_wve refuse_wve rfl (fun hl => ⟨_, hl, rfl⟩) h
  | wveStop => exact wveStop_effect h
  | wveTick => exact onWve_effect h fun _ => .tick
  | ignored acc =>
    cases acc with
    | wveWrite | wveRead => exact onWve_effect h .unchanged
    | adpWrite | sweWrite => cases he
  | _ => cases he

/-! ### ADP -/

/-- What ADP.START can make (R131). -/
def AdpStarted (p : Adp) : Prop := ∃ cfg, adpConfigLegal cfg = true ∧ p = startedAdp cfg

/-- What a command other than START and STOP can make of a present ADP. -/
inductive AdpChange (p : Adp) : Adp → Prop
  /-- the FIFO, CTL and the mute bit, in any way (R139, R271, R274, R278) -/
  | registers (fq : Vector (BitVec 4) 8) (rd wr : BitVec 3) (ctl : Byte) (amute : Bool) :
      AdpChange p { p with fq := fq, rd := rd, wr := wr, ctl := ctl, amute := amute }
  /-- SIGNAL and STEP are zeroed: RESET, a change of RST, a TICK held in reset (R276, R283, R391) -/
  | silenced (fq : Vector (BitVec 4) 8) (rd wr : BitVec 3) (ctl : Byte) :
      AdpChange p { p with signal := 0, step := 0, fq := fq, rd := rd, wr := wr, ctl := ctl }
  /-- a decoding TICK (R285) -/
  | decoded : AdpChange p (decodeCode p)

/-- A command that leaves a present ADP as it is. -/
theorem AdpChange.unchanged (p : Adp) : AdpChange p p := .registers p.fq p.rd p.wr p.ctl p.amute

/-- The ADP, present or absent, before and after a command. -/
abbrev AdpEffect : Option Adp → Option Adp → Prop := EngineEffect AdpStarted AdpChange

theorem onAdp_effect {s t : State} {f : Adp → Adp × List Event} (h : onAdp s f = .next t)
    (hf : ∀ p, AdpChange p (f p).1) : AdpEffect s.adp t.adp := by
  obtain ⟨p, hp, rfl⟩ | ⟨-, rfl⟩ := onAdp_next_iff.1 h
  · rw [hp]
    exact .changed (hf p)
  · exact .same _

theorem adpWrData_effect {d : Byte} {s t : State} (h : execAdpWrData d s = .next t) : AdpEffect s.adp t.adp := by
  refine onAdp_effect h fun p => ?_
  split
  · exact .unchanged p
  · exact .registers _ _ _ _ _

theorem writeCtl_change (p : Adp) (d : Byte) : AdpChange p (writeCtl p d) := by
  unfold writeCtl
  split
  · exact .registers _ _ _ _ _
  · exact .silenced _ _ _ _

theorem adpTick_effect {s t : State} (h : execAdpTick s = .next t) : AdpEffect s.adp t.adp := by
  refine onAdp_effect h fun p => ?_
  split_ifs
  · exact .silenced _ _ _ _
  · exact .unchanged p
  · exact .unchanged p
  · exact .decoded

theorem adpStop_effect {s t : State} (h : execAdpStop s = .next t) : AdpEffect s.adp t.adp := by
  unfold execAdpStop at h
  split at h <;> cases h
  · exact .same _
  · exact .stopped _

/-- What a command can do to the ADP, said once. -/
theorem exec_adp_effect {i : Instr} {s t : State} (h : exec i s = .next t) : AdpEffect s.adp t.adp := by
  by_cases he : i.engine = .adp
  case neg =>
    obtain ⟨-, hframe, -⟩ := engineFrame i s t h
    rw [hframe he]
    exact .same _
  cases i with
  | adpWrData => exact adpWrData_effect h
  | adpWrCtrl => exact onAdp_effect h fun p => writeCtl_change p _
  | adpRd | adpLoad => exact onAdp_effect h .unchanged
  | adpMute => exact onAdp_effect h fun _ => .registers _ _ _ _ _
  | adpReset => exact onAdp_effect h fun _ => .silenced _ _ _ _
  | adpStart =>
    exact engineEffect_of_start (get := State.adp) emit_adp refuse_adp rfl (fun hl => ⟨_, hl, rfl⟩) h
  | adpStop => exact adpStop_effect h
  | adpTick => exact adpTick_effect h
  | ignored acc =>
    cases acc with
    | adpWrite => exact onAdp_effect h .unchanged
    | wveWrite | wveRead | sweWrite => cases he
  | _ => cases he

/-! ### SWE -/

/-- What SWE.START can make (R131). -/
def SweStarted (q : Swe) : Prop := ∃ cfg, sweConfigLegal cfg = true ∧ q = startedSwe cfg

/-- What a command other than START and STOP can make of a present SWE. -/
inductive SweChange (q : Swe) : Swe → Prop
  /-- the voices and the mute bits, in any way (R140, R321 to R326, R329, R392) -/
  | voices (v0 v1 : SweVoice) (smute : BitVec 2) : SweChange q { q with v0 := v0, v1 := v1, smute := smute }
  /-- LOAD (R136) -/
  | load (off : Nat) (bytes : List Byte) : SweChange q { q with lut := q.lut.loadLut off bytes }

/-- A command that leaves a present SWE as it is. -/
theorem SweChange.unchanged (q : Swe) : SweChange q q := .voices q.v0 q.v1 q.smute

/-- The SWE, present or absent, before and after a command. -/
abbrev SweEffect : Option Swe → Option Swe → Prop := EngineEffect SweStarted SweChange

theorem onSwe_effect {s t : State} {f : Swe → Swe × List Event} (h : onSwe s f = .next t)
    (hf : ∀ q, SweChange q (f q).1) : SweEffect s.swe t.swe := by
  obtain ⟨q, hq, rfl⟩ | ⟨-, rfl⟩ := onSwe_next_iff.1 h
  · rw [hq]
    exact .changed (hf q)
  · exact .same _

theorem sweStop_effect {s t : State} (h : execSweStop s = .next t) : SweEffect s.swe t.swe := by
  unfold execSweStop at h
  split at h <;> cases h
  · exact .same _
  · exact .stopped _

/-- What a command can do to the SWE, said once. -/
theorem exec_swe_effect {i : Instr} {s t : State} (h : exec i s = .next t) : SweEffect s.swe t.swe := by
  by_cases he : i.engine = .swe
  case neg =>
    obtain ⟨-, -, hframe, -⟩ := engineFrame i s t h
    rw [hframe he]
    exact .same _
  cases i with
  | sweWrCtrl0 | sweWrCtrl1 | sweWrLatch0 | sweWrLatch1 | sweWrTrig0 | sweWrTrig1 | sweMute | sweReset | sweTick =>
    exact onSwe_effect h fun _ => .voices _ _ _
  | sweRd => exact onSwe_effect h .unchanged
  | sweLoad => exact onSwe_effect h fun _ => .load _ _
  | sweStart =>
    exact engineEffect_of_start (get := State.swe) emit_swe refuse_swe rfl (fun hl => ⟨_, hl, rfl⟩) h
  | sweStop => exact sweStop_effect h
  | ignored acc =>
    cases acc with
    | sweWrite => exact onSwe_effect h .unchanged
    | wveWrite | wveRead | adpWrite => cases he
  | _ => cases he

/-! ### A step (R8) -/

/-- Settles O6: the reset state and the step with an empty queue, by their own equations. -/
theorem resetAndIdle : Obligations.ResetAndIdle :=
  ⟨⟨rfl, rfl, rfl⟩, fun s hp => by simp only [step, hp]⟩

/-- What a step can do to the three engines: with no command, or with a malformed word, nothing; else what its
command does. -/
theorem step_effect {s t : State} (h : step s = .next t) :
    WveEffect s.wve t.wve ∧ AdpEffect s.adp t.adp ∧ SweEffect s.swe t.swe := by
  unfold step at h
  split at h
  · cases h
    exact ⟨.same _, .same _, .same _⟩
  · split at h
    · cases h
      exact ⟨.same _, .same _, .same _⟩
    · exact ⟨exec_wve_effect (s := s.presenting _ _) h, exec_adp_effect (s := s.presenting _ _) h,
        exec_swe_effect (s := s.presenting _ _) h⟩

/-! ### IRQ_OUT (R50, R369) -/

/-- IRQ_OUT's level is the OR of the pending flags. -/
theorem irqLevel_iff (w : Wve) : irqLevel w.voices = true ↔ ∃ i : Fin 32, ctrlIrq (w.voice i).ctrl = true := by
  simp only [irqLevel, List.any_eq_true, Vector.mem_toList_iff, Vector.mem_iff_getElem, Wve.voice]
  constructor
  · rintro ⟨_, ⟨n, hn, rfl⟩, hv⟩
    exact ⟨⟨n, hn⟩, hv⟩
  · rintro ⟨i, hv⟩
    exact ⟨_, ⟨i, i.isLt, rfl⟩, hv⟩

/-- The level reads CTRL of each voice and nothing else. -/
theorem irqLevel_congr {w w' : Wve} (h : ∀ i, (w'.voice i).ctrl = (w.voice i).ctrl) :
    irqLevel w'.voices = irqLevel w.voices := by
  rw [Bool.eq_iff_iff, irqLevel_iff, irqLevel_iff]
  simp only [h]

/-- The level is 0 when no voice has its flag set. -/
theorem irqLevel_eq_false {w : Wve} (h : ∀ i, ctrlIrq (w.voice i).ctrl = false) : irqLevel w.voices = false := by
  rw [Bool.eq_false_iff, ne_eq, irqLevel_iff]
  simp [h]

/-- Settles O18: a TICK and a CTRL commit both end by giving IRQ_OUT its level. -/
theorem irqOutLevel : Obligations.IrqOutLevel := by
  rintro i s w hw (rfl | ⟨d, rfl⟩)
  · exact ⟨_, _, wveTick_present hw, rfl, irqLevel_iff _⟩
  · exact ⟨_, _, onWve_present hw _, rfl, irqLevel_iff _⟩

/-! ### ACCUM after an advance (R38, R231 to R238) -/

/-- An exact position in [0, MASK] is stored in ACCUM as it is. -/
theorem toNat_toAccum_lt {c : WveConfig} (h : wveConfigLegal c = true) {z : Int} (h0 : 0 ≤ z) (hz : z < accModulus c) :
    (toAccum z).toNat < 2 ^ c.accBits := by
  obtain ⟨n, rfl⟩ := Int.eq_ofNat_of_zero_le h0
  have hn : n < 2 ^ c.accBits := by exact_mod_cast (show (n : Int) < 2 ^ c.accBits from hz)
  rwa [toNat_toAccum h hn]

theorem nextPosition_bounds (c : WveConfig) (v : Voice) : 0 ≤ nextPosition c v ∧ nextPosition c v < accModulus c := by
  have hm : 0 < accModulus c := by
    unfold accModulus
    positivity
  unfold nextPosition
  split <;> exact ⟨Int.emod_nonneg _ hm.ne', Int.emod_lt_of_pos _ hm⟩

/-- The loop boundaries are positions of the accumulator. -/
theorem loopBounds {c : WveConfig} (h : wveConfigLegal c = true) (v : Voice) :
    0 ≤ startBound c v ∧ endBound c v < accModulus c := by
  rw [startBound_eq h, endBound_eq h, accModulus]
  exact ⟨by positivity, by exact_mod_cast (loop_lt h v).2⟩

/-- A crossing that takes a looping policy has a loop that is not empty (R238). -/
theorem startBound_lt_endBound {c : WveConfig} {v : Voice} (h : crossPolicy c v ≠ .stop) :
    startBound c v < endBound c v := by
  unfold crossPolicy at h
  split at h
  · exact absurd rfl h
  · omega

/-- A remainder modulo the loop length is a distance inside the loop (R235, R237). -/
theorem loopOffset_bounds {c : WveConfig} {v : Voice} (h : crossPolicy c v ≠ .stop) (z : Int) :
    0 ≤ z % (endBound c v - startBound c v) ∧
      z % (endBound c v - startBound c v) < endBound c v - startBound c v := by
  have := startBound_lt_endBound h
  exact ⟨Int.emod_nonneg _ (by omega), Int.emod_lt_of_pos _ (by omega)⟩

/-- Every policy leaves ACCUM at most MASK: the position itself, a place of the loop, or a place modulo 2^ACC_BITS. -/
theorem cross_accum_lt {c : WveConfig} (h : wveConfigLegal c = true) (v : Voice) (rev : Bool) {n : Int} (h0 : 0 ≤ n)
    (hn : n < accModulus c) : (cross c v rev n).accum.toNat < 2 ^ c.accBits := by
  unfold cross
  split
  case h_1 => exact toNat_toAccum_lt h h0 hn
  case h_3 =>
    have hm : 0 < accModulus c := by omega
    exact toNat_toAccum_lt h (Int.emod_nonneg _ hm.ne') (Int.emod_lt_of_pos _ hm)
  case h_2 hp | h_4 hp =>
    have hloop : crossPolicy c v ≠ .stop := by simp [hp]
    obtain ⟨hS, hE⟩ := loopBounds h v
    have hbelow := loopOffset_bounds hloop (startBound c v - n)
    have habove := loopOffset_bounds hloop (n - endBound c v)
    apply toNat_toAccum_lt h <;> split <;> omega

theorem advance_accum_lt {c : WveConfig} (h : wveConfigLegal c = true) (v : Voice) :
    (advance c v).accum.toNat < 2 ^ c.accBits := by
  obtain ⟨h0, hn⟩ := nextPosition_bounds c v
  unfold advance
  split
  · exact cross_accum_lt h v _ h0 hn
  · exact toNat_toAccum_lt h h0 hn

/-! ### The reserved CTRL bit (R24, R34) -/

theorem setStop_bit7 (c : BitVec 15) : (setStop c).getLsbD 7 = c.getLsbD 7 := by simp [setStop]

theorem setDir_bit7 (c : BitVec 15) (d : Bool) : (setDir c d).getLsbD 7 = c.getLsbD 7 := by
  cases d <;> simp [setDir]

theorem raiseIrq_bit7 (c : BitVec 15) : (raiseIrq c).getLsbD 7 = c.getLsbD 7 := by
  unfold raiseIrq setIrq
  split <;> simp

theorem ctrlKept_bit7 (val : Word) : (ctrlKept val).getLsbD 7 = false := by simp [ctrlKept]

/-- A crossing sets STOP, DIR and IRQ only. -/
theorem cross_bit7 (c : WveConfig) (v : Voice) (rev : Bool) (n : Int) :
    (cross c v rev n).ctrl.getLsbD 7 = v.ctrl.getLsbD 7 := by
  unfold cross
  split
  case h_1 => exact (setStop_bit7 _).trans (raiseIrq_bit7 _)
  case h_3 => exact (setDir_bit7 _ _).trans (raiseIrq_bit7 _)
  case h_2 | h_4 => exact raiseIrq_bit7 _

theorem advance_bit7 (c : WveConfig) (v : Voice) : (advance c v).ctrl.getLsbD 7 = v.ctrl.getLsbD 7 := by
  unfold advance
  split
  · exact cross_bit7 _ _ _ _
  · rfl

/-! ### Good voices -/

/-- A voice is good after START. -/
theorem zeroVoice_inv (c : WveConfig) : VoiceInv c zeroVoice := ⟨Nat.two_pow_pos _, rfl⟩

/-- A voice is good after RESET. -/
theorem resetVoice_inv (c : WveConfig) : VoiceInv c resetVoice := ⟨Nat.two_pow_pos _, rfl⟩

/-- A TICK of a voice keeps it good, whether it runs or is frozen (R213). -/
theorem tickVoice_inv {w : Wve} {i : Fin 32} (hl : wveConfigLegal w.cfg = true) (h : VoiceInv w.cfg (w.voice i)) :
    VoiceInv w.cfg (tickVoice w i) := by
  unfold tickVoice VoiceInv
  rw [envelope_accum, envelope_ctrl]
  split
  · exact ⟨advance_accum_lt hl _, (advance_bit7 _ _).trans h.2⟩
  · exact h

/-- The walk of a TICK keeps every voice good. -/
theorem walkVoices_inv {w : Wve} (hl : wveConfigLegal w.cfg = true) (h : ∀ i, VoiceInv w.cfg (w.voice i)) (i : Fin 32) :
    VoiceInv w.cfg ((walkVoices (walkedVoices w.cfg.actv) w).1.voice i) := by
  obtain ⟨-, hwalked, hother, -⟩ := walkVoices_spec (nodup_walkedVoices w.cfg.actv) w
  by_cases hi : i ∈ walkedVoices w.cfg.actv
  · rw [hwalked i hi]
    exact tickVoice_inv hl (h i)
  · rw [hother i hi]
    exact h i

/-- Replacing one voice by a good one keeps every voice good. -/
theorem setVoice_inv {w : Wve} {c : WveConfig} (h : ∀ j, VoiceInv c (w.voice j)) {i : Fin 32} {x : Voice}
    (hx : VoiceInv c x) (j : Fin 32) : VoiceInv c ((w.setVoice i x).voice j) := by
  by_cases hj : i = j
  · subst hj
    simpa using hx
  · simpa [hj] using h j

/-- The voice a commit writes is good: CTRL is kept, ACCUM is kept or masked (R168). -/
theorem commit_inv {c : WveConfig} {v x : Voice} (hl : wveConfigLegal c = true) (h : VoiceInv c v)
    (hctrl : x.ctrl = v.ctrl) (haccum : x.accum = v.accum ∨ ∃ val, x.accum = val &&& accMask c) : VoiceInv c x := by
  refine ⟨?_, hctrl ▸ h.2⟩
  obtain hk | ⟨val, hm⟩ := haccum
  · exact hk ▸ h.1
  · rw [hm, toNat_and_accMask hl]
    exact Nat.mod_lt _ (Nat.two_pow_pos _)

/-! ### Good engines -/

theorem startedWve_inv {w : Wve} (h : WveStarted w) : WveInv w := by
  obtain ⟨cfg, hl, rfl⟩ := h
  refine ⟨hl, fun i => ?_, (irqLevel_eq_false fun i => ?_).symm, fun r => ?_⟩
  · rw [voice_startedWve]
    exact zeroVoice_inv cfg
  · rw [voice_startedWve]
    rfl
  · rw [region_startedWve]
    exact wf_empty 2

/-- Every change of a present WVE keeps it good. -/
theorem wveChange_inv {w w' : Wve} (hc : WveChange w w') (h : WveInv w) : WveInv w' := by
  obtain ⟨hl, hv, hirq, hr⟩ := h
  cases hc with
  | latches => exact ⟨hl, hv, hirq, hr⟩
  | @commit i x hctrl haccum =>
    have hkeep : ∀ j, ((w.setVoice i x).voice j).ctrl = (w.voice j).ctrl := by
      intro j
      by_cases hj : i = j
      · subst hj
        simpa using hctrl
      · simp [hj]
    exact ⟨hl, setVoice_inv hv (commit_inv hl (hv i) hctrl haccum), hirq.trans (irqLevel_congr hkeep).symm, hr⟩
  | commitCtrl i val => exact ⟨hl, setVoice_inv hv ⟨(hv i).1, ctrlKept_bit7 val⟩, rfl, hr⟩
  | load r expand off bytes =>
    refine ⟨hl, hv, hirq, fun q => ?_⟩
    by_cases hq : r = q
    · subst hq
      simpa using wf_loadRegion (hr r) expand off bytes
    · simpa [hq] using hr q
  | reset =>
    refine ⟨hl, fun i => ?_, (irqLevel_eq_false fun i => ?_).symm, hr⟩
    · rw [voice_resetWve]
      exact resetVoice_inv w.cfg
    · rw [voice_resetWve]
      rfl
  | tick =>
    have hframe := (walkVoices_spec (nodup_walkedVoices w.cfg.actv) w).1
    have hwalk := walkVoices_inv hl hv
    rw [hframe] at hwalk ⊢
    exact ⟨hl, hwalk, rfl, hr⟩

theorem startedAdp_inv {p : Adp} (h : AdpStarted p) : AdpInv p := by
  obtain ⟨cfg, hl, rfl⟩ := h
  exact ⟨hl, by simp [startedAdp]⟩

/-- Every change of a present ADP keeps it good. -/
theorem adpChange_inv {p p' : Adp} (hc : AdpChange p p') (h : AdpInv p) : AdpInv p' := by
  obtain ⟨hl, hrange⟩ := h
  cases hc with
  | registers => exact ⟨hl, hrange⟩
  | silenced => exact ⟨hl, by simp⟩
  | decoded => exact ⟨hl, (decodedSignal_bounds _ _).1, (decodedSignal_bounds _ _).2, decodedStep_le _ _⟩

theorem startedSwe_inv {q : Swe} (h : SweStarted q) : SweInv q := by
  obtain ⟨cfg, hl, rfl⟩ := h
  exact ⟨hl, wf_empty 1⟩

/-- Every change of a present SWE keeps it good. -/
theorem sweChange_inv {q q' : Swe} (hc : SweChange q q') (h : SweInv q) : SweInv q' := by
  obtain ⟨hl, hlut⟩ := h
  cases hc with
  | voices => exact ⟨hl, hlut⟩
  | load off bytes => exact ⟨hl, wf_loadLut hlut off bytes⟩

/-! ### Good states (R62) -/

/-- Settles O7: no engine is present at reset. -/
theorem invReset : Obligations.InvReset :=
  ⟨fun w hw => absurd hw (Option.not_mem_none w), fun p hp => absurd hp (Option.not_mem_none p),
    fun q hq => absurd hq (Option.not_mem_none q)⟩

/-- Settles O8: each engine is left, released, started good, or changed in a way that keeps it good. -/
theorem invStep : Obligations.InvStep := by
  rintro s t ⟨hwve, hadp, hswe⟩ h
  obtain ⟨cwve, cadp, cswe⟩ := step_effect h
  exact ⟨cwve.invariant (fun _ => startedWve_inv) (fun _ _ => wveChange_inv) hwve,
    cadp.invariant (fun _ => startedAdp_inv) (fun _ _ => adpChange_inv) hadp,
    cswe.invariant (fun _ => startedSwe_inv) (fun _ _ => sweChange_inv) hswe⟩

/-- What R62 says of a WVE present before and after a command: no region is smaller, and ACTV is the same. -/
def WveGrown (w w' : Wve) : Prop :=
  (∀ r : Fin 4, (w.region r).size ≤ (w'.region r).size) ∧ w'.cfg.actv = w.cfg.actv

theorem wveGrown_refl (w : Wve) : WveGrown w w := ⟨fun _ => le_rfl, rfl⟩

/-- Every change of a present WVE lets its regions grow only and keeps ACTV. -/
theorem wveChange_grown {w w' : Wve} (hc : WveChange w w') : WveGrown w w' := by
  cases hc with
  | latches | commit | commitCtrl | reset => exact wveGrown_refl w
  | load r expand off bytes =>
    refine ⟨fun q => ?_, rfl⟩
    by_cases hq : r = q
    · subst hq
      simpa using size_le_loadRegion (w.region r) expand off bytes
    · simp [hq]
  | tick =>
    rw [(walkVoices_spec (nodup_walkedVoices w.cfg.actv) w).1]
    exact wveGrown_refl w

/-- The FIFO holds at most 7 codes (R53). -/
theorem fifoOccupancy_le (p : Adp) : fifoOccupancy p ≤ 7 := Nat.le_of_lt_succ (p.wr - p.rd).isLt

/-- A 16-bit register is at most 0xFFFF (R39, R42). -/
theorem half_le (x : Half) : x.toNat ≤ 0xFFFF := Nat.le_of_lt_succ x.isLt

/-- Settles O9: the ranges from the good state that the step gives (O8) and from the widths of the registers, the growth
from what a step can do to a WVE. -/
theorem stepKeepsR62 : Obligations.StepKeepsR62 := by
  intro s t hs h
  obtain ⟨hwve, hadp, -⟩ := invStep s t hs h
  refine ⟨fun w' hw i => ?_, fun p' hp => ?_, (step_effect h).1.related wveGrown_refl fun _ _ => wveChange_grown⟩
  · obtain ⟨-, hvoices, -⟩ := hwve w' hw
    exact ⟨Nat.le_sub_one_of_lt (hvoices i).1, half_le _, half_le _, half_le _, half_le _⟩
  · obtain ⟨-, hlow, hhigh, hstep⟩ := hadp p' hp
    exact ⟨fifoOccupancy_le p', hstep, hlow, hhigh⟩

end Sys2Proof.Machine

/-! What each engine keeps to itself, and the lanes of a WVE register (R9, R20, R83, R88, R89, R92). -/

namespace Sys2Proof.Machine

open Sys2Proof

/-! ### The locality of a command (R9, R92) -/

/-- What each engine holds when it is present. -/
def EngineData : Engine → Type
  | .wve => Wve
  | .adp => Adp
  | .swe => Swe

/-- One engine of the block, absent or present (R20). -/
def State.data (s : State) : (e : Engine) → Option (EngineData e)
  | .wve => s.wve
  | .adp => s.adp
  | .swe => s.swe

/-- The operand port is no part of an engine. -/
theorem data_withOob (s : State) (b : OutOfBand) (e : Engine) : State.data { s with oob := b } e = s.data e := by
  cases e <;> rfl

/-- A command leaves each other engine as it was: the engine parts of O10. -/
theorem data_eq_of_exec {i : Instr} {s t : State} {b : OutOfBand} (h : exec i { s with oob := b } = .next t)
    {e : Engine} (he : i.engine ≠ e) : t.data e = s.data e := by
  obtain ⟨hwve, hadp, hswe, -⟩ := engineFrame i _ t h
  cases e with
  | wve => exact hwve he
  | adp => exact hadp he
  | swe => exact hswe he

/-- A command makes its engine's new data and its entry of the observation from that engine's data and the operands. -/
theorem exec_factors (i : Instr) :
    ∃ f : Option (EngineData i.engine) → OutOfBand → Option (EngineData i.engine) × Observation, ∀ s : State,
      ∃ t, exec i s = .next t ∧ t.data i.engine = (f (s.data i.engine) s.oob).1 ∧
        t.trace = s.trace ++ [(f (s.data i.engine) s.oob).2] := by
  generalize he : i.engine = e
  cases e with
  | wve =>
    obtain ⟨f, hf⟩ := exec_wve_factors he
    exact ⟨f, fun s => ⟨_, hf s, rfl, rfl⟩⟩
  | adp =>
    obtain ⟨f, hf⟩ := exec_adp_factors he
    exact ⟨f, fun s => ⟨_, hf s, rfl, rfl⟩⟩
  | swe =>
    obtain ⟨f, hf⟩ := exec_swe_factors he
    exact ⟨f, fun s => ⟨_, hf s, rfl, rfl⟩⟩

/-- So from two states that hold the same of its engine, a command makes the same of it and adds the same entry. -/
theorem exec_local {i : Instr} {s s' t : State} {b : OutOfBand} (hs : s'.data i.engine = s.data i.engine)
    (h : exec i { s with oob := b } = .next t) :
    ∃ t' entry, exec i { s' with oob := b } = .next t' ∧ t'.data i.engine = t.data i.engine ∧
      t.trace = s.trace ++ [entry] ∧ t'.trace = s'.trace ++ [entry] := by
  obtain ⟨f, hf⟩ := exec_factors i
  obtain ⟨_, h₁, hdata, htrace⟩ := hf { s with oob := b }
  obtain ⟨t', h', hdata', htrace'⟩ := hf { s' with oob := b }
  cases h₁.symm.trans h
  rw [data_withOob s b] at hdata htrace
  rw [data_withOob s' b, hs] at hdata' htrace'
  exact ⟨t', _, h', hdata'.trans hdata.symm, htrace, htrace'⟩

/-- Settles O11: whichever goes first, each command finds its own engine as it was (O10), so by locality it does the
same. -/
theorem enginesCommute : Obligations.EnginesCommute := by
  intro i j a b s t u hij hi hj
  obtain ⟨t', ej, hj', hjdata, hju, hjt⟩ := exec_local (data_eq_of_exec hi hij).symm hj
  obtain ⟨u', ei, hi', hidata, hit, hiu⟩ := exec_local (data_eq_of_exec hj' hij.symm) hi
  have hdata : ∀ e, u'.data e = u.data e := by
    intro e
    by_cases hie : i.engine = e
    · subst hie
      exact hidata.trans (data_eq_of_exec hj hij.symm).symm
    by_cases hje : j.engine = e
    · subst hje
      exact (data_eq_of_exec hi' hij).trans hjdata
    calc u'.data e = t'.data e := data_eq_of_exec hi' hie
      _ = s.data e := data_eq_of_exec hj' hje
      _ = t.data e := (data_eq_of_exec hi hie).symm
      _ = u.data e := (data_eq_of_exec hj hje).symm
  exact ⟨t', u', ei, ej, hj', hi', hdata .wve, hdata .adp, hdata .swe, by simp [hju, hit], by simp [hiu, hjt]⟩

/-! ### The lanes of a register (R83, R103, R108) -/

/-- The bits of the mask that `placeLane` clears a lane with. -/
theorem getLsbD_laneMask (k : Nat) : (0xFF#32).getLsbD k = decide (k < 8) := by
  have hmask : 0xFF#32 = (BitVec.allOnes 8).setWidth 32 := rfl
  rw [hmask, BitVec.getLsbD_setWidth, BitVec.getLsbD_allOnes, ← Bool.decide_and, decide_eq_decide]
  omega

/-- Placing a lane replaces the bits of that lane only. -/
theorem getLsbD_placeLane (l : Nat) (latch : Word) (d : Byte) {i : Nat} (hi : i < 32) :
    (placeLane l latch d).getLsbD i =
      if 24 - 8 * l ≤ i ∧ i < 24 - 8 * l + 8 then d.getLsbD (i - (24 - 8 * l)) else latch.getLsbD i := by
  simp only [placeLane, BitVec.getLsbD_or, BitVec.getLsbD_and, BitVec.getLsbD_not, BitVec.getLsbD_shiftLeft,
    BitVec.getLsbD_setWidth, getLsbD_laneMask, hi]
  rcases Nat.lt_or_ge i (24 - 8 * l) with hbelow | hlow
  · simp [hbelow, hbelow.not_ge]
  rcases Nat.lt_or_ge i (24 - 8 * l + 8) with hhigh | habove
  · have hbit : i - (24 - 8 * l) < 8 ∧ i - (24 - 8 * l) < 32 := by omega
    simp [hlow.not_gt, hlow, hhigh, hbit]
  · have hbit : 8 ≤ i - (24 - 8 * l) := by omega
    simp [habove.not_gt, hbit, hbit.not_gt]

/-- A placed lane reads back as the byte placed. -/
theorem laneByte_placeLane_same {l : Nat} (hl : l < 4) (latch : Word) (d : Byte) :
    laneByte l (placeLane l latch d) = d := by
  apply BitVec.eq_of_getLsbD_eq
  intro i hi
  rw [laneByte, BitVec.getLsbD_extractLsb', getLsbD_placeLane _ _ _ (by omega)]
  simp [hi]

/-- Placing a lane leaves each other lane as it was. -/
theorem laneByte_placeLane_other {k l : Nat} (hk : k < 4) (hl : l < 4) (hkl : k ≠ l) (latch : Word) (d : Byte) :
    laneByte l (placeLane k latch d) = laneByte l latch := by
  apply BitVec.eq_of_getLsbD_eq
  intro i hi
  rw [laneByte, laneByte, BitVec.getLsbD_extractLsb', BitVec.getLsbD_extractLsb', getLsbD_placeLane _ _ _ (by omega),
    if_neg (by omega)]

/-- The value that four lane writes assemble (R161). -/
def assembled (latch : Word) (b0 b1 b2 b3 : Byte) : Word :=
  placeLane 3 (placeLane 2 (placeLane 1 (placeLane 0 latch b0) b1) b2) b3

theorem laneByte_assembled (latch : Word) (b0 b1 b2 b3 : Byte) :
    laneByte 0 (assembled latch b0 b1 b2 b3) = b0 ∧ laneByte 1 (assembled latch b0 b1 b2 b3) = b1 ∧
      laneByte 2 (assembled latch b0 b1 b2 b3) = b2 ∧ laneByte 3 (assembled latch b0 b1 b2 b3) = b3 := by
  simp [assembled, laneByte_placeLane_same, laneByte_placeLane_other]

/-! ### Lane writes, the FREQ commit and reads of a present WVE (R88, R89, R160, R161, R165, R182, R183) -/

/-- A command of a present WVE completes, with its effect and its events. -/
theorem onWve_completes {s : State} {w : Wve} (hw : s.wve = some w) (f : Wve → Wve × List Event) :
    ∃ t, onWve s f = .next t ∧ t.wve = some (f w).1 ∧ t.trace = s.trace ++ [.done (f w).2] :=
  ⟨_, onWve_present hw f, rfl, rfl⟩

/-- The FREQ commit writes FREQ of the voice PAGE selects (R165). -/
theorem freqCommit_completes (d : Byte) {s : State} {w : Wve} (hw : s.wve = some w) :
    ∃ t w', exec (.wveWrFreq d) s = .next t ∧ t.wve = some w' ∧ t.trace = s.trace ++ [.done []] ∧
      w'.page = w.page ∧ (w'.voice (pageVoice w'.page)).freq = placeLane 3 w.wlatch d :=
  ⟨_, _, onWve_present hw _, rfl, rfl, rfl, congrArg Voice.freq (voice_setVoice_same _ _ _)⟩

/-- A lane-0 read with N = 1 and GROUP = 0 takes FREQ into RLATCH and returns its top byte (R182). -/
theorem freqRead_completes {s : State} {w : Wve} (hw : s.wve = some w) (hg : pageGroup w.page = 0#2) :
    ∃ t w', exec (.wveRdL0 1#4) s = .next t ∧ t.wve = some w' ∧
      t.trace = s.trace ++ [.done [.readByte .wve (laneByte 0 (w.voice (pageVoice w.page)).freq)]] ∧
      w'.rlatch = (w.voice (pageVoice w.page)).freq := by
  have hview : readView (wveTarget (pageGroup w.page) 1#4) w = (w.voice (pageVoice w.page)).freq := by rw [hg]; rfl
  rw [← hview]
  exact ⟨_, _, onWve_present hw _, rfl, rfl, rfl⟩

/-- Settles O27: the latch assembles the four bytes, the commit makes them FREQ, the lane-0 read takes FREQ into RLATCH,
and the reads return its lanes. -/
theorem writeReadBack : Obligations.WriteReadBack := by
  intro s w a b c m n o b0 b1 b2 b3 hw hg
  obtain ⟨t1, e1, hw1, r1⟩ : ∃ t, exec (.wveWrL0 a b0) s = .next t ∧ _ := onWve_completes hw _
  obtain ⟨t2, e2, hw2, r2⟩ : ∃ t, exec (.wveWrL1 b b1) t1 = .next t ∧ _ := onWve_completes hw1 _
  obtain ⟨t3, e3, hw3, r3⟩ : ∃ t, exec (.wveWrL2 c b2) t2 = .next t ∧ _ := onWve_completes hw2 _
  obtain ⟨t4, w4, e4, hw4, r4, hpage, hfreq⟩ := freqCommit_completes b3 hw3
  obtain ⟨t5, w5, e5, hw5, r5, hlatch⟩ := freqRead_completes hw4 (hpage ▸ hg)
  obtain ⟨t6, e6, hw6, r6⟩ : ∃ t, exec (.wveRdL1 m) t5 = .next t ∧ _ := onWve_completes hw5 _
  obtain ⟨t7, e7, hw7, r7⟩ : ∃ t, exec (.wveRdL2 n) t6 = .next t ∧ _ := onWve_completes hw6 _
  obtain ⟨t8, e8, -, r8⟩ : ∃ t, exec (.wveRdL3 o) t7 = .next t ∧ _ := onWve_completes hw7 _
  refine ⟨t1, t2, t3, t4, t5, t6, t7, t8, e1, e2, e3, e4, e5, e6, e7, e8, ?_⟩
  obtain ⟨h0, h1, h2, h3⟩ := laneByte_assembled w.wlatch b0 b1 b2 b3
  have hval : (w4.voice (pageVoice w4.page)).freq = assembled w.wlatch b0 b1 b2 b3 := hfreq
  simp [r1, r2, r3, r4, r5, r6, r7, r8, hlatch, hval, h0, h1, h2, h3]

end Sys2Proof.Machine

/-! The encoding of the commands: which words spell one, and that decoder and encoder agree (R100 to R107, R112, R116). -/

namespace Sys2Proof

/-! ### The decoder, by the fields of the word (R100, R101) -/

/-- The ENG field of the words of an engine (R100). -/
def Engine.code : Engine → BitVec 2
  | .wve => 0#2
  | .adp => 1#2
  | .swe => 2#2

/-- The command of a WRITE (R103, R106, R107). -/
def writeCommand (g : BitVec 2) : Engine → BitVec 16 → Byte → Instr
  | .wve => decodeWveWrite g
  | .adp => decodeAdpWrite
  | .swe => decodeSweWrite

/-- The command of a READ (R103, R278, R328). -/
def readCommand : Engine → BitVec 16 → Instr
  | .wve => decodeWveRead
  | .adp => .adpRd
  | .swe => .sweRd

theorem exists_code_eq {e : BitVec 2} (h : e ≠ 3#2) : ∃ eng : Engine, e = eng.code := by
  obtain rfl | rfl | rfl : e = 0#2 ∨ e = 1#2 ∨ e = 2#2 := by revert e; decide
  · exact ⟨.wve, rfl⟩
  · exact ⟨.adp, rfl⟩
  · exact ⟨.swe, rfl⟩

theorem kind_cases (k : BitVec 3) : k = 0#3 ∨ k = 1#3 ∨ 2 ≤ k.toNat := by
  revert k
  decide

/-- A word of an engine with Z = 0 is that engine's code packed with the word's other fields. -/
theorem exists_packWord_eq {w : Word} (heng : wordEng w ≠ 3#2) (hz : wordZ w = 0#3) :
    ∃ (eng : Engine) (k : BitVec 3) (a : BitVec 16) (d : Byte), w = packWord eng.code k a d := by
  obtain ⟨eng, he⟩ := exists_code_eq heng
  exact ⟨eng, _, _, _, he ▸ (packWord_fields w hz).symm⟩

theorem wordEngine_packWord (eng : Engine) (k : BitVec 3) (a : BitVec 16) (d : Byte) :
    wordEngine (packWord eng.code k a d) = some eng := by
  rw [wordEngine, wordEng_packWord]
  cases eng <;> rfl

theorem decode_noEngine (g : BitVec 2) {w : Word} (h : wordEng w = 3#2) : decode g w = .error .noEngine := by
  rw [decode, wordEngine, h]
  rfl

theorem decode_reservedBits (g : BitVec 2) {w : Word} (heng : wordEng w ≠ 3#2) (hz : wordZ w ≠ 0#3) :
    decode g w = .error .reservedBits := by
  obtain ⟨eng, he⟩ := exists_code_eq heng
  rw [decode, wordEngine, he]
  cases eng <;> exact if_pos hz

theorem decode_write (g : BitVec 2) (eng : Engine) (a : BitVec 16) (d : Byte) :
    decode g (packWord eng.code 0#3 a d) = .ok (writeCommand g eng a d) := by
  rw [decode, wordEngine_packWord, wordZ_packWord, wordKind_packWord, wordAddr_packWord, wordData_packWord]
  cases eng <;> rfl

theorem decode_read (g : BitVec 2) (eng : Engine) (a : BitVec 16) :
    decode g (packWord eng.code 1#3 a 0#8) = .ok (readCommand eng a) := by
  rw [decode, wordEngine_packWord, wordZ_packWord, wordKind_packWord, wordAddr_packWord, wordData_packWord]
  cases eng <;> rfl

theorem decode_read_strayData (g : BitVec 2) (eng : Engine) (a : BitVec 16) {d : Byte} (hd : d ≠ 0#8) :
    decode g (packWord eng.code 1#3 a d) = .error .strayData := by
  rw [decode, wordEngine_packWord, wordZ_packWord, wordKind_packWord, wordAddr_packWord, wordData_packWord]
  exact if_pos hd

theorem decode_control (g : BitVec 2) (eng : Engine) {k : BitVec 3} (hk : 2 ≤ k.toNat) (a : BitVec 16) (d : Byte) :
    decode g (packWord eng.code k a d) =
      if a ≠ 0#16 then .error .strayAddr
      else if d ≠ 0#8 then .error .strayData
      else .ok (decodeControl eng k) := by
  rw [decode, wordEngine_packWord, wordZ_packWord, wordKind_packWord, wordAddr_packWord, wordData_packWord]
  simp only [ne_eq, not_true_eq_false, if_false]
  split
  next => omega
  next => omega
  next => rfl

theorem decode_encodeControl (g : BitVec 2) (eng : Engine) {k : BitVec 3} (hk : 2 ≤ k.toNat) :
    decode g (encodeControl eng.code k) = .ok (decodeControl eng k) :=
  decode_control g eng hk 0#16 0#8

/-! ### The words that spell a command (R100, R101) -/

/-- The words that spell a command in group `g`, each with its command: the writes, the reads, and KIND 2 to 7 (R100). -/
inductive Spells (g : BitVec 2) : Word → Instr → Prop
  | write (eng : Engine) (a : BitVec 16) (d : Byte) : Spells g (packWord eng.code 0#3 a d) (writeCommand g eng a d)
  | read (eng : Engine) (a : BitVec 16) : Spells g (packWord eng.code 1#3 a 0#8) (readCommand eng a)
  | control (eng : Engine) (k : BitVec 3) (hk : 2 ≤ k.toNat) : Spells g (encodeControl eng.code k) (decodeControl eng k)

/-- R101's conditions: ENG = 3, Z not 0, or an ADDR or DATA where R100 says 0. -/
def Malformed (w : Word) : Prop :=
  wordEng w = 3#2 ∨ wordZ w ≠ 0#3 ∨ (wordKind w = 1#3 ∧ wordData w ≠ 0#8) ∨
    (2 ≤ (wordKind w).toNat ∧ (wordAddr w ≠ 0#16 ∨ wordData w ≠ 0#8))

/-- The decoder answers the command a word spells. -/
theorem decode_of_spells {g : BitVec 2} {w : Word} {i : Instr} (h : Spells g w i) : decode g w = .ok i := by
  cases h with
  | write eng a d => exact decode_write g eng a d
  | read eng a => exact decode_read g eng a
  | control eng k hk => exact decode_encodeControl g eng hk

/-- A word that meets one of R101's conditions does not decode. -/
theorem decode_of_malformed (g : BitVec 2) {w : Word} (h : Malformed w) : ∃ e, decode g w = .error e := by
  by_cases heng : wordEng w = 3#2
  · exact ⟨_, decode_noEngine g heng⟩
  by_cases hz : wordZ w = 0#3
  case neg => exact ⟨_, decode_reservedBits g heng hz⟩
  obtain ⟨eng, k, a, d, rfl⟩ := exists_packWord_eq heng hz
  simp only [Malformed, heng, hz, wordKind_packWord, wordAddr_packWord, wordData_packWord, ne_eq, not_true_eq_false,
    false_or] at h
  obtain ⟨rfl, hdata⟩ | ⟨hk, hstray⟩ := h
  · exact ⟨_, decode_read_strayData g eng a hdata⟩
  rw [decode_control g eng hk]
  by_cases haddr : a = 0#16
  · have hdata : d ≠ 0#8 := hstray.resolve_left (not_not_intro haddr)
    exact ⟨_, (if_neg (not_not_intro haddr)).trans (if_pos hdata)⟩
  · exact ⟨_, if_pos haddr⟩

/-- A word that meets none of R101's conditions spells a command. -/
theorem exists_spells (g : BitVec 2) {w : Word} (h : ¬ Malformed w) : ∃ i, Spells g w i := by
  simp only [Malformed, not_or, not_and, not_not] at h
  obtain ⟨heng, hz, hread, hcontrol⟩ := h
  obtain ⟨eng, k, a, d, rfl⟩ := exists_packWord_eq heng hz
  rw [wordKind_packWord, wordData_packWord] at hread
  rw [wordKind_packWord, wordAddr_packWord, wordData_packWord] at hcontrol
  obtain rfl | rfl | hk := kind_cases k
  · exact ⟨_, .write eng a d⟩
  · obtain rfl := hread rfl
    exact ⟨_, .read eng a⟩
  · obtain ⟨rfl, rfl⟩ := hcontrol hk
    exact ⟨_, .control eng k hk⟩

/-- The decoder answers a command exactly for the words that spell it. -/
theorem decode_eq_ok_iff {g : BitVec 2} {w : Word} {i : Instr} : decode g w = .ok i ↔ Spells g w i := by
  refine ⟨fun h => ?_, decode_of_spells⟩
  by_cases hm : Malformed w
  · obtain ⟨e, he⟩ := decode_of_malformed g hm
    cases h.symm.trans he
  · obtain ⟨j, hj⟩ := exists_spells g hm
    cases h.symm.trans (decode_of_spells hj)
    exact hj

/-- The decoder fails exactly on the words of R101, in every group. -/
theorem decode_eq_error_iff {g : BitVec 2} {w : Word} : (∃ e, decode g w = .error e) ↔ Malformed w := by
  refine ⟨fun ⟨e, he⟩ => ?_, decode_of_malformed g⟩
  by_contra hm
  obtain ⟨j, hj⟩ := exists_spells g hm
  cases he.symm.trans (decode_of_spells hj)

/-! ### The encoder writes a decoded word back (R103 to R107, R116) -/

/-- In group `g` the word of `i` is `w`: the encoder writes it, `i` is well formed, and its row is one of the group's. -/
def Encodes (g : BitVec 2) (i : Instr) (w : Word) : Prop := encode i = w ∧ i.wf = true ∧ i.groupOk g = true

theorem encodeWveWrite_fields {a : BitVec 16} (hhigh : addrHigh a = 0#10) {l : BitVec 2} (hlane : addrLane a = l)
    (d : Byte) : encodeWveWrite (addrN a) l d = packWord 0#2 0#3 a d := by
  rw [encodeWveWrite, ← hlane, wveAddr_fields a hhigh]

theorem encodeWveRead_fields {a : BitVec 16} (hhigh : addrHigh a = 0#10) {l : BitVec 2} (hlane : addrLane a = l) :
    encodeWveRead (addrN a) l = packWord 0#2 1#3 a 0#8 := by
  rw [encodeWveRead, ← hlane, wveAddr_fields a hhigh]

theorem encodeSweWrite_fields {a : BitVec 16} {f : BitVec 4} (hfn : addrFn a = f) (d : Byte) :
    encodeSweWrite f (addrP12 a) d = packWord 2#2 0#3 a d := by
  rw [encodeSweWrite, ← hfn, swe_addr_fields]

theorem lane_cases (l : BitVec 2) : l = 0#2 ∨ l = 1#2 ∨ l = 2#2 ∨ l = 3#2 := by
  revert l
  decide

/-- The register number N of a WVE register (R104). -/
def WveReg.number : WveReg → BitVec 4
  | .ctrl | .lvol | .k1 => 0#4
  | .freq | .lvramp | .k1ramp => 1#4
  | .start | .rvol | .k2 => 2#4
  | .endA | .rvramp | .k2ramp => 3#4
  | .accum | .ecount | .o1 => 4#4
  | .o2 => 5#4
  | .o3 => 6#4
  | .o4 => 7#4
  | .page => 15#4

/-- Whether PAGE.GROUP `g` has a WVE register; PAGE is in every group (R104). -/
def WveReg.inGroup (g : BitVec 2) : WveReg → Bool
  | .ctrl | .freq | .start | .endA | .accum => g == 0#2
  | .lvol | .lvramp | .rvol | .rvramp | .ecount => g == 1#2
  | .k1 | .k1ramp | .k2 | .k2ramp | .o1 | .o2 | .o3 | .o4 => g == 2#2
  | .page => true

/-- R104's table, read from its registers. -/
theorem wveTarget_eq_some_iff {g : BitVec 2} {n : BitVec 4} {r : WveReg} :
    wveTarget g n = some r ↔ n = r.number ∧ r.inGroup g = true := by
  cases r <;> revert g n <;> decide

theorem encodes_decodeCommit (g : BitVec 2) (n : BitVec 4) (d : Byte) :
    Encodes g (decodeCommit g n d) (encodeWveWrite n 3#2 d) := by
  cases h : wveTarget g n with
  | none =>
    have hpage : n ≠ WveReg.page.number := by
      rintro rfl
      cases h.symm.trans (wveTarget_eq_some_iff.2 ⟨rfl, rfl⟩)
    rw [decodeCommit, h]
    exact ⟨rfl, bne_iff_ne.2 hpage, beq_iff_eq.2 h⟩
  | some r =>
    obtain ⟨rfl, hg⟩ := wveTarget_eq_some_iff.1 h
    rw [decodeCommit, h]
    cases r <;> exact ⟨rfl, rfl, hg⟩

theorem encodes_decodeWveWrite (g : BitVec 2) (a : BitVec 16) (d : Byte) :
    Encodes g (decodeWveWrite g a d) (packWord 0#2 0#3 a d) := by
  unfold decodeWveWrite
  split
  next hhigh =>
    obtain hlane | hlane | hlane | hlane := lane_cases (addrLane a) <;>
      simp only [hlane, ← encodeWveWrite_fields hhigh hlane]
    · exact ⟨rfl, rfl, rfl⟩
    · exact ⟨rfl, rfl, rfl⟩
    · exact ⟨rfl, rfl, rfl⟩
    · exact encodes_decodeCommit g _ d
  next hhigh => exact ⟨rfl, bne_iff_ne.2 hhigh, rfl⟩

theorem encodes_decodeWveRead (g : BitVec 2) (a : BitVec 16) :
    Encodes g (decodeWveRead a) (packWord 0#2 1#3 a 0#8) := by
  unfold decodeWveRead
  split
  next hhigh =>
    obtain hlane | hlane | hlane | hlane := lane_cases (addrLane a) <;> rw [hlane] <;>
      exact ⟨encodeWveRead_fields hhigh hlane, rfl, rfl⟩
  next hhigh => exact ⟨rfl, bne_iff_ne.2 hhigh, rfl⟩

theorem encodes_decodeAdpWrite (g : BitVec 2) (a : BitVec 16) (d : Byte) :
    Encodes g (decodeAdpWrite a d) (packWord 1#2 0#3 a d) := by
  unfold decodeAdpWrite
  split
  next h =>
    obtain rfl : a = 0#16 := BitVec.eq_of_toNat_eq h
    exact ⟨rfl, rfl, rfl⟩
  next h =>
    obtain rfl : a = 1#16 := BitVec.eq_of_toNat_eq h
    exact ⟨rfl, rfl, rfl⟩
  next h0 h1 => exact ⟨rfl, decide_eq_true ((Nat.two_le_iff _).2 ⟨h0, h1⟩), rfl⟩

theorem encodes_decodeSweWrite (g : BitVec 2) (a : BitVec 16) (d : Byte) :
    Encodes g (decodeSweWrite a d) (packWord 2#2 0#3 a d) := by
  unfold decodeSweWrite
  split
  case h_7 h0 h1 h2 h3 h4 h5 =>
    have hfn : 6 ≤ (addrFn a).toNat := by
      simp only [imp_false] at h0 h1 h2 h3 h4 h5
      omega
    exact ⟨rfl, decide_eq_true hfn, rfl⟩
  all_goals exact ⟨encodeSweWrite_fields (BitVec.eq_of_toNat_eq ‹_›) d, rfl, rfl⟩

theorem encodes_decodeControl (g : BitVec 2) (eng : Engine) {k : BitVec 3} (hk : 2 ≤ k.toNat) :
    Encodes g (decodeControl eng k) (encodeControl eng.code k) := by
  have hkind : k = 2#3 ∨ k = 3#3 ∨ k = 4#3 ∨ k = 5#3 ∨ k = 6#3 ∨ k = 7#3 := by
    revert k
    decide
  obtain rfl | rfl | rfl | rfl | rfl | rfl := hkind <;> cases eng <;> exact ⟨rfl, rfl, rfl⟩

/-- The word that spells a command is its own. -/
theorem encodes_of_spells {g : BitVec 2} {w : Word} {i : Instr} (h : Spells g w i) : Encodes g i w := by
  cases h with
  | write eng a d =>
    cases eng with
    | wve => exact encodes_decodeWveWrite g a d
    | adp => exact encodes_decodeAdpWrite g a d
    | swe => exact encodes_decodeSweWrite g a d
  | read eng a =>
    cases eng with
    | wve => exact encodes_decodeWveRead g a
    | adp | swe => exact ⟨rfl, rfl, rfl⟩
  | control eng k hk => exact encodes_decodeControl g eng hk

/-- Settles O2: a word that decodes spells its command, and the encoder writes each such word back. -/
theorem encodeDecode : Obligations.EncodeDecode := fun _ _ _ h => encodes_of_spells (decode_eq_ok_iff.1 h)

/-! ### The decoder reads an encoded command back (R103 to R107, R116) -/

theorem decodeCommit_none {g : BitVec 2} {n : BitVec 4} (h : wveTarget g n = none) (d : Byte) :
    decodeCommit g n d = .wveWrNone n d := by
  rw [decodeCommit, h]

theorem decodeAdpWrite_ignored {a : BitVec 16} (h : 2 ≤ a.toNat) (d : Byte) :
    decodeAdpWrite a d = .ignored (.adpWrite a d) := by
  unfold decodeAdpWrite
  split
  next => omega
  next => omega
  next => rfl

theorem decodeSweWrite_ignored {a : BitVec 16} (h : 6 ≤ (addrFn a).toNat) (d : Byte) :
    decodeSweWrite a d = .ignored (.sweWrite a d) := by
  unfold decodeSweWrite
  split
  case h_7 => rfl
  all_goals omega

/-- The word of a lane-3 write decodes to the row that R104's table gives in the current group. -/
theorem decode_commitWord (g : BitVec 2) (n : BitVec 4) (d : Byte) :
    decode g (encodeWveWrite n 3#2 d) = .ok (decodeCommit g n d) := by
  refine (decode_write g .wve _ d).trans ?_
  simp [writeCommand, decodeWveWrite, addrHigh_wveAddr, addrN_wveAddr, addrLane_wveAddr]

theorem decode_encode_ignored (g : BitVec 2) {acc : IgnoredAccess} (h : acc.wf = true) :
    decode g (encode (.ignored acc)) = .ok (.ignored acc) := by
  cases acc with
  | wveWrite a d => exact (decode_write g .wve a d).trans (congrArg _ (if_neg (bne_iff_ne.1 h)))
  | wveRead a => exact (decode_read g .wve a).trans (congrArg _ (if_neg (bne_iff_ne.1 h)))
  | adpWrite a d => exact (decode_write g .adp a d).trans (congrArg _ (decodeAdpWrite_ignored (of_decide_eq_true h) d))
  | sweWrite a d => exact (decode_write g .swe a d).trans (congrArg _ (decodeSweWrite_ignored (of_decide_eq_true h) d))

/-- Settles O1: by the row of the command, from what the decoder makes of a packed word. A commit's row fixes its group,
where R104's table gives its register. -/
theorem decodeEncode : Obligations.DecodeEncode := by
  intro g i hwf hg
  cases i with
  | wveWrL0 n d | wveWrL1 n d | wveWrL2 n d =>
    refine (decode_write g .wve _ d).trans ?_
    simp [writeCommand, decodeWveWrite, addrHigh_wveAddr, addrN_wveAddr, addrLane_wveAddr]
  | wveWrCtrl d | wveWrFreq d | wveWrStart d | wveWrEnd d | wveWrAccum d =>
    obtain rfl : g = 0#2 := beq_iff_eq.1 hg
    exact decode_commitWord 0#2 _ d
  | wveWrLvol d | wveWrLvramp d | wveWrRvol d | wveWrRvramp d | wveWrEcount d =>
    obtain rfl : g = 1#2 := beq_iff_eq.1 hg
    exact decode_commitWord 1#2 _ d
  | wveWrK1 d | wveWrK1ramp d | wveWrK2 d | wveWrK2ramp d | wveWrO1 d | wveWrO2 d | wveWrO3 d | wveWrO4 d =>
    obtain rfl : g = 2#2 := beq_iff_eq.1 hg
    exact decode_commitWord 2#2 _ d
  | wveWrPage d => exact decode_commitWord g 15#4 d
  | wveWrNone n d => exact (decode_commitWord g n d).trans (congrArg _ (decodeCommit_none (beq_iff_eq.1 hg) d))
  | wveRdL0 n | wveRdL1 n | wveRdL2 n | wveRdL3 n =>
    refine (decode_read g .wve _).trans ?_
    simp [readCommand, decodeWveRead, addrHigh_wveAddr, addrN_wveAddr, addrLane_wveAddr]
  | wveLoad | wveMute | wveReset | wveStart | wveStop | wveTick => exact decode_encodeControl g .wve (by decide)
  | adpWrData d | adpWrCtrl d => exact decode_write g .adp _ d
  | adpRd a => exact decode_read g .adp a
  | adpLoad | adpMute | adpReset | adpStart | adpStop | adpTick => exact decode_encodeControl g .adp (by decide)
  | sweWrCtrl0 a d | sweWrCtrl1 a d | sweWrLatch0 a d | sweWrLatch1 a d | sweWrTrig0 a d | sweWrTrig1 a d =>
    refine (decode_write g .swe _ d).trans ?_
    simp [writeCommand, decodeSweWrite, addrFn_append, addrP12_append]
  | sweRd a => exact decode_read g .swe a
  | sweLoad | sweMute | sweReset | sweStart | sweStop | sweTick => exact decode_encodeControl g .swe (by decide)
  | ignored acc => exact decode_encode_ignored g hwf

/-! ### Words written out (R100 to R107) -/

theorem decode_of_encode_eq {g : BitVec 2} {w : Word} {i : Instr} (hw : encode i = w) (hwf : i.wf = true)
    (hg : i.groupOk g = true) : decode g w = .ok i :=
  hw ▸ decodeEncode g i hwf hg

/-- Settles O5: each of the thirteen words is the one the encoder writes for its command (O1), and the last has ENG = 3. -/
theorem knownWords : Obligations.KnownWords :=
  have known := @decode_of_encode_eq
  ⟨known rfl rfl rfl, known rfl rfl rfl, known rfl rfl rfl, known rfl rfl rfl, known rfl rfl rfl, known rfl rfl rfl,
    known rfl rfl rfl, known rfl rfl rfl, known rfl rfl rfl, known rfl rfl rfl, known rfl rfl rfl, known rfl rfl rfl,
    known rfl rfl rfl, decode_noEngine 0#2 rfl⟩

end Sys2Proof

namespace Sys2Proof.Machine

open Sys2Proof

/-! ### What a command records (R360) -/

/-- A command is recorded by one entry, which is not the refusal of a malformed word: that one is the step's (R360). -/
def RecordsCommand (s t : State) : Prop := ∃ o, t.trace = s.trace ++ [o] ∧ ∀ e, o ≠ .refused (.malformedWord e)

theorem recordsCommand_emit {s s' : State} (h : s'.trace = s.trace) (es : List Event) : RecordsCommand s (s'.emit es) :=
  ⟨.done es, by rw [emit_trace, h], fun _ => Observation.noConfusion⟩

theorem recordsCommand_refuse (s : State) {r : RefusalReason} (hr : ∀ e, r ≠ .malformedWord e) :
    RecordsCommand s (s.refuse r) :=
  ⟨.refused r, rfl, fun e h => hr e (Observation.refused.inj h)⟩

theorem recordsCommand_absent (s : State) (e : Engine) : RecordsCommand s (s.refuse (.absentInstance e)) :=
  recordsCommand_refuse s fun _ => RefusalReason.noConfusion

theorem onWve_records {s t : State} {f : Wve → Wve × List Event} (h : onWve s f = .next t) : RecordsCommand s t := by
  obtain ⟨w, -, rfl⟩ | ⟨-, rfl⟩ := onWve_next_iff.1 h
  · exact recordsCommand_emit rfl _
  · exact recordsCommand_absent s _

theorem onAdp_records {s t : State} {f : Adp → Adp × List Event} (h : onAdp s f = .next t) : RecordsCommand s t := by
  obtain ⟨p, -, rfl⟩ | ⟨-, rfl⟩ := onAdp_next_iff.1 h
  · exact recordsCommand_emit rfl _
  · exact recordsCommand_absent s _

theorem onSwe_records {s t : State} {f : Swe → Swe × List Event} (h : onSwe s f = .next t) : RecordsCommand s t := by
  obtain ⟨q, -, rfl⟩ | ⟨-, rfl⟩ := onSwe_next_iff.1 h
  · exact recordsCommand_emit rfl _
  · exact recordsCommand_absent s _

theorem wveLoad_records {s t : State} (h : execWveLoad s = .next t) : RecordsCommand s t := by
  unfold execWveLoad at h
  split at h
  · cases h
    exact recordsCommand_absent s _
  · split at h
    · exact onWve_records h
    · cases h
      exact recordsCommand_refuse s fun _ => RefusalReason.noConfusion

theorem startWith_records {e : Engine} {present legal : Bool} {made s t : State}
    (h : startWith e present legal made s = .next t) (hmade : made.trace = s.trace) : RecordsCommand s t := by
  obtain ⟨-, rfl⟩ | ⟨-, -, rfl⟩ | ⟨-, -, -, rfl⟩ | ⟨-, -, -, rfl⟩ := startWith_next_iff.1 h
  · exact recordsCommand_refuse s fun _ => RefusalReason.noConfusion
  · exact recordsCommand_refuse s fun _ => RefusalReason.noConfusion
  · exact recordsCommand_emit hmade _
  · exact recordsCommand_emit rfl _

/-- No command that decodes is recorded as a malformed word. -/
theorem exec_records {i : Instr} {s t : State} (h : exec i s = .next t) : RecordsCommand s t := by
  cases i with
  | wveLoad => exact wveLoad_records h
  | wveStart | adpStart | sweStart => exact startWith_records h rfl
  | wveStop | adpStop | sweStop =>
    simp only [exec, execWveStop, execAdpStop, execSweStop] at h
    split at h <;> cases h
    · exact recordsCommand_absent s _
    · exact recordsCommand_emit rfl _
  | adpWrData | adpWrCtrl | adpRd | adpLoad | adpMute | adpReset | adpTick => exact onAdp_records h
  | sweWrCtrl0 | sweWrCtrl1 | sweWrLatch0 | sweWrLatch1 | sweWrTrig0 | sweWrTrig1 | sweRd | sweLoad | sweMute | sweReset
  | sweTick => exact onSwe_records h
  | ignored acc =>
    cases acc with
    | wveWrite | wveRead => exact onWve_records h
    | adpWrite => exact onAdp_records h
    | sweWrite => exact onSwe_records h
  | _ => exact onWve_records h

theorem exec_ne_malformed (i : Instr) (s : State) (e : DecodeError) : exec i s ≠ .next (s.refuse (.malformedWord e)) := by
  intro h
  obtain ⟨o, htrace, ho⟩ := exec_records h
  rw [refuse_trace, List.append_cancel_left_eq, List.singleton_inj] at htrace
  exact ho e htrace.symm

/-! ### The step on a malformed word (R101, R360) -/

theorem step_of_decode_error {s : State} {c : Command} {rest : List Command} {e : DecodeError}
    (hp : s.pending = c :: rest) (hd : decode s.pageGroup c.word = .error e) :
    step s = .next ((s.presenting c rest).refuse (.malformedWord e)) := by
  simp only [step, hp, hd]

/-- Settles O3: the word fails to decode exactly when R101 says so. Then the step is the refusal; else it is a command's,
which answers a next state, keeps the queue, and records no malformed word. -/
theorem malformedRefused : Obligations.MalformedRefused := by
  intro s c rest hp
  cases hd : decode s.pageGroup c.word with
  | error e =>
    have hstep := step_of_decode_error hp hd
    exact ⟨⟨_, hstep, rfl⟩, iff_of_true ⟨e, hstep⟩ (decode_eq_error_iff.1 ⟨e, hd⟩)⟩
  | ok i =>
    obtain ⟨f, hf⟩ := exec_factors i
    obtain ⟨t, ht, -⟩ := hf (s.presenting c rest)
    obtain ⟨-, -, -, hpending, -⟩ := engineFrame i _ t ht
    rw [step_of_decode_ok hp hd]
    refine ⟨⟨t, ht, hpending⟩, iff_of_false (fun ⟨e, he⟩ => exec_ne_malformed i _ e he) fun hm => ?_⟩
    obtain ⟨e, he⟩ := decode_of_malformed s.pageGroup (w := c.word) hm
    cases hd.symm.trans he

/-! ### Commands without effect (R112, R137, R184, R278, R328) -/

/-- A command that leaves a present engine as it is only adds its entry to the observation. -/
theorem onWve_unchanged {s : State} {w : Wve} (h : s.wve = some w) (es : List Event) :
    onWve s (fun w => (w, es)) = .next (s.emit es) := by
  rw [onWve_present h, ← h]

theorem onAdp_unchanged {s : State} {p : Adp} (h : s.adp = some p) (es : List Event) :
    onAdp s (fun p => (p, es)) = .next (s.emit es) := by
  rw [onAdp_present h, ← h]

theorem onSwe_unchanged {s : State} {q : Swe} (h : s.swe = some q) (es : List Event) :
    onSwe s (fun q => (q, es)) = .next (s.emit es) := by
  rw [onSwe_present h, ← h]

/-- Settles O35: each of these commands leaves its present engine as it is, and shows at most a 0x00 byte. -/
theorem noEffectCommands : Obligations.NoEffectCommands :=
  ⟨fun _ _ _ _ hw => ⟨onWve_unchanged hw _, onWve_unchanged hw _⟩,
    fun _ _ _ _ hp => ⟨onAdp_unchanged hp _, onAdp_unchanged hp _, onAdp_unchanged hp _⟩,
    fun _ _ _ _ hq => ⟨onSwe_unchanged hq _, onSwe_unchanged hq _⟩⟩

end Sys2Proof.Machine

/-! The device contract: commands to an absent engine, START, STOP, LOAD, MUTE, repeated TICKs, and the rates
(R131 to R145, R394). -/

namespace Sys2Proof.Machine

open Sys2Proof

/-! ### Commands to an absent engine (R134) -/

/-- An engine that is not present holds nothing. -/
theorem data_eq_none_of_absent {s : State} {e : Engine} (h : s.present e = false) : s.data e = none := by
  cases e <;> exact Option.isNone_iff_eq_none.1 (Option.isSome_eq_false_iff.1 h)

theorem wveLoad_absent {s : State} (h : s.wve = none) : execWveLoad s = .next (s.refuse (.absentInstance .wve)) := by
  simp only [execWveLoad, h]

theorem wveStop_absent {s : State} (h : s.wve = none) : execWveStop s = .next (s.refuse (.absentInstance .wve)) := by
  simp only [execWveStop, h]

theorem adpStop_absent {s : State} (h : s.adp = none) : execAdpStop s = .next (s.refuse (.absentInstance .adp)) := by
  simp only [execAdpStop, h]

theorem sweStop_absent {s : State} (h : s.swe = none) : execSweStop s = .next (s.refuse (.absentInstance .swe)) := by
  simp only [execSweStop, h]

/-- Settles O12: by the command; a START is none of them, and each other one asks for its engine first. -/
theorem absentRefused : Obligations.AbsentRefused := by
  intro i s hp hi
  have habsent := data_eq_none_of_absent hp
  cases i with
  | wveStart | adpStart | sweStart => cases hi
  | wveLoad => exact wveLoad_absent habsent
  | wveStop => exact wveStop_absent habsent
  | adpStop => exact adpStop_absent habsent
  | sweStop => exact sweStop_absent habsent
  | adpWrData | adpWrCtrl | adpRd | adpLoad | adpMute | adpReset | adpTick => exact onAdp_absent habsent _
  | sweWrCtrl0 | sweWrCtrl1 | sweWrLatch0 | sweWrLatch1 | sweWrTrig0 | sweWrTrig1 | sweRd | sweLoad | sweMute | sweReset
  | sweTick => exact onSwe_absent habsent _
  | ignored acc =>
    cases acc with
    | wveWrite | wveRead => exact onWve_absent habsent _
    | adpWrite => exact onAdp_absent habsent _
    | sweWrite => exact onSwe_absent habsent _
  | _ => exact onWve_absent habsent _

/-! ### START (R131, R132) -/

theorem adpConfigLegal_iff {c : AdpConfig} : adpConfigLegal c = true ↔ 0 < c.clock := decide_eq_true_iff

theorem sweConfigLegal_iff {c : SweConfig} : sweConfigLegal c = true ↔ 0 < c.clock ∧ 0 < c.clockDiv := by
  simp only [sweConfigLegal, Bool.and_eq_true, decide_eq_true_eq]

/-- The four outcomes of START, for an engine that is absent or present as `x` says. -/
theorem startWith_outcomes {α : Type} (e : Engine) (x : Option α) {legal : Bool} {Legal : Prop}
    (hlegal : legal = true ↔ Legal) (made s : State) :
    (x.isSome = true → startWith e x.isSome legal made s = .next (s.refuse (.startPresent e))) ∧
    (x = none → ¬ Legal → startWith e x.isSome legal made s = .next (s.refuse (.illegalConfig e))) ∧
    (x = none → Legal → s.oob.draw = .allocationFailure →
      startWith e x.isSome legal made s = .next (s.emit [.diag e .allocationFailure])) ∧
    (x = none → Legal → s.oob.draw = .success → startWith e x.isSome legal made s = .next (made.emit [])) := by
  rw [← hlegal, Bool.not_eq_true]
  refine ⟨fun hx => startWith_next_iff.2 (.inl ⟨hx, rfl⟩), ?_, ?_, ?_⟩ <;> rintro rfl
  · exact fun hl => startWith_next_iff.2 (.inr (.inl ⟨rfl, hl, rfl⟩))
  · exact fun hl hd => startWith_next_iff.2 (.inr (.inr (.inr ⟨rfl, hl, hd, rfl⟩)))
  · exact fun hl hd => startWith_next_iff.2 (.inr (.inr (.inl ⟨rfl, hl, hd, rfl⟩)))

/-- Settles O29: the outcomes of START, for each engine. -/
theorem starts : Obligations.Starts := by
  intro s
  obtain ⟨wpresent, willegal, wfailed, wmade⟩ := startWith_outcomes .wve s.wve
    (legal := wveConfigLegal s.oob.wveCfg) Iff.rfl { s with wve := some (startedWve s.oob.wveCfg) } s
  obtain ⟨apresent, aillegal, afailed, amade⟩ := startWith_outcomes .adp s.adp
    (adpConfigLegal_iff (c := s.oob.adpCfg)) { s with adp := some (startedAdp s.oob.adpCfg) } s
  obtain ⟨spresent, sillegal, sfailed, smade⟩ := startWith_outcomes .swe s.swe
    (sweConfigLegal_iff (c := s.oob.sweCfg)) { s with swe := some (startedSwe s.oob.sweCfg) } s
  exact ⟨wpresent, fun hx hl => willegal hx (Bool.eq_false_iff.1 hl), wfailed, wmade,
    apresent, aillegal, afailed, amade,
    spresent, sillegal, fun hx hc hd => sfailed hx ⟨hc, hd⟩, fun hx hc hd => smade hx ⟨hc, hd⟩⟩

/-! ### STOP and MUTE (R133, R138 to R140) -/

theorem wveStop_present {s : State} (h : s.wve.isSome = true) :
    execWveStop s = .next (State.emit { s with wve := none } []) := by
  obtain ⟨w, hw⟩ := Option.isSome_iff_exists.1 h
  simp only [execWveStop, hw]

theorem adpStop_present {s : State} (h : s.adp.isSome = true) :
    execAdpStop s = .next (State.emit { s with adp := none } []) := by
  obtain ⟨p, hp⟩ := Option.isSome_iff_exists.1 h
  simp only [execAdpStop, hp]

theorem sweStop_present {s : State} (h : s.swe.isSome = true) :
    execSweStop s = .next (State.emit { s with swe := none } []) := by
  obtain ⟨q, hq⟩ := Option.isSome_iff_exists.1 h
  simp only [execSweStop, hq]

/-- Settles O31: the two outcomes of STOP, for each engine. -/
theorem stops : Obligations.Stops := fun _ =>
  ⟨wveStop_present, wveStop_absent, adpStop_present, adpStop_absent, sweStop_present, sweStop_absent⟩

/-- Settles O34: each MUTE is the command of a present engine that writes its mute mask. -/
theorem mutes : Obligations.Mutes :=
  ⟨fun _ _ hw => onWve_present hw _, fun _ _ hp => onAdp_present hp _, fun _ _ hq => onSwe_present hq _⟩

/-! ### LOAD (R135, R136) -/

/-- LOAD to a region that is there puts the bytes in it. -/
theorem wveLoad_present {s : State} {w : Wve} (hw : s.wve = some w) {q : Fin 4} (hr : s.oob.load.region = q.val) :
    exec .wveLoad s = .next (State.emit
      { s with wve := some (w.setRegion q
          ((w.region q).loadRegion s.oob.load.expand s.oob.load.offset s.oob.load.bytes)) } []) := by
  have hlt : s.oob.load.region < 4 := hr ▸ q.isLt
  obtain rfl : q = ⟨s.oob.load.region, hlt⟩ := Fin.ext hr.symm
  simp only [exec, execWveLoad, hw, hlt, dite_true, onWve_present hw]

/-- LOAD to a region that is not there is refused. -/
theorem wveLoad_badRegion {s : State} {w : Wve} (hw : s.wve = some w) (hr : 4 ≤ s.oob.load.region) :
    exec .wveLoad s = .next (s.refuse (.badRegion s.oob.load.region)) := by
  simp only [exec, execWveLoad, hw, hr.not_gt, dite_false]

/-- A load of a region, verbatim or expanding: its size and every byte. -/
theorem loadRegion_spec (x : Bool) (off : Nat) (bytes : List Byte) {st : Store} (h : Store.wf 2 st = true) :
    (st.loadRegion x off bytes).size =
      (if bytes = [] then st.size
       else max st.size ((if x = true then off + bytes.length - 1 else (off + bytes.length - 1) / 2) + 1)) ∧
    ∀ k, Memory.read (st.loadRegion x off bytes).mem k =
      if x = true then
        (if off ≤ k / 2 ∧ k / 2 < off + bytes.length then
          (if k % 2 = 1 then bytes.getD (k / 2 - off) 0#8 else 0#8)
         else Memory.read st.mem k)
      else
        (if off ≤ k ∧ k < off + bytes.length then bytes.getD (k - off) 0#8 else Memory.read st.mem k) := by
  cases x with
  | false => exact loadRegion_verbatim_spec off bytes h
  | true => exact loadRegion_expanded_spec off bytes h

/-- Settles O32: the region number decides; the region loaded is the model's own, whose bytes are known. -/
theorem wveLoad : Obligations.WveLoad := by
  intro s w hw
  refine ⟨wveLoad_badRegion hw, fun q hr hwf => ?_⟩
  obtain ⟨hsize, hread⟩ := loadRegion_spec s.oob.load.expand s.oob.load.offset s.oob.load.bytes hwf
  exact ⟨_, wveLoad_present hw hr, hsize, hread, fun _ => rfl⟩

/-- Settles O33: the LUT loaded is the model's own, whose bytes are known. -/
theorem sweLoad : Obligations.SweLoad := by
  intro s q hq hwf
  obtain ⟨hsize, hread⟩ := loadLut_spec s.oob.load.offset s.oob.load.bytes hwf
  exact ⟨_, onSwe_present hq _, hsize, hread, fun _ => rfl⟩

/-! ### Repeated TICKs (R141, R143) -/

theorem repeatExec_succ {i : Instr} {s t : State} (h : exec i s = .next t) (n : Nat) :
    repeatExec i (n + 1) s = repeatExec i n t := by
  rw [repeatExec, h]

/-- A command that completes from every state of `Ready`, leads back to it and adds one entry of `Shown`, completes any
number of times and adds as many entries of `Shown`. -/
theorem repeatExec_completes {i : Instr} {Ready : State → Prop} {Shown : Observation → Prop}
    (hexec : ∀ s, Ready s → ∃ t o, exec i s = .next t ∧ Ready t ∧ t.trace = s.trace ++ [o] ∧ Shown o) (n : Nat) :
    ∀ s, Ready s → ∃ t new, repeatExec i n s = .next t ∧ t.trace = s.trace ++ new ∧ new.length = n ∧
      ∀ o ∈ new, Shown o := by
  induction n with
  | zero => exact fun s _ => ⟨s, [], rfl, (List.append_nil _).symm, rfl, fun o ho => absurd ho List.not_mem_nil⟩
  | succ n ih =>
    intro s hs
    obtain ⟨t, o, ht, hready, htrace, ho⟩ := hexec s hs
    obtain ⟨u, new, hu, hutrace, hlen, hnew⟩ := ih t hready
    refine ⟨u, o :: new, (repeatExec_succ ht n).trans hu, ?_, congrArg (· + 1) hlen, List.forall_mem_cons.2 ⟨ho, hnew⟩⟩
    rw [hutrace, htrace, List.append_assoc, List.singleton_append]

theorem wveTick_completes (s : State) (h : s.wve.isSome = true) :
    ∃ t o, exec .wveTick s = .next t ∧ t.wve.isSome = true ∧ t.trace = s.trace ++ [o] ∧
      ∃ out, o = .done [.out .wve out] := by
  obtain ⟨w, hw⟩ := Option.isSome_iff_exists.1 h
  exact ⟨_, _, wveTick_present hw, rfl, rfl, _, rfl⟩

theorem adpTick_completes (s : State) (h : s.adp.isSome = true) :
    ∃ t o, exec .adpTick s = .next t ∧ t.adp.isSome = true ∧ t.trace = s.trace ++ [o] ∧
      ∃ y, o = .done [.out .adp [y]] := by
  obtain ⟨p, hp⟩ := Option.isSome_iff_exists.1 h
  refine ⟨_, _, onAdp_present hp _, rfl, rfl, ?_⟩
  split_ifs <;> exact ⟨_, rfl⟩

theorem sweTick_completes (s : State) (h : s.swe.isSome = true) :
    ∃ t o, exec .sweTick s = .next t ∧ t.swe.isSome = true ∧ t.trace = s.trace ++ [o] ∧
      ∃ y, o = .done [.out .swe [y]] := by
  obtain ⟨q, hq⟩ := Option.isSome_iff_exists.1 h
  exact ⟨_, _, onSwe_present hq _, rfl, rfl, _, rfl⟩

/-- Settles O36: by induction on the number of TICKs; each completes, with one output, and leaves its engine present. -/
theorem generateSucceeds : Obligations.GenerateSucceeds := fun s n =>
  ⟨repeatExec_completes wveTick_completes n s, repeatExec_completes adpTick_completes n s,
    repeatExec_completes sweTick_completes n s⟩

/-! ### Rates (R145, R275, R394) -/

/-- A command is recorded by one entry, which shows the rate `r` of an engine, or none. -/
def ShowsRate (s t : State) (r : Option (Engine × Rat)) : Prop :=
  ∃ entry, t.trace = s.trace ++ [entry] ∧ ∀ e q, Event.rate e q ∈ entry.events ↔ r = some (e, q)

theorem showsRate_emit {s s' : State} (h : s'.trace = s.trace) {es : List Event} {r : Option (Engine × Rat)}
    (hes : ∀ e q, Event.rate e q ∈ es ↔ r = some (e, q)) : ShowsRate s (s'.emit es) r :=
  ⟨.done es, by rw [emit_trace, h], hes⟩

theorem showsRate_refuse (s : State) (r : RefusalReason) : ShowsRate s (s.refuse r) none :=
  ⟨.refused r, rfl, by simp [Observation.events]⟩

theorem onWve_showsRate {s t : State} {f : Wve → Wve × List Event} {r : Wve → Option (Engine × Rat)}
    (h : onWve s f = .next t) (hf : ∀ w e q, Event.rate e q ∈ (f w).2 ↔ r w = some (e, q)) :
    ShowsRate s t (s.wve.bind r) := by
  obtain ⟨w, hw, rfl⟩ | ⟨hw, rfl⟩ := onWve_next_iff.1 h <;> rw [hw]
  · exact showsRate_emit rfl (hf w)
  · exact showsRate_refuse s _

theorem onAdp_showsRate {s t : State} {f : Adp → Adp × List Event} {r : Adp → Option (Engine × Rat)}
    (h : onAdp s f = .next t) (hf : ∀ p e q, Event.rate e q ∈ (f p).2 ↔ r p = some (e, q)) :
    ShowsRate s t (s.adp.bind r) := by
  obtain ⟨p, hp, rfl⟩ | ⟨hp, rfl⟩ := onAdp_next_iff.1 h <;> rw [hp]
  · exact showsRate_emit rfl (hf p)
  · exact showsRate_refuse s _

theorem onSwe_showsRate {s t : State} {f : Swe → Swe × List Event} {r : Swe → Option (Engine × Rat)}
    (h : onSwe s f = .next t) (hf : ∀ v e q, Event.rate e q ∈ (f v).2 ↔ r v = some (e, q)) :
    ShowsRate s t (s.swe.bind r) := by
  obtain ⟨v, hv, rfl⟩ | ⟨hv, rfl⟩ := onSwe_next_iff.1 h <;> rw [hv]
  · exact showsRate_emit rfl (hf v)
  · exact showsRate_refuse s _

/-- A list of events without a rate. -/
def Rateless (es : List Event) : Prop := ∀ e q, Event.rate e q ∉ es

theorem rateless_iff_none {es : List Event} : Rateless es ↔ ∀ e q, Event.rate e q ∈ es ↔ none = some (e, q) := by
  simp [Rateless]

theorem onWve_rateless {s t : State} {f : Wve → Wve × List Event} (h : onWve s f = .next t)
    (hf : ∀ w, Rateless (f w).2) : ShowsRate s t none := by
  have hshow := onWve_showsRate h fun w => rateless_iff_none.1 (hf w)
  rwa [Option.bind_fun_none] at hshow

theorem onAdp_rateless {s t : State} {f : Adp → Adp × List Event} (h : onAdp s f = .next t)
    (hf : ∀ p, Rateless (f p).2) : ShowsRate s t none := by
  have hshow := onAdp_showsRate h fun p => rateless_iff_none.1 (hf p)
  rwa [Option.bind_fun_none] at hshow

theorem onSwe_rateless {s t : State} {f : Swe → Swe × List Event} (h : onSwe s f = .next t)
    (hf : ∀ q, Rateless (f q).2) : ShowsRate s t none := by
  have hshow := onSwe_showsRate h fun q => rateless_iff_none.1 (hf q)
  rwa [Option.bind_fun_none] at hshow

@[simp] theorem rateless_nil : Rateless [] := fun _ _ => List.not_mem_nil
@[simp] theorem rateless_out (e : Engine) (xs : List Int) : Rateless [.out e xs] := by simp [Rateless]
@[simp] theorem rateless_diag (e : Engine) (d : Diag) : Rateless [.diag e d] := by simp [Rateless]
@[simp] theorem rateless_readByte (e : Engine) (b : Byte) : Rateless [.readByte e b] := by simp [Rateless]

theorem wveLoad_rateless {s t : State} (h : execWveLoad s = .next t) : ShowsRate s t none := by
  cases hw : s.wve with
  | none =>
    cases (wveLoad_absent hw).symm.trans h
    exact showsRate_refuse s _
  | some w =>
    obtain hr | hr := Nat.lt_or_ge s.oob.load.region 4
    · cases (wveLoad_present hw (q := ⟨_, hr⟩) rfl).symm.trans h
      exact showsRate_emit rfl (rateless_iff_none.1 rateless_nil)
    · cases (wveLoad_badRegion hw hr).symm.trans h
      exact showsRate_refuse s _

theorem startWith_rateless {e : Engine} {present legal : Bool} {made s t : State}
    (h : startWith e present legal made s = .next t) (hmade : made.trace = s.trace) : ShowsRate s t none := by
  obtain ⟨-, rfl⟩ | ⟨-, -, rfl⟩ | ⟨-, -, -, rfl⟩ | ⟨-, -, -, rfl⟩ := startWith_next_iff.1 h
  · exact showsRate_refuse s _
  · exact showsRate_refuse s _
  · exact showsRate_emit hmade (rateless_iff_none.1 rateless_nil)
  · exact showsRate_emit rfl (rateless_iff_none.1 (rateless_diag _ _))

/-- The rate that an ADP control write shows: none if neither RST nor RS changes (R277). -/
def ctlRate (d : Byte) (p : Adp) : Option (Engine × Rat) :=
  if ctlRst d = ctlRst p.ctl ∧ ctlRs d = ctlRs p.ctl then none else some (.adp, adpRate p.cfg (ctlRs d))

/-- The rate that a command shows (R145). -/
def shownRate (i : Instr) (s : State) : Option (Engine × Rat) :=
  match i with
  | .wveReset => s.wve.bind fun w => some (.wve, wveRate w.cfg)
  | .adpReset => s.adp.bind fun p => some (.adp, adpRate p.cfg 0#2)
  | .sweReset => s.swe.bind fun v => some (.swe, sweRate v.cfg)
  | .adpWrCtrl d => s.adp.bind (ctlRate d)
  | _ => none

/-- Each command shows its rate, and no other. -/
theorem exec_showsRate {i : Instr} {s t : State} (h : exec i s = .next t) : ShowsRate s t (shownRate i s) := by
  cases i with
  | wveReset => exact onWve_showsRate h (by simp [eq_comm])
  | adpReset => exact onAdp_showsRate h (by simp [eq_comm])
  | sweReset => exact onSwe_showsRate h (by simp [eq_comm])
  | adpWrCtrl d =>
    refine onAdp_showsRate h fun p e q => ?_
    simp only [ctlRate]
    split_ifs <;> simp [eq_comm]
  | wveLoad => exact wveLoad_rateless h
  | wveStart | adpStart | sweStart => exact startWith_rateless h rfl
  | wveStop | adpStop | sweStop =>
    simp only [exec, execWveStop, execAdpStop, execSweStop] at h
    split at h <;> cases h
    · exact showsRate_refuse s _
    · exact showsRate_emit rfl (rateless_iff_none.1 rateless_nil)
  | adpWrData | adpTick =>
    refine onAdp_rateless h fun p => ?_
    split_ifs <;> simp
  | adpRd | adpLoad | adpMute => exact onAdp_rateless h (by simp)
  | sweWrCtrl0 | sweWrCtrl1 | sweWrLatch0 | sweWrLatch1 | sweWrTrig0 | sweWrTrig1 | sweRd | sweLoad | sweMute
  | sweTick => exact onSwe_rateless h (by simp)
  | ignored acc =>
    cases acc with
    | wveWrite | wveRead => exact onWve_rateless h (by simp)
    | adpWrite => exact onAdp_rateless h (by simp)
    | sweWrite => exact onSwe_rateless h (by simp)
  | _ => exact onWve_rateless h (by simp)

theorem wveRate_eq (c : WveConfig) : wveRate c = (c.clock : Rat) / (16 * ((c.actv : Rat) + 1)) := by
  rw [wveRate, Rat.mkRat_eq_div]
  push_cast
  rfl

theorem adpRate_eq (c : AdpConfig) (rs : BitVec 2) : adpRate c rs = (c.clock : Rat) / (prescale rs : Rat) :=
  Rat.mkRat_eq_div _ _

theorem sweRate_eq (c : SweConfig) : sweRate c = (c.clock : Rat) / (c.clockDiv : Rat) := Rat.mkRat_eq_div _ _

theorem prescale_eq_getD (rs : BitVec 2) : prescale rs = [48, 64, 96, 192].getD rs.toNat 0 := by
  revert rs
  decide

theorem toNat_ctlRs (d : Byte) : (ctlRs d).toNat = d.toNat / 4 % 4 := by
  simp [ctlRs, Nat.shiftRight_eq_div_pow]

/-- PRESCALE of a control byte, by its bits 3:2 (R54, R275). -/
theorem prescale_ctlRs (d : Byte) : prescale (ctlRs d) = [48, 64, 96, 192].getD (d.toNat / 4 % 4) 0 := by
  rw [prescale_eq_getD, toNat_ctlRs]

/-- The rate an ADP control write shows: that of the new RS, if it changes RST or RS. -/
theorem ctlRate_eq_some_iff {d : Byte} {p : Adp} {e : Engine} {q : Rat} :
    ctlRate d p = some (e, q) ↔
      e = .adp ∧ (d.getLsbD 0 ≠ p.ctl.getLsbD 0 ∨ d.extractLsb' 2 2 ≠ p.ctl.extractLsb' 2 2) ∧
        q = (p.cfg.clock : Rat) / (([48, 64, 96, 192].getD (d.toNat / 4 % 4) 0 : Nat) : Rat) := by
  rw [← prescale_ctlRs, ← adpRate_eq, ne_eq, ne_eq, ← not_and_or, ctlRate, Option.ite_none_left_eq_some,
    Option.some.injEq, Prod.mk.injEq, and_left_comm, eq_comm (a := Engine.adp), eq_comm (b := q)]
  rfl

/-- The rate of a RESET is that of the present engine. -/
theorem bind_rate_eq_some_iff {α : Type} {x : Option α} {k e : Engine} {rate : α → Rat} {q : Rat} :
    (x.bind fun a => some (k, rate a)) = some (e, q) ↔ e = k ∧ ∃ a, x = some a ∧ q = rate a := by
  simp only [Option.bind_eq_some_iff, Option.some.injEq, Prod.mk.injEq, @eq_comm _ k, @eq_comm _ _ q, and_left_comm,
    exists_and_left]

/-- Settles O15: the rate each command shows, in R394's terms. -/
theorem rateEvents : Obligations.RateEvents := by
  intro i s t h
  obtain ⟨entry, htrace, hshow⟩ := exec_showsRate h
  refine ⟨entry, htrace, fun e q => (hshow e q).trans ?_⟩
  cases i with
  | wveReset => simp [shownRate, bind_rate_eq_some_iff, wveRate_eq]
  | adpReset => simp [shownRate, bind_rate_eq_some_iff, adpRate_eq, prescale]
  | sweReset => simp [shownRate, bind_rate_eq_some_iff, sweRate_eq]
  | adpWrCtrl d => simp [shownRate, Option.bind_eq_some_iff, ctlRate_eq_some_iff, and_left_comm]
  | _ => simp [shownRate]

end Sys2Proof.Machine

/-! The WVE register commands: lane writes, the commit of each register, and reads (R160 to R185). -/

namespace Sys2Proof.Machine

open Sys2Proof

/-! ### The operands of a commit (R34, R45, R161, R168 to R177) -/

/-- The voice PAGE selects is its number modulo 32 (R45). -/
theorem pageVoice_eq {p : BitVec 7} {i : Fin 32} (h : i.val = p.toNat % 32) : pageVoice p = i := by
  apply Fin.ext
  simp [h, pageVoice, pageVsel]

/-- GROUP is PAGE's number divided by 32 (R45). -/
theorem pageGroup_eq {p : BitVec 7} {k : Nat} (h : p.toNat / 32 = k) : pageGroup p = BitVec.ofNat 2 k := by
  apply BitVec.eq_of_toNat_eq
  simp [pageGroup, Nat.shiftRight_eq_div_pow, h]

/-- The low half of an assembled value is the third byte of the latch and the byte written. -/
theorem lowHalf_append (latch : Word) (d : Byte) :
    lowHalf (latch.extractLsb' 8 24 ++ d) = latch.extractLsb' 8 8 ++ d := by
  apply BitVec.eq_of_getLsbD_eq
  intro k hk
  rw [lowHalf, BitVec.getLsbD_extractLsb', BitVec.getLsbD_append, BitVec.getLsbD_append]
  by_cases hd : k < 8
  · simp [hd, hk]
  · have hbyte : k - 8 < 8 ∧ k - 8 < 24 := by omega
    simp [hd, hk, hbyte]

/-- The low seven bits of an assembled value are those of the byte written. -/
theorem lowSeven_append (latch : Word) (d : Byte) :
    (latch.extractLsb' 8 24 ++ d : Word).extractLsb' 0 7 = d.extractLsb' 0 7 := by
  apply BitVec.eq_of_getLsbD_eq
  intro k hk
  have hd : k < 8 := by omega
  rw [BitVec.getLsbD_extractLsb', BitVec.getLsbD_append, BitVec.getLsbD_extractLsb']
  simp [hd]

/-- A CTRL commit keeps bits 14:8 and 6:0; bit 7 reads 0 (R164). -/
theorem ctrlKept_eq (val : Word) : ctrlKept val = val.extractLsb' 8 7 ++ 0#1 ++ val.extractLsb' 0 7 := by
  apply BitVec.eq_of_getLsbD_eq
  intro k hk
  rw [show (val.extractLsb' 8 7 ++ 0#1 ++ val.extractLsb' 0 7 : BitVec 15).getLsbD k = _ from BitVec.getLsbD_append,
    BitVec.getLsbD_append]
  interval_cases k <;> simp [ctrlKept]

/-- Masking to ACC_BITS is reduction modulo 2^ACC_BITS, whatever ACC_BITS is (R10, R168). -/
theorem and_accMask_eq (cfg : WveConfig) (val : Word) :
    val &&& accMask cfg = BitVec.ofNat 32 (val.toNat % 2 ^ cfg.accBits) := by
  apply BitVec.eq_of_getLsbD_eq
  intro k hk
  rw [accMask, BitVec.getLsbD_and, BitVec.getLsbD_ofNat, BitVec.getLsbD_ofNat, Nat.testBit_two_pow_sub_one,
    Nat.testBit_mod_two_pow, BitVec.testBit_toNat]
  simp [hk, Bool.and_comm]

/-! ### The commits of a present WVE (R161) -/

theorem commit_present {s : State} {w : Wve} (hw : s.wve = some w) (d : Byte) (apply : Word → Wve → Wve) :
    commit d apply s =
      .next (State.emit
        { s with wve := some { apply (w.wlatch.extractLsb' 8 24 ++ d) w with wlatch := 0#32 } } []) := by
  rw [commit, onWve_present hw, placeLane_three]

section
variable {s : State} {w : Wve} {i : Fin 32}

/-- A commit to a voice register changes that voice and clears the latch. -/
theorem commitVoice_present (hw : s.wve = some w) (hi : i.val = w.page.toNat % 32) (d : Byte)
    (put : WveConfig → Word → Voice → Voice) :
    commitVoice d put s =
      .next (State.emit
        { s with wve := some { w.setVoice i (put w.cfg (w.wlatch.extractLsb' 8 24 ++ d) (w.voice i)) with
                               wlatch := 0#32 } } []) := by
  rw [commitVoice, commit_present hw, pageVoice_eq hi]

/-- A commit to a 16-bit voice register stores the low half of the assembled value. -/
theorem commitHalf_present (hw : s.wve = some w) (hi : i.val = w.page.toNat % 32) (d : Byte)
    (put : Half → Voice → Voice) :
    commitVoice d (fun _ val v => put (lowHalf val) v) s =
      .next (State.emit
        { s with wve := some { w.setVoice i (put (w.wlatch.extractLsb' 8 8 ++ d) (w.voice i)) with
                               wlatch := 0#32 } } []) := by
  rw [commitVoice_present hw hi, lowHalf_append]

end

/-- Settles O19: a lane write is the command of a present WVE that places its byte in the latch. -/
theorem laneWrites : Obligations.LaneWrites := by
  intro n d s w hw latched
  have written (l : Nat) : writeLane l d s = latched (placeLane l w.wlatch d) := onWve_present hw _
  refine ⟨?_, ?_, ?_⟩
  · exact (written 0).trans (congrArg latched (placeLane_zero _ _))
  · refine (written 1).trans (congrArg latched ((placeLane_one _ _).trans ?_))
    exact (BitVec.append_assoc ..).symm
  · refine (written 2).trans (congrArg latched ((placeLane_two _ _).trans ?_))
    exact (BitVec.append_assoc ..).symm

/-- Settles O20: the CTRL commit, with the kept bits as R164 lists them. -/
theorem commitCtrl : Obligations.CommitCtrl := by
  intro d s w i hw hi val ctrl voices
  have hkept : ctrlKept val = ctrl := ctrlKept_eq val
  obtain rfl := pageVoice_eq hi
  change execWveWrCtrl d s = _
  rw [execWveWrCtrl, commit_present hw, hkept]
  rfl

/-- Settles O21: each row is the commit of its register; ACCUM is masked. -/
theorem commitGroup0 : Obligations.CommitGroup0 := by
  intro d s w i hw hi val v done
  rw [← and_accMask_eq w.cfg val]
  exact ⟨commitVoice_present hw hi d fun _ x v => { v with freq := x },
    commitVoice_present hw hi d fun _ x v => { v with loopStart := x },
    commitVoice_present hw hi d fun _ x v => { v with loopEnd := x },
    commitVoice_present hw hi d fun cfg x v => { v with accum := x &&& accMask cfg }⟩

/-- Settles O22: each row is the 16-bit commit of its register. -/
theorem commitGroup1 : Obligations.CommitGroup1 := fun d _ _ _ hw hi =>
  ⟨commitHalf_present hw hi d fun x v => { v with lvol := x },
    commitHalf_present hw hi d fun x v => { v with lvramp := x },
    commitHalf_present hw hi d fun x v => { v with rvol := x },
    commitHalf_present hw hi d fun x v => { v with rvramp := x },
    commitHalf_present hw hi d fun x v => { v with ecount := x }⟩

/-- Settles O23: the coefficients and their ramps are 16-bit commits, the histories take the whole value. -/
theorem commitGroup2 : Obligations.CommitGroup2 := fun d _ _ _ hw hi =>
  ⟨commitHalf_present hw hi d fun x v => { v with k1 := x },
    commitHalf_present hw hi d fun x v => { v with k1ramp := x },
    commitHalf_present hw hi d fun x v => { v with k2 := x },
    commitHalf_present hw hi d fun x v => { v with k2ramp := x },
    commitVoice_present hw hi d fun _ x v => { v with o1 := x },
    commitVoice_present hw hi d fun _ x v => { v with o2 := x },
    commitVoice_present hw hi d fun _ x v => { v with o3 := x },
    commitVoice_present hw hi d fun _ x v => { v with o4 := x }⟩

/-- Settles O24: the PAGE commit takes its bits from the byte written, and the commit to no register clears the latch. -/
theorem commitPageNone : Obligations.CommitPageNone := by
  intro n d s w hw
  refine ⟨?_, commit_present hw d fun _ w => w⟩
  rw [← lowSeven_append w.wlatch d]
  exact commit_present hw d fun val w => { w with page := val.extractLsb' 0 7 }

/-! ### The reads of a present WVE (R182, R183, R185) -/

/-- The addresses that select no register: 5 to 14 in groups 0 and 1, 8 to 14 in group 2, all but 15 in group 3 (R104). -/
theorem wveTarget_eq_none {g : BitVec 2} {n : BitVec 4} (hpage : n ≠ 15#4)
    (h : (g.toNat ≤ 1 ∧ 5 ≤ n.toNat) ∨ (g.toNat = 2 ∧ 8 ≤ n.toNat) ∨ g.toNat = 3) : wveTarget g n = none := by
  revert g n
  decide

/-- What a lane-0 read takes of a register, by its number and its group (R104, R182). -/
theorem readView_selected {w : Wve} {n : BitVec 4} {k : Nat} (r : WveReg) (hk : w.page.toNat / 32 = k)
    (hn : n = r.number) (hr : r.inGroup (BitVec.ofNat 2 k) = true) :
    readView (wveTarget (pageGroup w.page) n) w = readView (some r) w := by
  rw [pageGroup_eq hk, wveTarget_eq_some_iff.2 ⟨hn, hr⟩]

/-- A lane-0 read that selects no register takes 0 (R182). -/
theorem readView_unselected {w : Wve} {n : BitVec 4} (hpage : n ≠ 15#4)
    (h : (w.page.toNat / 32 ≤ 1 ∧ 5 ≤ n.toNat) ∨ (w.page.toNat / 32 = 2 ∧ 8 ≤ n.toNat) ∨ w.page.toNat / 32 = 3) :
    readView (wveTarget (pageGroup w.page) n) w = 0#32 := by
  have hg : (pageGroup w.page).toNat = w.page.toNat / 32 := by
    rw [pageGroup_eq rfl, BitVec.toNat_ofNat]
    omega
  rw [wveTarget_eq_none hpage (by rwa [hg])]
  rfl

/-- Settles O25: R104's table says which register is read, and R185's view is its value. -/
theorem readSnapshot : Obligations.ReadSnapshot := by
  intro n s w i hw hi g v
  obtain rfl := pageVoice_eq hi
  exact ⟨_, onWve_present hw _,
    fun hn => readView_selected .page rfl hn rfl,
    fun hg hn => readView_selected .ctrl hg hn rfl,
    fun hg hn => readView_selected .freq hg hn rfl,
    fun hg hn => readView_selected .start hg hn rfl,
    fun hg hn => readView_selected .endA hg hn rfl,
    fun hg hn => readView_selected .accum hg hn rfl,
    fun hg hn => readView_selected .lvol hg hn rfl,
    fun hg hn => readView_selected .lvramp hg hn rfl,
    fun hg hn => readView_selected .rvol hg hn rfl,
    fun hg hn => readView_selected .rvramp hg hn rfl,
    fun hg hn => readView_selected .ecount hg hn rfl,
    fun hg hn => readView_selected .k1 hg hn rfl,
    fun hg hn => readView_selected .k1ramp hg hn rfl,
    fun hg hn => readView_selected .k2 hg hn rfl,
    fun hg hn => readView_selected .k2ramp hg hn rfl,
    fun hg hn => readView_selected .o1 hg hn rfl,
    fun hg hn => readView_selected .o2 hg hn rfl,
    fun hg hn => readView_selected .o3 hg hn rfl,
    fun hg hn => readView_selected .o4 hg hn rfl,
    readView_unselected⟩

/-- A lane 1, 2 or 3 read returns its byte of RLATCH and leaves the state as it is. -/
theorem readLane_present {s : State} {w : Wve} (hw : s.wve = some w) (l : Nat) :
    readLane l s = .next (s.emit [.readByte .wve (laneByte l w.rlatch)]) := by
  rw [readLane, onWve_present hw, ← hw]

/-- Settles O26: the reads of lanes 1, 2 and 3. -/
theorem readLanes : Obligations.ReadLanes := fun _ _ _ hw =>
  ⟨readLane_present hw 1, readLane_present hw 2, readLane_present hw 3⟩

end Sys2Proof.Machine

/-! WVE.TICK (R210 to R245): what a TICK makes of a voice and of the output. -/

namespace Sys2Proof.Machine

open Sys2Proof

/-! ### The voices of a TICK (R210, R212, R213) -/

/-- A TICK steps the voices 0..ACTV and leaves the others, said once. -/
theorem voice_walkVoices (w : Wve) (i : Fin 32) :
    (walkVoices (walkedVoices w.cfg.actv) w).1.voice i = if i.val ≤ w.cfg.actv then tickVoice w i else w.voice i := by
  obtain ⟨-, hwalked, hother, -⟩ := walkVoices_spec (nodup_walkedVoices w.cfg.actv) w
  split
  case isTrue h => exact hwalked i (mem_walkedVoices.2 h)
  case isFalse h => exact hother i (mt mem_walkedVoices.1 h)

/-- A TICK of a walked voice, running or not. -/
theorem afterTick_of_walked {s : State} {w : Wve} {i : Fin 32} (hw : s.wve = some w) (hi : i.val ≤ w.cfg.actv)
    {P : Voice → Prop} (hP : P (tickVoice w i)) : s.AfterTick i P := by
  refine ⟨_, _, wveTick_present hw, rfl, ?_⟩
  rwa [voice_settleIrq, voice_walkVoices, if_pos hi]

/-- Settles O37: the frame of the walk, and IRQ_OUT settled after it. -/
theorem tickFrame : Obligations.TickFrame := by
  intro s w hw
  obtain ⟨hframe, -, -, -, hlength⟩ := walkVoices_spec (nodup_walkedVoices w.cfg.actv) w
  refine ⟨_, _, wveTick_present hw, hlength, ?_, fun i hi => ?_⟩
  · rw [hframe]
    rfl
  · rw [voice_settleIrq, voice_walkVoices, if_neg (by omega)]

/-- Settles O38: the step of a walked voice reads only what the two states share; any other voice is kept. -/
theorem tickIsolation : Obligations.TickIsolation := by
  intro s s' w w' i hw hw' hcfg hregions hmute hvoice
  refine ⟨_, _, _, _, wveTick_present hw, wveTick_present hw', rfl, rfl, ?_⟩
  rw [voice_settleIrq, voice_settleIrq, voice_walkVoices, voice_walkVoices, hcfg, hvoice,
    tickVoice_congr hcfg hmute hregions hvoice]

/-- Settles O41: a frozen voice that is walked takes its envelope step only, one above ACTV none. -/
theorem frozenVoice : Obligations.FrozenVoice := by
  intro s w i hw hfrozen
  rcases Nat.lt_or_ge w.cfg.actv i.val with hi | hi
  · exact afterTick_of_unwalked hw hi ⟨rfl, rfl, rfl, rfl, rfl, rfl⟩
  · refine afterTick_of_frozen hw hi hfrozen ?_
    exact ⟨envelope_ctrl _, envelope_accum _, envelope_o1 _, envelope_o2 _, envelope_o3 _, envelope_o4 _⟩

/-! ### The output of a TICK (R211, R228 to R230, R245) -/

/-- What voice `i` adds to channel `c` on a TICK, exact (R213, R228, R229). -/
def channelPart (w : Wve) (c : Nat) (i : Fin 32) : Int :=
  let v := w.voice i
  let y := (voicePoles w i).p4
  let lr := route w.cfg.chans (ctrlCa v.ctrl)
  if running w i then (if c = lr.1 then contribution y v.lvol else 0) + (if c = lr.2 then contribution y v.rvol else 0)
  else 0

/-- An addition to channel `k` is an addition under the wrap of channel `c = k`, and nothing to the others (R230). -/
theorem getD_addOut {out : List Int} {c : Nat} (hc : c < out.length) {z : Int} (h : out.getD c 0 = wrap32 z) (k : Nat)
    (x : Int) : (addOut out k x).getD c 0 = wrap32 (z + if c = k then x else 0) := by
  rw [List.getD_eq_getElem _ _ hc] at h
  rw [List.getD_eq_getElem _ _ (by simpa using hc)]
  simp only [addOut, List.getElem_modify, h]
  split
  case isTrue hk => rw [if_pos hk.symm, wrap32_add_wrap32]
  case isFalse hk => rw [if_neg (Ne.symm hk), add_zero]

/-- A walked voice adds its part to each channel, under the wrap. -/
theorem getD_tickOut {w : Wve} {out : List Int} {c : Nat} (hc : c < out.length) {z : Int}
    (h : out.getD c 0 = wrap32 z) (i : Fin 32) : (tickOut w i out).getD c 0 = wrap32 (z + channelPart w c i) := by
  unfold tickOut channelPart
  split
  · rw [getD_addOut (by simpa using hc) (getD_addOut hc h _ _), add_assoc]
  · rw [h, add_zero]

/-- A walk over any voices adds up their parts, under one wrap: the wraps on the way do not show. -/
theorem getD_foldl_tickOut {w : Wve} {c : Nat} (order : List (Fin 32)) {out : List Int} (hc : c < out.length) {z : Int}
    (h : out.getD c 0 = wrap32 z) :
    (order.foldl (fun out i => tickOut w i out) out).getD c 0 = wrap32 (z + (order.map (channelPart w c)).sum) := by
  induction order generalizing out z with
  | nil => simpa using h
  | cons i order ih =>
    rw [List.foldl_cons, ih (by simpa using hc) (getD_tickOut hc h i), List.map_cons, List.sum_cons, add_assoc]

/-- Channel `c` of a walk's output (R211: the output starts as zeros). -/
theorem getD_walkVoices {w : Wve} {order : List (Fin 32)} (hd : order.Nodup) {c : Nat} (hc : c < w.cfg.chans) :
    (walkVoices order w).2.getD c 0 = wrap32 (order.map (channelPart w c)).sum := by
  obtain ⟨-, -, -, hout, -⟩ := walkVoices_spec hd w
  have hzero : (List.replicate w.cfg.chans (0 : Int)).getD c 0 = wrap32 0 := by
    rw [List.getD_replicate _ hc]
    rfl
  rw [hout, getD_foldl_tickOut order (by simpa using hc) hzero, zero_add]

/-- Settles O39: each voice steps from the state before the walk, and each channel is a sum, which has no order. -/
theorem tickOrder : Obligations.TickOrder := by
  intro w order hd hmem
  have hperm : order.Perm (walkedVoices w.cfg.actv) :=
    (List.perm_ext_iff_of_nodup hd (nodup_walkedVoices _)).2 fun i => (hmem i).trans mem_walkedVoices.symm
  obtain ⟨hframe, hwalked, hother, -, hlength⟩ := walkVoices_spec hd w
  obtain ⟨hframe', -, -, -, hlength'⟩ := walkVoices_spec (nodup_walkedVoices w.cfg.actv) w
  have hvoice : ∀ i, (walkVoices order w).1.voice i = (walkVoices (walkedVoices w.cfg.actv) w).1.voice i := by
    intro i
    rw [voice_walkVoices]
    split
    case isTrue hi => exact hwalked i ((hmem i).2 hi)
    case isFalse hi => exact hother i (mt (hmem i).1 hi)
  refine Prod.ext ?_ ?_
  · rw [hframe, hframe']
    congr 1
    exact Vector.ext fun n hn => hvoice ⟨n, hn⟩
  · refine List.ext_getElem (hlength.trans hlength'.symm) fun c hc hc' => ?_
    rw [← List.getD_eq_getElem _ 0 hc, ← List.getD_eq_getElem _ 0 hc', getD_walkVoices hd (hlength ▸ hc),
      getD_walkVoices (nodup_walkedVoices _) (hlength ▸ hc), (hperm.map _).sum_eq]

/-- Settles O40: the sum over the walked voices, as one over all voices. -/
theorem tickOutputSum : Obligations.TickOutputSum := by
  intro s w hw
  obtain ⟨-, -, -, -, hlength⟩ := walkVoices_spec (nodup_walkedVoices w.cfg.actv) w
  refine ⟨_, _, wveTick_present hw, rfl, hlength, fun c hc => ?_⟩
  have hwalked : (walkedVoices w.cfg.actv).toFinset = Finset.univ.filter fun i => i.val ≤ w.cfg.actv := by
    ext i
    simp [mem_walkedVoices]
  rw [getD_walkVoices (nodup_walkedVoices _) hc, ← List.sum_toFinset _ (nodup_walkedVoices _), hwalked,
    Finset.sum_filter]
  refine congrArg wrap32 (Finset.sum_congr rfl fun i _ => ?_)
  have hrunning : running w i = true ↔ (w.voice i).ctrl.getLsbD 0 = false ∧ w.wmute.getLsbD i.val = false := by
    simp [running, ctrlStop, voiceMuted]
  simp only [channelPart, hrunning, ← ite_and]
  rfl

/-! ### The envelope (R239 to R243) -/

/-- The advance changes CTRL and ACCUM only. -/
theorem advance_eq (c : WveConfig) (v : Voice) :
    advance c v = { v with ctrl := (advance c v).ctrl, accum := (advance c v).accum } := by
  unfold advance
  split
  · unfold cross
    split <;> rfl
  · rfl

/-- The envelope neither reads nor writes CTRL, ACCUM and the histories. -/
theorem envelope_with (v : Voice) (ctrl : BitVec 15) (accum o1 o2 o3 o4 : Word) :
    envelope { v with ctrl := ctrl, accum := accum, o1 := o1, o2 := o2, o3 := o3, o4 := o4 } =
      { envelope v with ctrl := ctrl, accum := accum, o1 := o1, o2 := o2, o3 := o3, o4 := o4 } := by
  unfold envelope
  split <;> rfl

/-- A running voice and a frozen one take the same envelope step. -/
theorem tickVoice_eq_envelope (w : Wve) (i : Fin 32) :
    ∃ ctrl accum o1 o2 o3 o4, tickVoice w i =
      { envelope (w.voice i) with ctrl := ctrl, accum := accum, o1 := o1, o2 := o2, o3 := o3, o4 := o4 } := by
  unfold tickVoice
  split
  · rw [advance_setHistories, advance_eq]
    exact ⟨_, _, _, _, _, _, envelope_with (w.voice i) ..⟩
  · exact ⟨_, _, _, _, _, _, envelope_with ..⟩

theorem clamp_eq_max_min {lo hi : Int} (h : lo ≤ hi) (v : Int) : clamp v lo hi = max lo (min hi v) := by
  unfold clamp
  split_ifs <;> omega

/-- A coefficient ramp step as an integer (R241). -/
theorem toNat_coefficientStep (value ramp : Half) (tickcnt : BitVec 3) :
    ((coefficientStep value ramp tickcnt).toNat : Int) =
      if 0 ≤ ramp.toInt ∨ tickcnt = 0#3 then clamp ((value.toNat : Int) + ramp.toInt) 0 0xFFFF else value.toNat := by
  unfold coefficientStep
  split
  · exact rampStep_toNat value ramp
  · rfl

/-- Settles O42: the cases of ECOUNT are those of the envelope step. -/
theorem envelopeTick : Obligations.EnvelopeTick := by
  intro s w i hw hi v ramped throttled
  refine afterTick_of_walked hw hi ?_
  obtain ⟨ctrl, accum, o1, o2, o3, o4, htick⟩ := tickVoice_eq_envelope w i
  have hramp (value ramp : Half) : ((rampStep value ramp).toNat : Int) = ramped value ramp :=
    (rampStep_toNat value ramp).trans (clamp_eq_max_min (by decide) _)
  have hthrottle (value ramp : Half) : ((coefficientStep value ramp v.tickcnt).toNat : Int) = throttled value ramp := by
    rw [toNat_coefficientStep, clamp_eq_max_min (by decide)]
  have hecount (h : v.ecount ≠ 0#16) : (v.ecount - 1#16).toNat = v.ecount.toNat - 1 := by bv_omega
  rw [htick]
  dsimp only
  refine ⟨fun h => ?_, fun h => ?_, ?_, envelope_freq _, envelope_loopStart _, envelope_loopEnd _, envelope_lvramp _,
    envelope_rvramp _, envelope_k1ramp _, envelope_k2ramp _⟩
  · simp [show (w.voice i).ecount = 0#16 from h, v]
  · have h' : (w.voice i).ecount ≠ 0#16 := h
    simp [h', ← hramp, ← hthrottle, ← hecount h, v]
  · rw [envelope_tickcnt, BitVec.toNat_add]
    rfl

/-! ### The sample (R214 to R219) -/

/-- The high byte of a word of two bytes (R84). -/
theorem highByte_append (high low : Byte) : (high ++ low : Half).extractLsb' 8 8 = high :=
  BitVec.extractLsb'_append_eq_left

/-- A region word read as a sample (R82, R84, R216, R217). -/
theorem regionSample_eq (w : Wve) (r : BitVec 2) (n : Nat) (cmpd : Bool) :
    regionSample w r n cmpd =
      if n < (w.region r.toFin).size then
        (if cmpd then ulawEntry w.cfg.ulaw (Memory.read (w.region r.toFin).mem (2 * n + 1))
         else (Memory.read (w.region r.toFin).mem (2 * n + 1) ++ Memory.read (w.region r.toFin).mem (2 * n) : Half).toInt)
      else 0 := by
  unfold regionSample Store.word
  by_cases h : n < (w.region r.toFin).size
  · simp only [if_pos h, highByte_append]
  · simp only [if_neg h]

/-- A table entry is a signed 16-bit value (R10, R218). -/
theorem ulawEntry_bounds {c : WveConfig} (h : wveConfigLegal c = true) (k : Byte) :
    -32768 ≤ ulawEntry c.ulaw k ∧ ulawEntry c.ulaw k ≤ 32767 := by
  simp only [wveConfigLegal, Bool.and_eq_true] at h
  obtain ⟨⟨-, hulaw⟩, -⟩ := h
  obtain ⟨-, hsigned, -⟩ := (ulawLegal_iff _).1 hulaw
  exact ⟨(hsigned k).1, (hsigned k).2.1⟩

/-- A sample is a signed 16-bit value, however it is read. -/
theorem regionSample_bounds {w : Wve} (h : wveConfigLegal w.cfg = true) (r : BitVec 2) (n : Nat) (cmpd : Bool) :
    -32768 ≤ regionSample w r n cmpd ∧ regionSample w r n cmpd ≤ 32767 := by
  unfold regionSample
  split
  · decide
  · split
    · exact ulawEntry_bounds h _
    · exact ⟨BitVec.le_toInt _, Int.le_of_lt_add_one BitVec.toInt_lt⟩

/-- Interpolation stays between signed 16-bit values, which any two samples lie within. -/
theorem interpolate_bounds {s0 s1 f : Int} (h0 : -32768 ≤ s0 ∧ s0 ≤ 32767) (h1 : -32768 ≤ s1 ∧ s1 ≤ 32767)
    (hf : 0 ≤ f ∧ f ≤ 2048) : -32768 ≤ interpolate s0 s1 f ∧ interpolate s0 s1 f ≤ 32767 := by
  obtain ⟨hf0, hf1⟩ := hf
  have hlow0 := mul_le_mul_of_nonneg_right h0.1 (sub_nonneg.2 hf1)
  have hhigh0 := mul_le_mul_of_nonneg_right h0.2 (sub_nonneg.2 hf1)
  have hlow1 := mul_le_mul_of_nonneg_right h1.1 hf0
  have hhigh1 := mul_le_mul_of_nonneg_right h1.2 hf0
  unfold interpolate shiftRight
  omega

theorem interpolate_zero (s0 s1 : Int) : interpolate s0 s1 0 = s0 := by
  unfold interpolate shiftRight
  omega

theorem fraction_eq (v : Voice) : fraction v = ((v.accum.toNat % 2048 : Nat) : Int) := by
  simp [fraction]

theorem sampleIndex_eq (v : Voice) : sampleIndex v = v.accum.toNat / 2048 := by
  simp [sampleIndex, Nat.shiftRight_eq_div_pow]

theorem successorIndex_eq {c : WveConfig} (h : wveConfigLegal c = true) (v : Voice) :
    successorIndex c v = (v.accum.toNat + 0x800) % 2 ^ c.accBits / 2048 := by
  have hbits : c.accBits ≤ 32 := by
    rcases accBits_of_legal h with hb | hb <;> omega
  rw [successorIndex, BitVec.toNat_ushiftRight, toNat_and_accMask h, BitVec.toNat_add, Nat.shiftRight_eq_div_pow,
    Nat.mod_mod_of_dvd _ (Nat.pow_dvd_pow 2 hbits)]
  rfl

/-- Settles O43: the two words by their indices, then interpolation. -/
theorem sampleAndInterpolation : Obligations.SampleAndInterpolation := by
  intro w v hl region sampleAt f s0 s1
  have hsample (n : Nat) : regionSample w (ctrlRegion v.ctrl) n (ctrlCmpd v.ctrl) = sampleAt n :=
    regionSample_eq w _ n _
  have hvoice : voiceSample w v = interpolate s0 s1 f := by
    simp only [voiceSample, fraction_eq, sampleIndex_eq, successorIndex_eq hl, hsample]
    rfl
  have hbounds (n : Nat) : -32768 ≤ sampleAt n ∧ sampleAt n ≤ 32767 := hsample n ▸ regionSample_bounds hl _ n _
  obtain ⟨hlow, hhigh⟩ := interpolate_bounds (hbounds _) (hbounds _) (f := f) (by omega)
  rw [hvoice]
  exact ⟨rfl, hlow, hhigh, fun h => h ▸ interpolate_zero s0 s1⟩

end Sys2Proof.Machine

/-! The filter, the loop policies and the tables of WVE.TICK (R218 to R227, R231 to R238). -/

namespace Sys2Proof.Machine

open Sys2Proof

/-! ### The filter (R220 to R226) -/

/-- A wrapped value is stored in a history as it is (R43). -/
theorem toInt_ofInt_wrap32 (z : Int) : (BitVec.ofInt 32 (wrap32 z)).toInt = wrap32 z := by
  rw [wrap32, BitVec.ofInt_toInt]

/-- `K >> 4` as a quotient (R220). -/
theorem coefficient_eq (k : Half) : coefficient k = ((k.toNat / 16 : Nat) : Int) := by
  simp [coefficient, Nat.shiftRight_eq_div_pow]

/-- FMODE is 2*LP4 + LP3 (R28). -/
theorem toNat_ctrlFmode (c : BitVec 15) :
    (ctrlFmode c).toNat = if c.getLsbD 5 then (if c.getLsbD 4 then 3 else 2) else if c.getLsbD 4 then 1 else 0 := by
  have hbits : ∀ m : BitVec 2,
      m.toNat = if m.getLsbD 1 then (if m.getLsbD 0 then 3 else 2) else if m.getLsbD 0 then 1 else 0 := by decide
  rw [hbits]
  simp [ctrlFmode]

/-- The default second stage, by the two bits of FMODE (R225). -/
theorem standardStage2_eq (c : BitVec 15) (p : PoleInputs) :
    standardStage2 (ctrlFmode c) p =
      let p3 :=
        if c.getLsbD 4 then lowPass p.k1 p.p2 p.o3
        else if c.getLsbD 5 then lowPass p.k2 p.p2 p.o3 else highPass p.k2 p.p2 p.o2 p.o3
      (p3, if c.getLsbD 5 then lowPass p.k2 p3 p.o4 else highPass p.k2 p3 p.o3 p.o4) := by
  unfold standardStage2
  rw [toNat_ctrlFmode]
  cases c.getLsbD 4 <;> cases c.getLsbD 5 <;> rfl

/-- A host-given second stage, by the two bits of FMODE (R224). -/
theorem rulesStage2_eq (c : BitVec 15) (m0 m1 m2 m3 : PoleRule) (p : PoleInputs) :
    stage2Value (.rules m0 m1 m2 m3) (ctrlFmode c) p =
      ruleStage2 (if c.getLsbD 5 then (if c.getLsbD 4 then m3 else m2) else if c.getLsbD 4 then m1 else m0) p := by
  unfold stage2Value
  dsimp only
  rw [toNat_ctrlFmode]
  cases c.getLsbD 4 <;> cases c.getLsbD 5 <;> rfl

/-- The values of the second stage fit their histories, for every FILTER_STAGE2: each is wrapped (R43, R222). -/
theorem toInt_ofInt_stage2Value (st : Stage2) (fmode : BitVec 2) (p : PoleInputs) :
    (BitVec.ofInt 32 (stage2Value st fmode p).1).toInt = (stage2Value st fmode p).1 ∧
      (BitVec.ofInt 32 (stage2Value st fmode p).2).toInt = (stage2Value st fmode p).2 := by
  cases st with
  | standard =>
    unfold stage2Value standardStage2
    dsimp only
    split <;> exact ⟨toInt_ofInt_wrap32 _, toInt_ofInt_wrap32 _⟩
  | rules m0 m1 m2 m3 =>
    unfold stage2Value
    dsimp only
    split <;> exact ⟨toInt_ofInt_wrap32 _, toInt_ofInt_wrap32 _⟩

/-- What the second filter stage of a voice reads (R223, R224). -/
def secondStageInputs (w : Wve) (v : Voice) : PoleInputs :=
  let k1 : Int := ((v.k1.toNat / 16 : Nat) : Int)
  let p1 := lowPass k1 (voiceSample w v) v.o1.toInt
  { k1 := k1, k2 := ((v.k2.toNat / 16 : Nat) : Int), x := voiceSample w v, p1 := p1, p2 := lowPass k1 p1 v.o2.toInt,
    p3 := 0, o1 := v.o1.toInt, o2 := v.o2.toInt, o3 := v.o3.toInt, o4 := v.o4.toInt }

/-- The poles of a voice (R223, R224). -/
theorem voicePoles_eq (w : Wve) (i : Fin 32) :
    voicePoles w i =
      let p := secondStageInputs w (w.voice i)
      let st := stage2Value w.cfg.stage2 (ctrlFmode (w.voice i).ctrl) p
      { p1 := p.p1, p2 := p.p2, p3 := st.1, p4 := st.2 } := by
  unfold voicePoles filterPoles
  simp only [coefficient_eq]
  rfl

section
variable {s : State} {w : Wve} {i : Fin 32}

/-- A running voice has its poles as histories after a TICK (R226). -/
theorem afterTick_histories (h : s.Runs w i) {P : Voice → Prop}
    (hP : ∀ v', v'.o1 = BitVec.ofInt 32 (voicePoles w i).p1 → v'.o2 = BitVec.ofInt 32 (voicePoles w i).p2 →
      v'.o3 = BitVec.ofInt 32 (voicePoles w i).p3 → v'.o4 = BitVec.ofInt 32 (voicePoles w i).p4 → P v') :
    s.AfterTick i P :=
  afterTick_of_runs h (hP _ (envelope_o1 _) (envelope_o2 _) (envelope_o3 _) (envelope_o4 _))

/-- Poles 1 and 2 are the same for every FILTER_STAGE2 (R223). -/
theorem afterTick_firstStage (h : s.Runs w i) :
    s.AfterTick i fun v' => v'.o1.toInt = (secondStageInputs w (w.voice i)).p1 ∧
      v'.o2.toInt = (secondStageInputs w (w.voice i)).p2 := by
  refine afterTick_histories h fun v' h1 h2 _ _ => ?_
  rw [h1, h2, voicePoles_eq]
  exact ⟨toInt_ofInt_wrap32 _, toInt_ofInt_wrap32 _⟩

/-- Poles 3 and 4 are the values of FILTER_STAGE2 (R224). -/
theorem afterTick_secondStage (h : s.Runs w i) {p3 p4 : Int}
    (hst : stage2Value w.cfg.stage2 (ctrlFmode (w.voice i).ctrl) (secondStageInputs w (w.voice i)) = (p3, p4)) :
    s.AfterTick i fun v' => v'.o3.toInt = p3 ∧ v'.o4.toInt = p4 ∧ (voicePoles w i).p4 = p4 := by
  refine afterTick_histories h fun v' _ _ h3 h4 => ?_
  obtain ⟨hstored3, hstored4⟩ :=
    toInt_ofInt_stage2Value w.cfg.stage2 (ctrlFmode (w.voice i).ctrl) (secondStageInputs w (w.voice i))
  rw [hst] at hstored3 hstored4
  rw [h3, h4, voicePoles_eq]
  dsimp only
  rw [hst]
  exact ⟨hstored3, hstored4, rfl⟩

end

/-- The value of each form of a recurrence (R13, R14, R224). -/
theorem poleValue_forms (p : PoleInputs) (a b : PoleExpr) (n lo hi : Int) (k : Nat) :
    poleValue p (.const n) = n ∧ poleValue p (.add a b) = poleValue p a + poleValue p b ∧
    poleValue p (.sub a b) = poleValue p a - poleValue p b ∧ poleValue p (.mul a b) = poleValue p a * poleValue p b ∧
    poleValue p (.tdiv a k) = Int.tdiv (poleValue p a) k ∧ poleValue p (.shr a k) = poleValue p a / 2 ^ k ∧
    poleValue p (.wrap32 a) = wrap32 (poleValue p a) ∧ poleValue p (.other k) = Config.otherPole k p ∧
    (lo ≤ hi → poleValue p (.clamp a lo hi) = max lo (min hi (poleValue p a))) ∧
    [PoleVar.k1, .k2, .x, .p1, .p2, .p3, .o1, .o2, .o3, .o4].map (fun v => poleValue p (.var v)) =
      [p.k1, p.k2, p.x, p.p1, p.p2, p.p3, p.o1, p.o2, p.o3, p.o4] :=
  ⟨rfl, rfl, rfl, rfl, rfl, rfl, rfl, rfl, fun h => clamp_eq_max_min h _, rfl⟩

/-- Settles O44: the two stages of the filter, then the forms of a recurrence. (`filterPoles` itself is the model's filter
step.) -/
theorem filterPoles_holds : Obligations.FilterPoles := by
  refine ⟨fun s w i h => ⟨afterTick_firstStage h, fun hstd => ?_, fun m0 m1 m2 m3 hrules => ?_⟩, poleValue_forms⟩
  · refine afterTick_secondStage h ?_
    rw [hstd]
    exact standardStage2_eq ..
  · refine afterTick_secondStage h ?_
    rw [hrules]
    exact rulesStage2_eq ..

theorem lowPass_zero (k : Int) : lowPass k 0 0 = 0 := by simp [lowPass, tdiv, wrap32]

theorem highPass_zero (k : Int) : highPass k 0 0 0 = 0 := by simp [highPass, tdiv, wrap32]

/-- With nothing to read and histories 0, the default FILTER_STAGE2 gives 0 in every mode. -/
theorem standardStage2_zero (fmode : BitVec 2) {p : PoleInputs} (h2 : p.p2 = 0) (ho2 : p.o2 = 0) (ho3 : p.o3 = 0)
    (ho4 : p.o4 = 0) : standardStage2 fmode p = (0, 0) := by
  unfold standardStage2
  split <;> simp only [h2, ho2, ho3, ho4, lowPass_zero, highPass_zero]

/-- A voice of an empty region reads 0 (R216). -/
theorem voiceSample_of_empty {w : Wve} {v : Voice} (h : (w.region (ctrlRegion v.ctrl).toFin).size = 0) :
    voiceSample w v = 0 := by
  simp [voiceSample, regionSample_eq, h, interpolate, shiftRight]

/-- A voice of an empty region with histories 0 has poles 0 with the default FILTER_STAGE2. -/
theorem voicePoles_of_empty {w : Wve} {i : Fin 32} (hstd : w.cfg.stage2 = .standard)
    (hsize : (w.region (ctrlRegion (w.voice i).ctrl).toFin).size = 0) (h1 : (w.voice i).o1 = 0#32)
    (h2 : (w.voice i).o2 = 0#32) (h3 : (w.voice i).o3 = 0#32) (h4 : (w.voice i).o4 = 0#32) :
    voicePoles w i = { p1 := 0, p2 := 0, p3 := 0, p4 := 0 } := by
  have hp1 : (secondStageInputs w (w.voice i)).p1 = 0 := by
    simp [secondStageInputs, voiceSample_of_empty hsize, h1, lowPass_zero]
  have hp2 : (secondStageInputs w (w.voice i)).p2 = 0 := by
    simp [secondStageInputs, voiceSample_of_empty hsize, h1, h2, lowPass_zero]
  have hstage2 := standardStage2_zero (ctrlFmode (w.voice i).ctrl) hp2 (congrArg BitVec.toInt h2)
    (congrArg BitVec.toInt h3) (congrArg BitVec.toInt h4)
  rw [voicePoles_eq, hstd]
  simp only [stage2Value, hp1, hp2, hstage2]

/-- Settles O51: every pole is 0, and so is its product with a gain. -/
theorem missingDataSilence : Obligations.MissingDataSilence := by
  intro s w i h hstd hsize h1 h2 h3 h4
  have hpoles := voicePoles_of_empty hstd hsize h1 h2 h3 h4
  refine ⟨afterTick_histories h fun v' g1 g2 g3 g4 => ?_, fun vol => ?_⟩
  · rw [g1, g2, g3, g4, hpoles]
    exact ⟨rfl, rfl, rfl, rfl⟩
  · rw [hpoles, zero_mul, Int.zero_ediv]

/-! ### The advance (R231 to R238) -/

theorem legal_of_runs {s : State} {w : Wve} {i : Fin 32} (h : s.Runs w i) : wveConfigLegal w.cfg = true := h.2.1

section
variable {c : WveConfig} {v : Voice}

/-- The step of a voice that meets no boundary (R231, R232). -/
theorem advance_inside (hl : wveConfigLegal c = true) (hf : ¬ CrossesForward c v) (hr : ¬ CrossesReverse c v) :
    advance c v = { v with accum := toAccum (nextPosition c v) } := by
  rw [advance, if_neg]
  rw [crosses_iff hl]
  exact not_or.2 ⟨hf, hr⟩

theorem advance_forward (hl : wveConfigLegal c = true) (h : CrossesForward c v) :
    advance c v = cross c v false (forwardPosition c v) := by
  have hdir : ctrlDir v.ctrl = false := h.1
  rw [advance, if_pos ((crosses_iff hl v).2 (.inl h)), hdir, nextPosition_forward hl h.1]

theorem advance_reverse (hl : wveConfigLegal c = true) (h : CrossesReverse c v) :
    advance c v = cross c v true (reversePosition c v) := by
  have hdir : ctrlDir v.ctrl = true := h.1
  rw [advance, if_pos ((crosses_iff hl v).2 (.inr h)), hdir, nextPosition_reverse hl h.1]

/-- The policy of a loop that is not empty is the one LOOP selects (R27, R238). -/
theorem crossPolicy_of_loop (hl : wveConfigLegal c = true) (h : loopLow c v < loopHigh c v) {bits : BitVec 2}
    (hb : v.ctrl.extractLsb' 2 2 = bits) : crossPolicy c v = loopPolicyOf bits := by
  rw [crossPolicy_eq hl, if_neg (by omega), hb]

theorem cross_stop (h : crossPolicy c v = .stop) (rev : Bool) (n : Int) :
    cross c v rev n = { v with ctrl := raiseIrq v.ctrl ||| 0x0001#15, accum := toAccum n } := by
  unfold cross
  rw [h]
  rfl

theorem cross_loopForward (h : crossPolicy c v = .loopForward) (hl : wveConfigLegal c = true) (rev : Bool) (n : Int) :
    cross c v rev n =
      { v with ctrl := raiseIrq v.ctrl,
               accum := toAccum (if rev then loopHigh c v - (loopLow c v - n) % (loopHigh c v - loopLow c v : Int)
                 else loopLow c v + (n - loopHigh c v) % (loopHigh c v - loopLow c v : Int)) } := by
  unfold cross
  rw [h, startBound_eq hl, endBound_eq hl]

theorem cross_bounce (h : crossPolicy c v = .bounce) (hl : wveConfigLegal c = true) (rev : Bool) (n : Int) :
    cross c v rev n =
      { v with ctrl := setDir (raiseIrq v.ctrl) (!rev),
               accum := toAccum ((if rev then 2 * loopLow c v - n else 2 * loopHigh c v - n) % 2 ^ c.accBits) } := by
  unfold cross
  rw [h, startBound_eq hl, endBound_eq hl]
  rfl

theorem cross_loopWithBounce (h : crossPolicy c v = .loopWithBounce) (hl : wveConfigLegal c = true) (rev : Bool)
    (n : Int) :
    cross c v rev n =
      { v with ctrl := raiseIrq v.ctrl,
               accum := toAccum (if rev then loopLow c v + (loopLow c v - n) % (loopHigh c v - loopLow c v : Int)
                 else loopHigh c v - (n - loopHigh c v) % (loopHigh c v - loopLow c v : Int)) } := by
  unfold cross
  rw [h, startBound_eq hl, endBound_eq hl]

/-- A distance modulo the loop length is one of natural numbers (R235, R237). -/
theorem cast_loopOffset {a b lo hi : Nat} (hab : b ≤ a) (hloop : lo < hi) :
    ((a : Int) - b) % (hi - lo) = ((a - b) % (hi - lo) : Nat) := by
  push_cast [hab, hloop.le]
  rfl

end

section
variable {s : State} {w : Wve} {i : Fin 32} {ctrl : BitVec 15}

/-- A running voice takes the CTRL and the ACCUM of its advance (R210); an exact position is stored as it is (R38). -/
theorem afterTick_moved (h : s.Runs w i) {z : Int}
    (hmoved : advance w.cfg (w.voice i) = { w.voice i with ctrl := ctrl, accum := toAccum z })
    (h0 : 0 ≤ z) (hz : z < 2 ^ w.cfg.accBits) {P : Voice → Prop}
    (hP : ∀ v', (v'.accum.toNat : Int) = z → v'.ctrl = ctrl → P v') : s.AfterTick i P := by
  have hl := legal_of_runs h
  obtain ⟨n, rfl⟩ := Int.eq_ofNat_of_zero_le h0
  refine afterTick_of_runs h (hP _ ?_ ?_)
  · rw [envelope_accum, setHistories_accum, hmoved, toNat_toAccum hl (by exact_mod_cast hz)]
  · rw [envelope_ctrl, setHistories_ctrl, hmoved]

/-- A voice that moves to a distance above its loop start, modulo the loop length, is in [lo, hi). -/
theorem afterTick_aboveStart (h : s.Runs w i) {lo hi a b : Nat}
    (hmoved : advance w.cfg (w.voice i) =
      { w.voice i with ctrl := ctrl, accum := toAccum (lo + ((a : Int) - b) % (hi - lo)) })
    (hab : b ≤ a) (hloop : lo < hi) (hhi : hi < 2 ^ w.cfg.accBits) :
    s.AfterTick i fun v' =>
      v'.accum.toNat = lo + (a - b) % (hi - lo) ∧ lo ≤ v'.accum.toNat ∧ v'.accum.toNat < hi ∧ v'.ctrl = ctrl := by
  have hoffset := Nat.mod_lt (a - b) (Nat.sub_pos_of_lt hloop)
  have hhi' : (hi : Int) < 2 ^ w.cfg.accBits := by exact_mod_cast hhi
  rw [cast_loopOffset hab hloop] at hmoved
  refine afterTick_moved h hmoved (by omega) (by omega) fun v' haccum hctrl => ⟨?_, ?_, ?_, hctrl⟩ <;> omega

/-- A voice that moves to a distance below its loop end, modulo the loop length, is in (lo, hi]. -/
theorem afterTick_belowEnd (h : s.Runs w i) {lo hi a b : Nat}
    (hmoved : advance w.cfg (w.voice i) =
      { w.voice i with ctrl := ctrl, accum := toAccum (hi - ((a : Int) - b) % (hi - lo)) })
    (hab : b ≤ a) (hloop : lo < hi) (hhi : hi < 2 ^ w.cfg.accBits) :
    s.AfterTick i fun v' =>
      v'.accum.toNat = hi - (a - b) % (hi - lo) ∧ lo < v'.accum.toNat ∧ v'.accum.toNat ≤ hi ∧ v'.ctrl = ctrl := by
  have hoffset := Nat.mod_lt (a - b) (Nat.sub_pos_of_lt hloop)
  have hhi' : (hi : Int) < 2 ^ w.cfg.accBits := by exact_mod_cast hhi
  rw [cast_loopOffset hab hloop] at hmoved
  refine afterTick_moved h hmoved (by omega) (by omega) fun v' haccum hctrl => ⟨?_, ?_, ?_, hctrl⟩ <;> omega

end

/-- Settles O45: the next position, by the direction. -/
theorem advanceInside : Obligations.AdvanceInside := by
  intro s w i h hf hr
  have hl := legal_of_runs h
  obtain ⟨h0, hlt⟩ := nextPosition_bounds w.cfg (w.voice i)
  refine afterTick_moved h (advance_inside hl hf hr) h0 hlt fun v' haccum hctrl => ⟨hctrl, ?_⟩
  cases hdir : (w.voice i).ctrl.getLsbD 1
  · rw [nextPosition_forward hl hdir] at haccum
    exact Int.ofNat_inj.1 haccum
  · rw [nextPosition_reverse hl hdir] at haccum
    exact Int.ofNat_inj.1 haccum

/-- Settles O46: LOOP = 0 and an empty loop both select the stop policy. -/
theorem crossStop : Obligations.CrossStop := by
  intro s w i h v irq hcause
  have hl := legal_of_runs h
  have hpolicy : crossPolicy w.cfg v = .stop := by
    rw [crossPolicy_eq hl]
    split
    case isTrue => rfl
    case isFalse hloop => rw [hcause.resolve_right hloop]; rfl
  have hirq : raiseIrq v.ctrl = v.ctrl ||| irq := raiseIrq_eq _
  obtain ⟨hforward, hreverse⟩ := position_lt w.cfg v
  rw [← hirq]
  constructor <;> intro hx
  · exact afterTick_moved h ((advance_forward hl hx).trans (cross_stop hpolicy _ _)) (Int.natCast_nonneg _)
      (by exact_mod_cast hforward) fun v' haccum hctrl => ⟨Int.ofNat_inj.1 haccum, hctrl⟩
  · exact afterTick_moved h ((advance_reverse hl hx).trans (cross_stop hpolicy _ _)) (Int.natCast_nonneg _)
      (by exact_mod_cast hreverse) fun v' haccum hctrl => ⟨Int.ofNat_inj.1 haccum, hctrl⟩

/-- Settles O47: forward the excess is counted up from the start, in reverse down from the end. -/
theorem crossLoopForward : Obligations.CrossLoopForward := by
  intro s w i h v lo hi irq hbits hloop
  have hl := legal_of_runs h
  have hpolicy : crossPolicy w.cfg v = .loopForward := crossPolicy_of_loop hl hloop hbits
  have hirq : raiseIrq v.ctrl = v.ctrl ||| irq := raiseIrq_eq _
  rw [← hirq]
  have hhi : hi < 2 ^ w.cfg.accBits := (loop_lt hl v).2
  constructor <;> intro hx
  · exact afterTick_aboveStart h ((advance_forward hl hx).trans (cross_loopForward hpolicy hl _ _)) hx.2 hloop hhi
  · exact afterTick_belowEnd h ((advance_reverse hl hx).trans (cross_loopForward hpolicy hl _ _)) hx.2.le hloop hhi

/-- Settles O48: the reflection modulo the accumulator, and DIR turned away from the boundary. -/
theorem crossBounce : Obligations.CrossBounce := by
  intro s w i h v lo hi irq hbits hloop
  have hl := legal_of_runs h
  have hpolicy : crossPolicy w.cfg v = .bounce := crossPolicy_of_loop hl hloop hbits
  have hirq : raiseIrq v.ctrl = v.ctrl ||| irq := raiseIrq_eq _
  have hmodulus : (0 : Int) < 2 ^ w.cfg.accBits := by positivity
  rw [← hirq]
  constructor <;> intro hx
  · exact afterTick_moved h ((advance_forward hl hx).trans (cross_bounce hpolicy hl _ _))
      (Int.emod_nonneg _ hmodulus.ne') (Int.emod_lt_of_pos _ hmodulus) fun v' haccum hctrl => ⟨haccum, hctrl⟩
  · exact afterTick_moved h ((advance_reverse hl hx).trans (cross_bounce hpolicy hl _ _))
      (Int.emod_nonneg _ hmodulus.ne') (Int.emod_lt_of_pos _ hmodulus) fun v' haccum hctrl => ⟨haccum, hctrl⟩

/-- Settles O49: forward the excess is counted down from the end, in reverse up from the start. -/
theorem crossLoopWithBounce : Obligations.CrossLoopWithBounce := by
  intro s w i h v lo hi irq hbits hloop
  have hl := legal_of_runs h
  have hpolicy : crossPolicy w.cfg v = .loopWithBounce := crossPolicy_of_loop hl hloop hbits
  have hirq : raiseIrq v.ctrl = v.ctrl ||| irq := raiseIrq_eq _
  rw [← hirq]
  have hhi : hi < 2 ^ w.cfg.accBits := (loop_lt hl v).2
  constructor <;> intro hx
  · exact afterTick_belowEnd h ((advance_forward hl hx).trans (cross_loopWithBounce hpolicy hl _ _)) hx.2 hloop hhi
  · exact afterTick_aboveStart h ((advance_reverse hl hx).trans (cross_loopWithBounce hpolicy hl _ _)) hx.2.le hloop hhi

/-! ### The tables (R218, R227, R275, R279 to R281) -/

/-- The magnitude of a difference reads the low three bits of the code (R280). -/
theorem deltaMag_xor_sign (s : Nat) (c : BitVec 4) : deltaMag s (c ^^^ 8#4) = deltaMag s c := by
  simp [deltaMag]

/-- Bit 3 of a code is the sign of its difference (R280). -/
theorem adpDelta_xor_sign (s : Nat) (c : BitVec 4) : adpDelta s (c ^^^ 8#4) = -adpDelta s c := by
  unfold adpDelta
  rw [deltaMag_xor_sign, BitVec.getLsbD_xor]
  cases c.getLsbD 3 <;> simp

/-- Settles O56: the sign laws for every code, and the tables by evaluation. -/
theorem tables : Obligations.Tables :=
  ⟨by decide +kernel, fun c => (g711Entry_lawful.1 c).2.2, fun _ _ => rfl, by decide +kernel, by decide +kernel,
    by decide +kernel, adpDelta_xor_sign, by decide +kernel, by decide +kernel, by decide +kernel, by decide +kernel,
    by decide +kernel, by decide +kernel, by decide +kernel⟩

end Sys2Proof.Machine

/-! ADP: the register writes, the FIFO as a queue, the TICK, and the output ranges of ADP.TICK and SWE.TICK
(R53, R271 to R288, R335). -/

namespace Sys2Proof.Machine

open Sys2Proof

/-! ### The FIFO cursors (R53, R273) -/

theorem cursor_add_one (c : BitVec 3) : c + 1#3 = BitVec.ofNat 3 ((c.toNat + 1) % 8) :=
  BitVec.eq_of_toNat_eq (by simp)

theorem fifoFull_iff {p : Adp} : fifoFull p = true ↔ (p.wr.toNat + 1) % 8 = p.rd.toNat := by
  simp [fifoFull, ← BitVec.toNat_inj]

theorem fifoFull_iff_occupancy {p : Adp} : fifoFull p = true ↔ fifoOccupancy p = 7 := by
  rw [fifoFull_iff, fifoOccupancy]
  bv_omega

theorem fifoEmpty_iff {p : Adp} : fifoEmpty p = true ↔ p.wr = p.rd := beq_iff_eq

theorem fifoEmpty_iff_occupancy {p : Adp} : fifoEmpty p = true ↔ fifoOccupancy p = 0 := by
  rw [fifoEmpty_iff, fifoOccupancy]
  bv_omega

/-! ### The register writes of a present ADP (R271 to R277) -/

theorem adpWrData_full {s : State} {p : Adp} (hp : s.adp = some p) (hfull : fifoFull p = true) (d : Byte) :
    exec (.adpWrData d) s = .next (s.emit [.diag .adp .fifoOverflow]) := by
  rw [← onAdp_unchanged hp]
  simp [exec, execAdpWrData, onAdp_present hp, hfull]

theorem adpWrData_accepted {s : State} {p : Adp} (hp : s.adp = some p) (hroom : ¬ fifoFull p = true) (d : Byte) :
    exec (.adpWrData d) s =
      .next (State.emit { s with adp := some (enqueue p (adpCode d (ctlB3 p.ctl))) } []) := by
  simp [exec, execAdpWrData, onAdp_present hp, hroom]

/-- The stored code as a number (R272). -/
theorem adpCode_eq_ofNat (d : Byte) (b3 : Bool) :
    adpCode d b3 = BitVec.ofNat 4 (if b3 then d.toNat % 8 * 2 else d.toNat % 16) := by
  revert d b3
  decide +kernel

/-- An accepted data write in the terms of R271. -/
theorem enqueue_eq (p : Adp) (c : BitVec 4) :
    enqueue p c = { p with fq := p.fq.set p.wr.toFin c, wr := BitVec.ofNat 3 ((p.wr.toNat + 1) % 8) } := by
  rw [enqueue, cursor_add_one]

/-- Settles O52: by whether the FIFO is full; an accepted code is the byte's low bits. -/
theorem adpData : Obligations.AdpData := by
  intro d s p hp
  refine ⟨fun hfull => adpWrData_full hp (fifoFull_iff.2 hfull) d, fun hroom => ?_⟩
  rw [adpWrData_accepted hp (mt fifoFull_iff.1 hroom), adpCode_eq_ofNat, enqueue_eq, ctlB3]

/-- A control write, by whether it changes RST (R274, R276). -/
theorem writeCtl_eq (p : Adp) (d : Byte) :
    writeCtl p d =
      { p with ctl := d, signal := if ctlRst d ≠ ctlRst p.ctl then 0 else p.signal,
               step := if ctlRst d ≠ ctlRst p.ctl then 0 else p.step } := by
  unfold writeCtl
  split <;> simp [*]

/-- Settles O53: the control write's own equation, with the rate of the new RS as a quotient. -/
theorem adpCtrl : Obligations.AdpCtrl := by
  intro d s p hp
  refine (onAdp_present hp _).trans ?_
  simp only [writeCtl_eq, adpRate_eq, prescale_ctlRs, ne_eq, ← not_and_or, ite_not]
  rfl

/-! ### The TICK of a present ADP (R282 to R286) -/

section
variable {s : State} {p : Adp} (hp : s.adp = some p)
include hp

theorem adpTick_reset (hrst : ctlRst p.ctl = true) :
    exec .adpTick s = .next (State.emit { s with adp := some { p with signal := 0, step := 0 } } [.out .adp [0]]) := by
  simp [exec, execAdpTick, onAdp_present hp, hrst]

theorem adpTick_muted (hrst : ctlRst p.ctl = false) (hmute : p.amute = true) :
    exec .adpTick s = .next (s.emit [.out .adp [0]]) := by
  rw [← onAdp_unchanged hp]
  simp [exec, execAdpTick, onAdp_present hp, hrst, hmute]

theorem adpTick_idle (hrst : ctlRst p.ctl = false) (hmute : p.amute = false) (hempty : fifoEmpty p = true) :
    exec .adpTick s = .next (s.emit [.out .adp [tdiv (p.signal * 15) 16]]) := by
  rw [← onAdp_unchanged hp]
  simp [exec, execAdpTick, onAdp_present hp, hrst, hmute, hempty]

theorem adpTick_decoding (hrst : ctlRst p.ctl = false) (hmute : p.amute = false) (hcode : ¬ fifoEmpty p = true) :
    exec .adpTick s =
      .next (State.emit { s with adp := some (decodeCode p) } [.out .adp [(decodeCode p).signal * 16]]) := by
  simp [exec, execAdpTick, onAdp_present hp, hrst, hmute, hcode]

end

/-- What the TICK of a present ADP does, the first that applies: held in reset, muted, idle, decoding. -/
theorem adpTick_phase (p : Adp) :
    ctlRst p.ctl = true ∨ ctlRst p.ctl = false ∧ p.amute = true ∨
      ctlRst p.ctl = false ∧ p.amute = false ∧ fifoEmpty p = true ∨
      ctlRst p.ctl = false ∧ p.amute = false ∧ ¬ fifoEmpty p = true := by
  cases ctlRst p.ctl <;> cases p.amute <;> simp

/-- ADJ as the table of R281. -/
theorem adpAdjust_eq_getD (c : BitVec 4) : adpAdjust c = [-1, -1, -1, -1, 2, 4, 6, 8].getD (c.toNat % 8) 0 := by
  revert c
  decide

/-- A decoding TICK in the terms of R285 and R281. -/
theorem decodeCode_eq (p : Adp) :
    decodeCode p =
      let c := p.fq[p.rd.toFin]
      { p with rd := BitVec.ofNat 3 ((p.rd.toNat + 1) % 8),
               signal := max (-2048) (min 2047 (Int.tdiv (adpDelta p.step c * 256 + p.signal * 245) 256)),
               step :=
                (max 0 (min 48 ((p.step : Int) + [-1, -1, -1, -1, 2, 4, 6, 8].getD (c.toNat % 8) 0))).toNat } := by
  simp only [decodeCode, decodedSignal, decodedStep, cursor_add_one, adpAdjust_eq_getD,
    clamp_eq_max_min (lo := -2048) (hi := 2047) (by decide), clamp_eq_max_min (lo := 0) (hi := 48) (by decide), tdiv]

/-- Settles O54: the four cases of the TICK, the decoding one in the terms of R285 and R281. -/
theorem adpTick : Obligations.AdpTick := by
  intro s p hp
  refine ⟨adpTick_reset hp, adpTick_muted hp, fun hrst hmute hcode => ?_,
    fun hrst hmute hempty => adpTick_idle hp hrst hmute (fifoEmpty_iff.2 hempty)⟩
  rw [adpTick_decoding hp hrst hmute (mt fifoEmpty_iff.1 hcode), decodeCode_eq]

/-! ### The FIFO as a queue (R288) -/

@[simp] theorem length_fifoCodes (p : Adp) : (fifoCodes p).length = fifoOccupancy p := by
  simp [fifoCodes]

theorem fifoCodes_eq_nil {p : Adp} (h : p.wr = p.rd) : fifoCodes p = [] :=
  List.eq_nil_of_length_eq_zero (by simp [fifoOccupancy, h])

/-- An accepted code adds one to the occupancy. -/
theorem fifoOccupancy_enqueue {p : Adp} (hroom : ¬ fifoFull p = true) (c : BitVec 4) :
    fifoOccupancy (enqueue p c) = fifoOccupancy p + 1 := by
  rw [fifoFull_iff] at hroom
  simp only [fifoOccupancy, enqueue_wr, enqueue_rd]
  bv_omega

/-- The slot at WR holds the accepted code, each other slot its old one. -/
theorem getElem_enqueue (p : Adp) (c : BitVec 4) (a : BitVec 3) :
    (enqueue p c).fq[a.toFin] = if p.wr = a then c else p.fq[a.toFin] := by
  simp only [enqueue_fq, Fin.getElem_fin, Vector.getElem_set, ← BitVec.toNat_inj]
  rfl

/-- An accepted code goes behind the codes waiting: its slot is none of theirs. -/
theorem fifoCodes_enqueue {p : Adp} (hroom : ¬ fifoFull p = true) (c : BitVec 4) :
    fifoCodes (enqueue p c) = fifoCodes p ++ [c] := by
  have hslot : p.rd + BitVec.ofNat 3 (fifoOccupancy p) = p.wr := by
    simp only [fifoOccupancy]
    bv_omega
  have hother : ∀ k < fifoOccupancy p, p.wr ≠ p.rd + BitVec.ofNat 3 k := by
    intro k hk
    simp only [fifoOccupancy] at hk
    bv_omega
  rw [fifoCodes, fifoOccupancy_enqueue hroom, List.range_succ, List.map_append, fifoCodes]
  congr 1
  · refine List.map_congr_left fun k hk => ?_
    exact (getElem_enqueue p c _).trans (if_neg (hother k (List.mem_range.1 hk)))
  · exact congrArg (fun x => [x]) ((getElem_enqueue p c _).trans (if_pos hslot.symm))

/-- Decoding takes one from the occupancy. -/
theorem fifoOccupancy_decodeCode {p : Adp} (hcode : ¬ fifoEmpty p = true) :
    fifoOccupancy p = fifoOccupancy (decodeCode p) + 1 := by
  rw [fifoEmpty_iff] at hcode
  simp only [fifoOccupancy, decodeCode_wr, decodeCode_rd]
  bv_omega

/-- Decoding removes the code at RD, the oldest. -/
theorem fifoCodes_decodeCode {p : Adp} (hcode : ¬ fifoEmpty p = true) :
    fifoCodes p = p.fq[p.rd.toFin] :: fifoCodes (decodeCode p) := by
  have hnext : ∀ k, p.rd + 1#3 + BitVec.ofNat 3 k = p.rd + BitVec.ofNat 3 (k + 1) := by
    intro k
    bv_omega
  rw [fifoCodes, fifoOccupancy_decodeCode hcode, List.range_succ_eq_map, List.map_cons, List.map_map, fifoCodes]
  simp [hnext, Function.comp_def]

/-- The same FIFO slots and cursors, hence the same codes waiting (`fifoCodes_of_sameFifo`). -/
def SameFifo (p p' : Adp) : Prop := p'.fq = p.fq ∧ p'.rd = p.rd ∧ p'.wr = p.wr

theorem sameFifo_refl (p : Adp) : SameFifo p p := ⟨rfl, rfl, rfl⟩

theorem fifoCodes_of_sameFifo {p p' : Adp} (h : SameFifo p p') : fifoCodes p' = fifoCodes p := by
  obtain ⟨hfq, hrd, hwr⟩ := h
  simp only [fifoCodes, fifoOccupancy, hfq, hrd, hwr]

/-- What a command of a present ADP leaves of it. -/
theorem onAdp_after {s t : State} {p p' : Adp} {f : Adp → Adp × List Event} (h : onAdp s f = .next t)
    (hp : s.adp = some p) (hp' : t.adp = some p') : p' = (f p).1 := by
  cases (onAdp_present hp f).symm.trans h
  exact (Option.some.inj hp').symm

theorem onAdp_sameFifo {s t : State} {p p' : Adp} {f : Adp → Adp × List Event} (h : onAdp s f = .next t)
    (hp : s.adp = some p) (hp' : t.adp = some p') (hf : ∀ p, SameFifo p (f p).1) : SameFifo p p' :=
  onAdp_after h hp hp' ▸ hf p

/-- A command that does not change the ADP leaves its FIFO. -/
theorem sameFifo_of_adp_eq {s t : State} {p p' : Adp} (h : t.adp = s.adp) (hp : s.adp = some p)
    (hp' : t.adp = some p') : SameFifo p p' := by
  cases hp.symm.trans (h.symm.trans hp')
  exact sameFifo_refl p

theorem adpStart_present {s : State} {p : Adp} (hp : s.adp = some p) :
    exec .adpStart s = .next (s.refuse (.startPresent .adp)) :=
  startWith_next_iff.2 (.inl ⟨Option.isSome_of_mem hp, rfl⟩)

/-- No command but a data write, a TICK and RESET touches the FIFO of an ADP that stays present. -/
theorem exec_sameFifo {i : Instr} {s t : State} {p p' : Adp} (h : exec i s = .next t) (hp : s.adp = some p)
    (hp' : t.adp = some p') (hdata : ∀ d, i ≠ .adpWrData d) (htick : i ≠ .adpTick) (hreset : i ≠ .adpReset) :
    SameFifo p p' := by
  by_cases he : i.engine = .adp
  case neg =>
    obtain ⟨-, hframe, -⟩ := engineFrame i s t h
    exact sameFifo_of_adp_eq (hframe he) hp hp'
  cases i with
  | adpWrData d => exact absurd rfl (hdata d)
  | adpTick => exact absurd rfl htick
  | adpReset => exact absurd rfl hreset
  | adpWrCtrl d => exact onAdp_sameFifo h hp hp' fun p => ⟨writeCtl_fq p d, writeCtl_rd p d, writeCtl_wr p d⟩
  | adpRd | adpLoad | adpMute => exact onAdp_sameFifo h hp hp' fun _ => ⟨rfl, rfl, rfl⟩
  | adpStart =>
    cases (adpStart_present hp).symm.trans h
    exact sameFifo_of_adp_eq rfl hp hp'
  | adpStop =>
    cases (adpStop_present (Option.isSome_of_mem hp)).symm.trans h
    cases hp'
  | ignored acc =>
    cases acc with
    | adpWrite => exact onAdp_sameFifo h hp hp' sameFifo_refl
    | wveWrite | wveRead | sweWrite => cases he
  | _ => cases he

/-- RESET empties the FIFO (R391). -/
theorem fifoCodes_resetAdp (p : Adp) : fifoCodes (resetAdp p) = [] := fifoCodes_eq_nil rfl

/-- START makes an ADP with an empty FIFO (R131). -/
theorem fifoCodes_startedAdp (cfg : AdpConfig) : fifoCodes (startedAdp cfg) = [] := fifoCodes_eq_nil rfl

/-- A TICK that decodes nothing leaves the FIFO as it is: held in reset, muted or with no code waiting. -/
theorem adpTick_sameFifo {s t : State} {p p' : Adp} (h : exec .adpTick s = .next t) (hp : s.adp = some p)
    (hp' : t.adp = some p') (hnone : ctlRst p.ctl = true ∨ p.amute = true ∨ fifoEmpty p = true) :
    SameFifo p p' := by
  obtain hrst | ⟨hrst, hmute⟩ | ⟨hrst, hmute, hempty⟩ | ⟨hrst, hmute, hcode⟩ := adpTick_phase p
  · cases (adpTick_reset hp hrst).symm.trans h
    cases hp'
    exact ⟨rfl, rfl, rfl⟩
  · cases (adpTick_muted hp hrst hmute).symm.trans h
    exact sameFifo_of_adp_eq rfl hp hp'
  · cases (adpTick_idle hp hrst hmute hempty).symm.trans h
    exact sameFifo_of_adp_eq rfl hp hp'
  · simp [hrst, hmute, hcode] at hnone

/-- Settles O55: by the command, from the queue laws of an accepted code and of a decoded one; each other command
leaves the FIFO alone or empties it. -/
theorem adpFifoQueue : Obligations.AdpFifoQueue := by
  refine ⟨fun i s t p p' h hp hp' => ⟨?_, ?_, ?_, ?_, ?_, fun hdata htick hreset => ?_⟩, ?_⟩
  · rintro d rfl hroom
    have hfull := mt fifoFull_iff_occupancy.1 hroom.ne
    cases (adpWrData_accepted hp hfull d).symm.trans h
    cases hp'
    exact ⟨fifoCodes_enqueue hfull _, fifoOccupancy_enqueue hfull _⟩
  · rintro d rfl hseven
    cases (adpWrData_full hp (fifoFull_iff_occupancy.2 hseven) d).symm.trans h
    exact fifoCodes_of_sameFifo (sameFifo_of_adp_eq rfl hp hp')
  · rintro rfl hrst hmute hwaiting
    have hcode := mt fifoEmpty_iff_occupancy.1 hwaiting.ne'
    cases (adpTick_decoding hp hrst hmute hcode).symm.trans h
    cases hp'
    exact ⟨fifoCodes_decodeCode hcode, fifoOccupancy_decodeCode hcode⟩
  · rintro rfl hnone
    rw [← fifoEmpty_iff_occupancy] at hnone
    exact fifoCodes_of_sameFifo (adpTick_sameFifo h hp hp' hnone)
  · rintro rfl
    rw [onAdp_after h hp hp']
    exact fifoCodes_resetAdp p
  · exact fifoCodes_of_sameFifo (exec_sameFifo h hp hp' hdata htick hreset)
  · intro s t p' habsent h hp'
    have heffect := exec_adp_effect h
    rw [habsent, hp'] at heffect
    cases heffect with
    | started hmade =>
      obtain ⟨cfg, -, rfl⟩ := hmade
      exact fifoCodes_startedAdp cfg

/-! ### The output ranges (R287, R335) -/

/-- An idle TICK of a good ADP outputs fifteen sixteenths of a 12-bit signed value (R286). -/
theorem idleOutput_bounds {signal : Int} (hlow : -2048 ≤ signal) (hhigh : signal ≤ 2047) :
    -1920 ≤ tdiv (signal * 15) 16 ∧ tdiv (signal * 15) 16 ≤ 1919 := by
  have hleft : Int.tdiv (-2048 * 15) 16 ≤ tdiv (signal * 15) 16 :=
    Int.tdiv_le_tdiv (by decide) (Int.mul_le_mul_of_nonneg_right hlow (by decide))
  have hright : tdiv (signal * 15) 16 ≤ Int.tdiv (2047 * 15) 16 :=
    Int.tdiv_le_tdiv (by decide) (Int.mul_le_mul_of_nonneg_right hhigh (by decide))
  exact ⟨hleft, hright⟩

/-- The output of the next TICK of a present ADP (R282). -/
def adpOutput (p : Adp) : Int :=
  if ctlRst p.ctl ∨ p.amute then 0
  else if fifoEmpty p then tdiv (p.signal * 15) 16
  else (decodeCode p).signal * 16

theorem adpOutput_silent {p : Adp} (h : ctlRst p.ctl = true ∨ p.amute = true) : adpOutput p = 0 := if_pos h

theorem adpOutput_idle {p : Adp} (hrst : ctlRst p.ctl = false) (hmute : p.amute = false) (hempty : fifoEmpty p = true) :
    adpOutput p = tdiv (p.signal * 15) 16 := by
  simp [adpOutput, hrst, hmute, hempty]

theorem adpOutput_decoding {p : Adp} (hrst : ctlRst p.ctl = false) (hmute : p.amute = false)
    (hcode : ¬ fifoEmpty p = true) : adpOutput p = (decodeCode p).signal * 16 := by
  simp [adpOutput, hrst, hmute, hcode]

theorem adpTick_output {s : State} {p : Adp} (hp : s.adp = some p) :
    ∃ t, exec .adpTick s = .next t ∧ t.trace = s.trace ++ [.done [.out .adp [adpOutput p]]] := by
  obtain hrst | ⟨hrst, hmute⟩ | ⟨hrst, hmute, hempty⟩ | ⟨hrst, hmute, hcode⟩ := adpTick_phase p
  · rw [adpOutput_silent (.inl hrst)]
    exact ⟨_, adpTick_reset hp hrst, rfl⟩
  · rw [adpOutput_silent (.inr hmute)]
    exact ⟨_, adpTick_muted hp hrst hmute, rfl⟩
  · rw [adpOutput_idle hrst hmute hempty]
    exact ⟨_, adpTick_idle hp hrst hmute hempty, rfl⟩
  · rw [adpOutput_decoding hrst hmute hcode]
    exact ⟨_, adpTick_decoding hp hrst hmute hcode, rfl⟩

/-- A signed nibble times a volume (R334). -/
theorem sweContribution_bounds (lut : Store) (bank : Nat) (v : SweVoice) :
    -120 ≤ sweContribution lut bank v ∧ sweContribution lut bank v ≤ 105 := by
  unfold sweContribution
  generalize (lut.lutByte (lutIndex bank v)).extractLsb' 0 4 = nibble
  have hvol := v.vol.isLt
  have hlow := Int.mul_le_mul_of_nonneg_right (BitVec.le_toInt nibble) (Int.natCast_nonneg v.vol.toNat)
  have hhigh := Int.mul_le_mul_of_nonneg_right (BitVec.toInt_le (x := nibble)) (Int.natCast_nonneg v.vol.toNat)
  omega

/-- A voice's part of a SWE TICK, none when it is muted. -/
theorem tickSweVoice_bounds (lut : Store) (muted : Bool) (bank : Nat) (v : SweVoice) :
    -120 ≤ (tickSweVoice lut muted bank v).2 ∧ (tickSweVoice lut muted bank v).2 ≤ 105 := by
  cases muted with
  | true => simp [tickSweVoice]
  | false => exact sweContribution_bounds lut bank (stepCounter v)

/-- Settles O59: the output of each TICK, whose range follows from those of SIGNAL and of a voice's part. -/
theorem outputRanges : Obligations.OutputRanges := by
  constructor
  · rintro s p hp ⟨-, hlow, hhigh, -⟩
    obtain ⟨t, ht, htrace⟩ := adpTick_output hp
    refine ⟨t, adpOutput p, ht, htrace, adpOutput_silent, fun hrst hmute hcode => ?_, fun hrst hmute hempty => ?_⟩
    · have hbounds := decodedSignal_bounds p.signal (adpDelta p.step p.fq[p.rd.toFin])
      rw [adpOutput_decoding hrst hmute (mt fifoEmpty_iff.1 hcode), decodeCode_signal]
      omega
    · rw [adpOutput_idle hrst hmute (fifoEmpty_iff.2 hempty)]
      exact idleOutput_bounds hlow hhigh
  · intro s q hq
    have h0 := tickSweVoice_bounds q.lut (q.smute.getLsbD 0) 0x000 q.v0
    have h1 := tickSweVoice_bounds q.lut (q.smute.getLsbD 1) 0x100 q.v1
    refine ⟨_, _, onSwe_present hq _, rfl, ?_⟩
    omega

end Sys2Proof.Machine

/-! SWE: the register writes, the TICK, and the period of a voice (R321 to R335). -/

namespace Sys2Proof.Machine

open Sys2Proof

/-! ### The register writes of a present SWE (R321 to R326) -/

/-- The latched pitch as a number (R323). -/
theorem latchedPitch_eq_ofNat (p12 : BitVec 12) : latchedPitch p12 = BitVec.ofNat 12 (0xFFF - p12.toNat) := by
  unfold latchedPitch
  bv_omega

/-- Settles O57: each write is the command of a present SWE; the latched pitch is a subtraction of numbers. -/
theorem sweWrites : Obligations.SweWrites := by
  intro a d s q hq
  simp only [← latchedPitch_eq_ofNat]
  exact ⟨onSwe_present hq _, onSwe_present hq _, onSwe_present hq _, onSwe_present hq _, onSwe_present hq _,
    onSwe_present hq _⟩

/-! ### The TICK of a present SWE (R329 to R335) -/

/-- A voice of a TICK, by what the mute bit decides of each part (R329). -/
theorem tickSweVoice_eq (lut : Store) (muted : Bool) (bank : Nat) (v : SweVoice) :
    tickSweVoice lut muted bank v =
      let v' := if muted then v else stepCounter v
      (v', if muted then 0 else sweContribution lut bank v') := by
  cases muted <;> rfl

/-- A step of the counter in the terms of R330 and R331. -/
theorem stepCounter_eq (v : SweVoice) :
    stepCounter v =
      { v with cnt := if v.cnt = 0#12 then v.frq else BitVec.ofNat 12 (v.cnt.toNat - 1),
               addr := if v.cnt = 0#12 then BitVec.ofNat 5 ((v.addr.toNat + 1) % 32) else v.addr } := by
  unfold stepCounter
  split
  case isTrue =>
    have haddr : v.addr + 1#5 = BitVec.ofNat 5 ((v.addr.toNat + 1) % 32) := by bv_omega
    rw [haddr]
  case isFalse hcnt =>
    have hdown : v.cnt - 1#12 = BitVec.ofNat 12 (v.cnt.toNat - 1) := by bv_omega
    rw [hdown]

/-- Settles O58: each voice as the mute bit decides, an unmuted one with its counter stepped. -/
theorem sweTick : Obligations.SweTick := by
  intro s q hq
  simp only [← stepCounter_eq]
  refine (onSwe_present hq _).trans ?_
  simp only [tickSweVoice_eq]
  rfl

/-! ### The period of a voice (R330, R331) -/

/-- As many TICKs as the counter allows take it down one by one. -/
theorem stepCounter_iterate_down (n : Nat) :
    ∀ v : SweVoice, n ≤ v.cnt.toNat → stepCounter^[n] v = { v with cnt := v.cnt - BitVec.ofNat 12 n } := by
  induction n with
  | zero => intro v _; simp
  | succ n ih =>
    intro v hle
    have hcnt : v.cnt ≠ 0#12 := by bv_omega
    have hstep : stepCounter v = { v with cnt := v.cnt - 1#12 } := if_neg hcnt
    have hrest : n ≤ (v.cnt - 1#12).toNat := by bv_omega
    have hsum : v.cnt - 1#12 - BitVec.ofNat 12 n = v.cnt - BitVec.ofNat 12 (n + 1) := by bv_omega
    rw [Function.iterate_succ_apply, hstep, ih _ hrest, hsum]

/-- A period of the counter: down to 0, the reload from FRQ, and down to where it stood. -/
theorem stepCounter_iterate_period (v : SweVoice) (h : v.cnt.toNat ≤ v.frq.toNat) :
    stepCounter^[v.frq.toNat + 1] v = { v with addr := v.addr + 1#5 } := by
  have hsplit : v.frq.toNat + 1 = (v.frq.toNat - v.cnt.toNat) + 1 + v.cnt.toNat := by omega
  have hdown : stepCounter^[v.cnt.toNat] v = { v with cnt := 0#12 } := by
    simp [stepCounter_iterate_down _ v le_rfl]
  have hreload : stepCounter { v with cnt := 0#12 } = { v with cnt := v.frq, addr := v.addr + 1#5 } := rfl
  have hback := stepCounter_iterate_down _ { v with cnt := v.frq, addr := v.addr + 1#5 }
    (Nat.sub_le v.frq.toNat v.cnt.toNat)
  have hcnt : v.frq - BitVec.ofNat 12 (v.frq.toNat - v.cnt.toNat) = v.cnt := by bv_omega
  rw [hsplit, Function.iterate_add_apply, hdown, Function.iterate_succ_apply, hreload, hback, hcnt]

/-- The SWE instance after one TICK. -/
def tickedSwe (q : Swe) : Swe :=
  { q with v0 := (tickSweVoice q.lut (q.smute.getLsbD 0) 0x000 q.v0).1,
           v1 := (tickSweVoice q.lut (q.smute.getLsbD 1) 0x100 q.v1).1 }

theorem tickedSwe_v0 (q : Swe) (h : q.smute.getLsbD 0 = false) : (tickedSwe q).v0 = stepCounter q.v0 := by
  simp only [tickedSwe, tickSweVoice_eq, h, Bool.false_eq_true, if_false]

theorem tickedSwe_v1 (q : Swe) (h : q.smute.getLsbD 1 = false) : (tickedSwe q).v1 = stepCounter q.v1 := by
  simp only [tickedSwe, tickSweVoice_eq, h, Bool.false_eq_true, if_false]

theorem sweTick_present {s : State} {q : Swe} (hq : s.swe = some q) :
    ∃ t, exec .sweTick s = .next t ∧ t.swe = some (tickedSwe q) :=
  ⟨_, onSwe_present hq _, rfl⟩

/-- Repeated TICKs step the counter of a voice as often, when each TICK steps it while its mute bit `k` is 0. -/
theorem repeat_sweTick_voice {voice : Swe → SweVoice} {k : Nat}
    (hvoice : ∀ q, q.smute.getLsbD k = false → voice (tickedSwe q) = stepCounter (voice q)) (n : Nat) :
    ∀ (s : State) (q : Swe), s.swe = some q → q.smute.getLsbD k = false →
      ∃ t q', repeatExec .sweTick n s = .next t ∧ t.swe = some q' ∧ voice q' = stepCounter^[n] (voice q) := by
  induction n with
  | zero => exact fun s q hq _ => ⟨s, q, rfl, hq, rfl⟩
  | succ n ih =>
    intro s q hq hmute
    obtain ⟨t, ht, hticked⟩ := sweTick_present hq
    obtain ⟨u, q', hu, hq', hstepped⟩ := ih t (tickedSwe q) hticked hmute
    refine ⟨u, q', (repeatExec_succ ht n).trans hu, hq', ?_⟩
    rw [hstepped, hvoice q hmute, Function.iterate_succ_apply]

/-- Settles O60: for each voice FRQ + 1 TICKs are a period of its counter. -/
theorem swePeriod : Obligations.SwePeriod := by
  intro s q hq
  constructor
  · intro hmute hcnt
    rw [← stepCounter_iterate_period q.v0 hcnt]
    exact repeat_sweTick_voice tickedSwe_v0 _ s q hq hmute
  · intro hmute hcnt
    rw [← stepCounter_iterate_period q.v1 hcnt]
    exact repeat_sweTick_voice tickedSwe_v1 _ s q hq hmute

end Sys2Proof.Machine

/-! Exceptions (R131, R134, R135, R360, R366 to R368, R370): which commands are refused, and what changes a pending
interrupt flag. -/

namespace Sys2Proof.Machine

open Sys2Proof

/-! ### The commands that are done (R360) -/

/-- The command answers a next state and is recorded as done. -/
def CommandDone (s : State) (r : Result) : Prop := ∃ t events, r = .next t ∧ t.trace = s.trace ++ [.done events]

theorem commandDone_emit {s s' : State} (h : s'.trace = s.trace) (es : List Event) :
    CommandDone s (.next (s'.emit es)) :=
  ⟨_, es, rfl, by rw [emit_trace, h]⟩

theorem onWve_done {s : State} (h : s.wve.isSome = true) (f : Wve → Wve × List Event) :
    CommandDone s (onWve s f) := by
  obtain ⟨w, hw⟩ := Option.isSome_iff_exists.1 h
  rw [onWve_present hw]
  exact commandDone_emit rfl _

theorem onAdp_done {s : State} (h : s.adp.isSome = true) (f : Adp → Adp × List Event) :
    CommandDone s (onAdp s f) := by
  obtain ⟨p, hp⟩ := Option.isSome_iff_exists.1 h
  rw [onAdp_present hp]
  exact commandDone_emit rfl _

theorem onSwe_done {s : State} (h : s.swe.isSome = true) (f : Swe → Swe × List Event) :
    CommandDone s (onSwe s f) := by
  obtain ⟨q, hq⟩ := Option.isSome_iff_exists.1 h
  rw [onSwe_present hq]
  exact commandDone_emit rfl _

theorem wveLoad_done {s : State} (h : s.wve.isSome = true) (hr : s.oob.load.region < 4) :
    CommandDone s (exec .wveLoad s) := by
  obtain ⟨w, hw⟩ := Option.isSome_iff_exists.1 h
  rw [wveLoad_present hw (q := ⟨_, hr⟩) rfl]
  exact commandDone_emit rfl _

/-- A command of a present engine is done, but for START and a LOAD to a region that is not there. -/
theorem exec_done {i : Instr} {s : State} (hp : s.present i.engine = true) (hi : i.isStart = false)
    (hload : ¬ (i = .wveLoad ∧ 4 ≤ s.oob.load.region)) : CommandDone s (exec i s) := by
  cases i with
  | wveStart | adpStart | sweStart => cases hi
  | wveLoad => exact wveLoad_done hp (Nat.lt_of_not_le fun hr => hload ⟨rfl, hr⟩)
  | wveStop =>
    rw [exec, wveStop_present hp]
    exact commandDone_emit rfl _
  | adpStop =>
    rw [exec, adpStop_present hp]
    exact commandDone_emit rfl _
  | sweStop =>
    rw [exec, sweStop_present hp]
    exact commandDone_emit rfl _
  | adpWrData | adpWrCtrl | adpRd | adpLoad | adpMute | adpReset | adpTick => exact onAdp_done hp _
  | sweWrCtrl0 | sweWrCtrl1 | sweWrLatch0 | sweWrLatch1 | sweWrTrig0 | sweWrTrig1 | sweRd | sweLoad | sweMute | sweReset
  | sweTick => exact onSwe_done hp _
  | ignored acc =>
    cases acc with
    | wveWrite | wveRead => exact onWve_done hp _
    | adpWrite => exact onAdp_done hp _
    | sweWrite => exact onSwe_done hp _
  | _ => exact onWve_done hp _

/-! ### START, for the engine of the command (R131, R132, R370) -/

/-- The configuration that a command would START its engine with is not legal (R10, R131). -/
def IllegalStart (i : Instr) (s : State) : Prop :=
  (i = .wveStart ∧ wveConfigLegal s.oob.wveCfg = false) ∨
    (i = .adpStart ∧ adpConfigLegal s.oob.adpCfg = false) ∨
    (i = .sweStart ∧ sweConfigLegal s.oob.sweCfg = false)

theorem isStart_of_illegalStart {i : Instr} {s : State} (h : IllegalStart i s) : i.isStart = true := by
  obtain ⟨rfl, -⟩ | ⟨rfl, -⟩ | ⟨rfl, -⟩ := h <;> rfl

/-- A legal START of an absent engine is done, whether or not the draw succeeds. -/
theorem startWith_done {e : Engine} {legal : Bool} {made s : State} (hl : legal = true)
    (hmade : made.trace = s.trace) : CommandDone s (startWith e false legal made s) := by
  cases hd : s.oob.draw with
  | success =>
    rw [startWith_next_iff.2 (.inr (.inr (.inl ⟨rfl, hl, hd, rfl⟩)))]
    exact commandDone_emit hmade _
  | allocationFailure =>
    rw [startWith_next_iff.2 (.inr (.inr (.inr ⟨rfl, hl, hd, rfl⟩)))]
    exact commandDone_emit rfl _

/-- START is the common part of START, for its own engine. -/
theorem exec_start {i : Instr} (hi : i.isStart = true) (s : State) :
    ∃ legal made, exec i s = startWith i.engine (s.present i.engine) legal made s ∧ made.trace = s.trace ∧
      (legal = false ↔ IllegalStart i s) := by
  cases i with
  | wveStart | adpStart | sweStart => exact ⟨_, _, rfl, rfl, by simp [IllegalStart]⟩
  | _ => cases hi

/-! ### The commands that are refused (R360, R370) -/

/-- The command answers as `reason` says: it is refused for it and changes nothing else, or, with none, it is done. -/
def AnswersReason (i : Instr) (s : State) (reason : Option RefusalReason) : Prop :=
  (∀ r, reason = some r → exec i s = .next (s.refuse r)) ∧ (reason = none → CommandDone s (exec i s))

theorem answersReason_some {i : Instr} {s : State} {r : RefusalReason} (h : exec i s = .next (s.refuse r)) :
    AnswersReason i s (some r) :=
  ⟨fun _ hr => Option.some.inj hr ▸ h, fun hn => nomatch hn⟩

theorem answersReason_none {i : Instr} {s : State} (h : CommandDone s (exec i s)) : AnswersReason i s none :=
  ⟨fun _ hr => (nomatch hr), fun _ => h⟩

/-- Settles O13: through R370's checks in their order; a command that passes them all is a legal START of an absent
engine, or another command of a present one. -/
theorem refusedExactly : Obligations.RefusedExactly := by
  intro i s
  change AnswersReason i s _
  split_ifs with habsent hpresent hillegal hload
  · exact answersReason_some (absentRefused i s habsent.1 habsent.2)
  · obtain ⟨hp, hi⟩ := hpresent
    obtain ⟨legal, made, hexec, -⟩ := exec_start hi s
    exact answersReason_some (hexec.trans (startWith_next_iff.2 (.inl ⟨hp, rfl⟩)))
  · have hi := isStart_of_illegalStart hillegal
    have hp : s.present i.engine = false := by simpa [hi] using hpresent
    obtain ⟨legal, made, hexec, -, hlegal⟩ := exec_start hi s
    exact answersReason_some (hexec.trans (startWith_next_iff.2 (.inr (.inl ⟨hp, hlegal.2 hillegal, rfl⟩))))
  · obtain ⟨rfl, hr⟩ := hload
    have hp : s.wve.isSome = true := Bool.eq_true_of_not_eq_false fun hn => habsent ⟨hn, rfl⟩
    obtain ⟨w, hw⟩ := Option.isSome_iff_exists.1 hp
    exact answersReason_some (wveLoad_badRegion hw hr)
  · apply answersReason_none
    cases hi : i.isStart with
    | false =>
      have hp : s.present i.engine = true := by simpa [hi] using habsent
      exact exec_done hp hi hload
    | true =>
      have hp : s.present i.engine = false := by simpa [hi] using hpresent
      obtain ⟨legal, made, hexec, hmade, hlegal⟩ := exec_start hi s
      rw [hexec, hp]
      exact startWith_done (Bool.eq_true_of_not_eq_false (mt hlegal.1 hillegal)) hmade

/-! ### The pending flag of a voice (R33, R164, R233, R367) -/

theorem setStop_bit14 (c : BitVec 15) : (setStop c).getLsbD 14 = c.getLsbD 14 := by simp [setStop]

theorem setDir_bit14 (c : BitVec 15) (d : Bool) : (setDir c d).getLsbD 14 = c.getLsbD 14 := by
  cases d <;> simp [setDir]

theorem raiseIrq_bit14 (c : BitVec 15) : (raiseIrq c).getLsbD 14 = (c.getLsbD 14 || c.getLsbD 13) := by
  rw [raiseIrq_eq, BitVec.getLsbD_or]
  cases c.getLsbD 13 <;> simp

theorem ctrlKept_bit14 (val : Word) : (ctrlKept val).getLsbD 14 = val.getLsbD 14 := by simp [ctrlKept]

/-- A crossing raises the flag when IRQE is set, whatever the policy (R233). -/
theorem cross_bit14 (c : WveConfig) (v : Voice) (rev : Bool) (n : Int) :
    (cross c v rev n).ctrl.getLsbD 14 = (v.ctrl.getLsbD 14 || v.ctrl.getLsbD 13) := by
  rw [← raiseIrq_bit14]
  unfold cross
  split
  case h_1 => exact setStop_bit14 _
  case h_3 => exact setDir_bit14 _ _
  case h_2 | h_4 => rfl

/-- An advance raises the flag when it crosses with IRQE set, and never clears it. -/
theorem advance_bit14 (c : WveConfig) (v : Voice) :
    (advance c v).ctrl.getLsbD 14 = (v.ctrl.getLsbD 14 || (crosses c v && v.ctrl.getLsbD 13)) := by
  unfold advance
  split
  case isTrue h => rw [cross_bit14, h, Bool.true_and]
  case isFalse h => simp [h]

/-! ### What a command can do to CTRL of a voice (R164, R213, R231, R390) -/

theorem running_iff {w : Wve} {i : Fin 32} :
    running w i = true ↔ (w.voice i).ctrl.getLsbD 0 = false ∧ w.wmute.getLsbD i.val = false := by
  simp [running, ctrlStop, voiceMuted]

/-- CTRL of voice `v` after a command that leaves the WVE `w` present. -/
inductive CtrlEffect (w : Wve) (v : Fin 32) : Instr → BitVec 15 → Prop
  | kept {i : Instr} {c : BitVec 15} (h : c = (w.voice v).ctrl) : CtrlEffect w v i c
  /-- RESET (R390) -/
  | reset : CtrlEffect w v .wveReset resetVoice.ctrl
  /-- a CTRL commit while PAGE selects the voice (R164) -/
  | commit {d : Byte} (hv : v.val = w.page.toNat % 32) :
      CtrlEffect w v (.wveWrCtrl d) (ctrlKept (w.wlatch.extractLsb' 8 24 ++ d))
  /-- a TICK on which the voice runs (R213, R231) -/
  | tick (hwalked : v.val ≤ w.cfg.actv) (hrun : running w v = true) :
      CtrlEffect w v .wveTick (advance w.cfg (w.voice v)).ctrl

/-- Replacing a voice by one with the same CTRL keeps CTRL of every voice. -/
theorem ctrl_setVoice {w : Wve} {i : Fin 32} {x : Voice} (h : x.ctrl = (w.voice i).ctrl) (v : Fin 32) :
    ((w.setVoice i x).voice v).ctrl = (w.voice v).ctrl := by
  by_cases hv : i = v
  · subst hv
    simpa using h
  · simp [hv]

section
variable {i : Instr} {s t : State} {w w' : Wve} {v : Fin 32}

/-- A command that leaves the WVE as it was keeps CTRL. -/
theorem ctrlEffect_of_wve_eq (h : t.wve = s.wve) (hw : s.wve = some w) (hw' : t.wve = some w') :
    CtrlEffect w v i (w'.voice v).ctrl := by
  cases (hw'.symm.trans h).trans hw
  exact .kept rfl

theorem onWve_ctrlEffect {f : Wve → Wve × List Event} (h : onWve s f = .next t) (hw : s.wve = some w)
    (hw' : t.wve = some w') (hf : CtrlEffect w v i ((f w).1.voice v).ctrl) : CtrlEffect w v i (w'.voice v).ctrl := by
  cases (onWve_present hw f).symm.trans h
  cases hw'
  exact hf

theorem wveLoad_ctrlEffect (h : exec .wveLoad s = .next t) (hw : s.wve = some w) (hw' : t.wve = some w') :
    CtrlEffect w v .wveLoad (w'.voice v).ctrl := by
  obtain hr | hr := Nat.lt_or_ge s.oob.load.region 4
  · cases (wveLoad_present hw (q := ⟨_, hr⟩) rfl).symm.trans h
    cases hw'
    exact .kept rfl
  · cases (wveLoad_badRegion hw hr).symm.trans h
    exact ctrlEffect_of_wve_eq rfl hw hw'

theorem wveStart_ctrlEffect (h : exec .wveStart s = .next t) (hw : s.wve = some w) (hw' : t.wve = some w') :
    CtrlEffect w v .wveStart (w'.voice v).ctrl := by
  have hp : s.present .wve = true := Option.isSome_iff_exists.2 ⟨w, hw⟩
  cases (startWith_next_iff.2 (.inl ⟨hp, rfl⟩)).symm.trans h
  exact ctrlEffect_of_wve_eq rfl hw hw'

theorem wveStop_absent_after (h : exec .wveStop s = .next t) (hw : s.wve = some w) : t.wve = none := by
  cases (wveStop_present (Option.isSome_iff_exists.2 ⟨w, hw⟩)).symm.trans h
  rfl

/-- A commit to another voice register keeps CTRL. -/
theorem commitVoice_ctrlEffect {j : Fin 32} {x : Voice} (h : x.ctrl = (w.voice j).ctrl) :
    CtrlEffect w v i (Wve.voice { w.setVoice j x with wlatch := 0#32 } v).ctrl :=
  .kept (ctrl_setVoice h v)

/-- The committed CTRL goes to the voice PAGE selects. -/
theorem commitCtrl_ctrlEffect (d : Byte) : CtrlEffect w v (.wveWrCtrl d)
    ((w.setVoice (pageVoice w.page)
      { w.voice (pageVoice w.page) with ctrl := ctrlKept (placeLane 3 w.wlatch d) }).voice v).ctrl := by
  by_cases hv : pageVoice w.page = v
  · subst hv
    rw [voice_setVoice_same, placeLane_three]
    exact .commit (by simp [pageVoice, pageVsel])
  · rw [voice_setVoice_other _ _ _ _ hv]
    exact .kept rfl

/-- A TICK advances the voices that are walked and run; it keeps CTRL of the others. -/
theorem tick_ctrlEffect :
    CtrlEffect w v .wveTick ((walkVoices (walkedVoices w.cfg.actv) w).1.voice v).ctrl := by
  rw [voice_walkVoices]
  split
  case isFalse => exact .kept rfl
  case isTrue hwalked =>
    rw [tickVoice, envelope_ctrl]
    split
    case isFalse => exact .kept rfl
    case isTrue hrun =>
      rw [advance_setHistories, setHistories_ctrl]
      exact .tick hwalked hrun

/-- What a command can do to CTRL of a voice, said once. -/
theorem exec_ctrlEffect (h : exec i s = .next t) (hw : s.wve = some w) (hw' : t.wve = some w') :
    CtrlEffect w v i (w'.voice v).ctrl := by
  by_cases he : i.engine = .wve
  case neg =>
    obtain ⟨hframe, -⟩ := engineFrame i s t h
    exact ctrlEffect_of_wve_eq (hframe he) hw hw'
  cases i with
  | wveWrCtrl d => exact onWve_ctrlEffect h hw hw' (commitCtrl_ctrlEffect d)
  | wveWrFreq | wveWrStart | wveWrEnd | wveWrAccum | wveWrLvol | wveWrLvramp | wveWrRvol | wveWrRvramp | wveWrEcount
  | wveWrK1 | wveWrK1ramp | wveWrK2 | wveWrK2ramp | wveWrO1 | wveWrO2 | wveWrO3 | wveWrO4 =>
    exact onWve_ctrlEffect h hw hw' (commitVoice_ctrlEffect rfl)
  | wveLoad => exact wveLoad_ctrlEffect h hw hw'
  | wveReset =>
    refine onWve_ctrlEffect h hw hw' ?_
    rw [voice_resetWve]
    exact .reset
  | wveStart => exact wveStart_ctrlEffect h hw hw'
  | wveStop => cases hw'.symm.trans (wveStop_absent_after h hw)
  | wveTick => exact onWve_ctrlEffect h hw hw' tick_ctrlEffect
  | wveWrL0 | wveWrL1 | wveWrL2 | wveWrPage | wveWrNone | wveRdL0 | wveRdL1 | wveRdL2 | wveRdL3 | wveMute =>
    exact onWve_ctrlEffect h hw hw' (.kept rfl)
  | ignored acc =>
    cases acc with
    | wveWrite | wveRead => exact onWve_ctrlEffect h hw hw' (.kept rfl)
    | adpWrite | sweWrite => cases he
  | _ => cases he

end

/-! ### The sources of the pending flag (R366 to R368) -/

/-- Settles O16: of what a command can do to CTRL, only RESET and the commit can clear bit 14; an advance keeps it. -/
theorem irqSticky : Obligations.IrqSticky := by
  intro i s t w w' v h hw hw' hbefore hafter
  have heffect := exec_ctrlEffect (v := v) h hw hw'
  generalize (w'.voice v).ctrl = c at heffect hafter
  cases heffect with
  | kept hc => cases (hc ▸ hafter).symm.trans hbefore
  | reset => exact .inl rfl
  | commit hv => exact .inr ⟨_, rfl, hv, (ctrlKept_bit14 _).symm.trans hafter⟩
  | tick =>
    rw [advance_bit14, hbefore, Bool.true_or] at hafter
    cases hafter

/-- Settles O17: of what a command can do to CTRL, only the commit and the advance can set bit 14, the advance by a
crossing with IRQE = 1. -/
theorem irqSource : Obligations.IrqSource := by
  intro i s t w w' v h hw hw' hlegal hbefore hafter
  have heffect := exec_ctrlEffect (v := v) h hw hw'
  generalize (w'.voice v).ctrl = c at heffect hafter
  cases heffect with
  | kept hc => cases (hc ▸ hafter).symm.trans hbefore
  | reset => exact absurd hafter (by decide)
  | commit hv => exact .inl ⟨_, rfl, hv, (ctrlKept_bit14 _).symm.trans hafter⟩
  | tick hwalked hrun =>
    rw [advance_bit14, hbefore, Bool.false_or, Bool.and_eq_true] at hafter
    obtain ⟨hcross, hirqe⟩ := hafter
    exact .inr ⟨rfl, ⟨hw, hlegal, hwalked, running_iff.1 hrun⟩, hirqe, (crosses_iff hlegal _).1 hcross⟩

end Sys2Proof.Machine

/-! Reset and hazards (R390 to R395): what RESET gives, what every command keeps, and the first TICK after START. -/

namespace Sys2Proof.Machine

open Sys2Proof

/-! ### RESET (R390 to R394) -/

/-- The rate that ADP.RESET shows is that of RS = 0 (R391, R394). -/
theorem adpRate_zero (c : AdpConfig) : adpRate c 0#2 = (c.clock : Rat) / 48 := by
  rw [adpRate_eq]
  rfl

/-- Settles O28: each RESET is the command of a present engine that puts the reset values, and its rate is the quotient
of R394. -/
theorem resets : Obligations.Resets := by
  refine ⟨fun s w hw => ?_, fun s p hp => ?_, fun s q hq => ?_⟩
  · rw [← wveRate_eq]
    exact onWve_present hw _
  · rw [← adpRate_zero]
    exact onAdp_present hp _
  · rw [← sweRate_eq]
    exact onSwe_present hq _

/-! ### What a command keeps of a present engine (R48, R49, R55, R57, R58, R393) -/

/-- What a command of a present WVE leaves of it. -/
theorem onWve_after {s t : State} {w w' : Wve} {f : Wve → Wve × List Event} (h : onWve s f = .next t)
    (hw : s.wve = some w) (hw' : t.wve = some w') : w' = (f w).1 := by
  cases (onWve_present hw f).symm.trans h
  exact (Option.some.inj hw').symm

/-- What a command of a present SWE leaves of it. -/
theorem onSwe_after {s t : State} {q q' : Swe} {f : Swe → Swe × List Event} (h : onSwe s f = .next t)
    (hq : s.swe = some q) (hq' : t.swe = some q') : q' = (f q).1 := by
  cases (onSwe_present hq f).symm.trans h
  exact (Option.some.inj hq').symm

theorem wveStart_present {s : State} {w : Wve} (hw : s.wve = some w) :
    exec .wveStart s = .next (s.refuse (.startPresent .wve)) :=
  startWith_next_iff.2 (.inl ⟨Option.isSome_of_mem hw, rfl⟩)

theorem sweStart_present {s : State} {q : Swe} (hq : s.swe = some q) :
    exec .sweStart s = .next (s.refuse (.startPresent .swe)) :=
  startWith_next_iff.2 (.inl ⟨Option.isSome_of_mem hq, rfl⟩)

/-- What command `i` keeps of a WVE that stays present: only LOAD reaches the regions, only MUTE the mute mask. -/
structure WveKept (i : Instr) (w w' : Wve) : Prop where
  cfg : w'.cfg = w.cfg
  regions : i ≠ .wveLoad → w'.regions = w.regions
  wmute : i ≠ .wveMute → w'.wmute = w.wmute

/-- What command `i` keeps of an ADP that stays present: only MUTE reaches the mute bit. -/
structure AdpKept (i : Instr) (p p' : Adp) : Prop where
  cfg : p'.cfg = p.cfg
  amute : i ≠ .adpMute → p'.amute = p.amute

/-- What command `i` keeps of a SWE that stays present: only LOAD reaches the LUT, only MUTE the mute bits. -/
structure SweKept (i : Instr) (q q' : Swe) : Prop where
  cfg : q'.cfg = q.cfg
  lut : i ≠ .sweLoad → q'.lut = q.lut
  smute : i ≠ .sweMute → q'.smute = q.smute

section
variable {i : Instr} {s t : State}

section
variable {w w' : Wve}

/-- A command that leaves the WVE as it was. -/
theorem wveKept_of_wve_eq (h : t.wve = s.wve) (hw : s.wve = some w) (hw' : t.wve = some w') : WveKept i w w' := by
  cases (hw'.symm.trans h).trans hw
  exact ⟨rfl, fun _ => rfl, fun _ => rfl⟩

theorem onWve_kept {f : Wve → Wve × List Event} (h : onWve s f = .next t) (hw : s.wve = some w)
    (hw' : t.wve = some w') (hf : ∀ w, WveKept i w (f w).1) : WveKept i w w' :=
  onWve_after h hw hw' ▸ hf w

/-- LOAD reaches one region, or none when it is refused. -/
theorem wveLoad_kept (h : exec .wveLoad s = .next t) (hw : s.wve = some w) (hw' : t.wve = some w') :
    WveKept .wveLoad w w' := by
  obtain hr | hr := Nat.lt_or_ge s.oob.load.region 4
  · cases (wveLoad_present hw (q := ⟨_, hr⟩) rfl).symm.trans h
    cases hw'
    exact ⟨rfl, fun hi => absurd rfl hi, fun _ => rfl⟩
  · cases (wveLoad_badRegion hw hr).symm.trans h
    exact wveKept_of_wve_eq rfl hw hw'

/-- A TICK changes voices and IRQ_OUT only. -/
theorem wveTick_kept (w : Wve) : WveKept i w (settleIrq (walkVoices (walkedVoices w.cfg.actv) w).1) := by
  rw [(walkVoices_spec (nodup_walkedVoices w.cfg.actv) w).1]
  exact ⟨rfl, fun _ => rfl, fun _ => rfl⟩

/-- What every command keeps of a WVE that stays present. -/
theorem exec_wveKept (h : exec i s = .next t) (hw : s.wve = some w) (hw' : t.wve = some w') : WveKept i w w' := by
  by_cases he : i.engine = .wve
  case neg =>
    obtain ⟨hframe, -⟩ := engineFrame i s t h
    exact wveKept_of_wve_eq (hframe he) hw hw'
  cases i with
  | wveLoad => exact wveLoad_kept h hw hw'
  | wveMute => exact onWve_kept h hw hw' fun _ => ⟨rfl, fun _ => rfl, fun hi => absurd rfl hi⟩
  | wveStart =>
    cases (wveStart_present hw).symm.trans h
    exact wveKept_of_wve_eq rfl hw hw'
  | wveStop => cases hw'.symm.trans (wveStop_absent_after h hw)
  | wveTick => exact onWve_kept h hw hw' wveTick_kept
  | ignored acc =>
    cases acc with
    | wveWrite | wveRead => exact onWve_kept h hw hw' fun _ => ⟨rfl, fun _ => rfl, fun _ => rfl⟩
    | adpWrite | sweWrite => cases he
  | wveWrL0 | wveWrL1 | wveWrL2 | wveWrCtrl | wveWrFreq | wveWrStart | wveWrEnd | wveWrAccum | wveWrLvol | wveWrLvramp
  | wveWrRvol | wveWrRvramp | wveWrEcount | wveWrK1 | wveWrK1ramp | wveWrK2 | wveWrK2ramp | wveWrO1 | wveWrO2 | wveWrO3
  | wveWrO4 | wveWrPage | wveWrNone | wveRdL0 | wveRdL1 | wveRdL2 | wveRdL3 | wveReset =>
    exact onWve_kept h hw hw' fun _ => ⟨rfl, fun _ => rfl, fun _ => rfl⟩
  | _ => cases he

end

section
variable {p p' : Adp}

/-- A command that leaves the ADP as it was. -/
theorem adpKept_of_adp_eq (h : t.adp = s.adp) (hp : s.adp = some p) (hp' : t.adp = some p') : AdpKept i p p' := by
  cases (hp'.symm.trans h).trans hp
  exact ⟨rfl, fun _ => rfl⟩

theorem onAdp_kept {f : Adp → Adp × List Event} (h : onAdp s f = .next t) (hp : s.adp = some p)
    (hp' : t.adp = some p') (hf : ∀ p, AdpKept i p (f p).1) : AdpKept i p p' :=
  onAdp_after h hp hp' ▸ hf p

/-- An accepted code reaches the FIFO only, a refused one nothing. -/
theorem adpWrData_kept {d : Byte} (h : exec (.adpWrData d) s = .next t) (hp : s.adp = some p)
    (hp' : t.adp = some p') : AdpKept i p p' := by
  refine onAdp_kept h hp hp' fun p => ?_
  split <;> exact ⟨rfl, fun _ => rfl⟩

/-- None of the four cases of a TICK reaches the mute bit. -/
theorem adpTick_kept (h : exec .adpTick s = .next t) (hp : s.adp = some p) (hp' : t.adp = some p') :
    AdpKept i p p' := by
  refine onAdp_kept h hp hp' fun p => ?_
  split_ifs <;> exact ⟨rfl, fun _ => rfl⟩

/-- What every command keeps of an ADP that stays present. -/
theorem exec_adpKept (h : exec i s = .next t) (hp : s.adp = some p) (hp' : t.adp = some p') : AdpKept i p p' := by
  by_cases he : i.engine = .adp
  case neg =>
    obtain ⟨-, hframe, -⟩ := engineFrame i s t h
    exact adpKept_of_adp_eq (hframe he) hp hp'
  cases i with
  | adpWrData => exact adpWrData_kept h hp hp'
  | adpWrCtrl d => exact onAdp_kept h hp hp' fun p => ⟨writeCtl_cfg p d, fun _ => writeCtl_amute p d⟩
  | adpRd | adpLoad | adpReset => exact onAdp_kept h hp hp' fun _ => ⟨rfl, fun _ => rfl⟩
  | adpMute => exact onAdp_kept h hp hp' fun _ => ⟨rfl, fun hi => absurd rfl hi⟩
  | adpStart =>
    cases (adpStart_present hp).symm.trans h
    exact adpKept_of_adp_eq rfl hp hp'
  | adpStop =>
    cases (adpStop_present (Option.isSome_of_mem hp)).symm.trans h
    cases hp'
  | adpTick => exact adpTick_kept h hp hp'
  | ignored acc =>
    cases acc with
    | adpWrite => exact onAdp_kept h hp hp' fun _ => ⟨rfl, fun _ => rfl⟩
    | wveWrite | wveRead | sweWrite => cases he
  | _ => cases he

end

section
variable {q q' : Swe}

/-- A command that leaves the SWE as it was. -/
theorem sweKept_of_swe_eq (h : t.swe = s.swe) (hq : s.swe = some q) (hq' : t.swe = some q') : SweKept i q q' := by
  cases (hq'.symm.trans h).trans hq
  exact ⟨rfl, fun _ => rfl, fun _ => rfl⟩

theorem onSwe_kept {f : Swe → Swe × List Event} (h : onSwe s f = .next t) (hq : s.swe = some q)
    (hq' : t.swe = some q') (hf : ∀ q, SweKept i q (f q).1) : SweKept i q q' :=
  onSwe_after h hq hq' ▸ hf q

/-- What every command keeps of a SWE that stays present. -/
theorem exec_sweKept (h : exec i s = .next t) (hq : s.swe = some q) (hq' : t.swe = some q') : SweKept i q q' := by
  by_cases he : i.engine = .swe
  case neg =>
    obtain ⟨-, -, hframe, -⟩ := engineFrame i s t h
    exact sweKept_of_swe_eq (hframe he) hq hq'
  cases i with
  | sweLoad => exact onSwe_kept h hq hq' fun _ => ⟨rfl, fun hi => absurd rfl hi, fun _ => rfl⟩
  | sweMute => exact onSwe_kept h hq hq' fun _ => ⟨rfl, fun _ => rfl, fun hi => absurd rfl hi⟩
  | sweStart =>
    cases (sweStart_present hq).symm.trans h
    exact sweKept_of_swe_eq rfl hq hq'
  | sweStop =>
    cases (sweStop_present (Option.isSome_of_mem hq)).symm.trans h
    cases hq'
  | sweWrCtrl0 | sweWrCtrl1 | sweWrLatch0 | sweWrLatch1 | sweWrTrig0 | sweWrTrig1 | sweRd | sweReset | sweTick =>
    exact onSwe_kept h hq hq' fun _ => ⟨rfl, fun _ => rfl, fun _ => rfl⟩
  | ignored acc =>
    cases acc with
    | sweWrite => exact onSwe_kept h hq hq' fun _ => ⟨rfl, fun _ => rfl, fun _ => rfl⟩
    | wveWrite | wveRead | adpWrite => cases he
  | _ => cases he

end

end

/-- Settles O14: by the engine, what every command keeps of it. -/
theorem keptByAll : Obligations.KeptByAll := by
  intro i s t h
  refine ⟨fun w hw w' hw' => ?_, fun p hp p' hp' => ?_, fun q hq q' hq' => ?_⟩
  · obtain ⟨hcfg, hregions, hmute⟩ := exec_wveKept h hw hw'
    exact ⟨hcfg, hregions, hmute⟩
  · obtain ⟨hcfg, hmute⟩ := exec_adpKept h hp hp'
    exact ⟨hcfg, hmute⟩
  · obtain ⟨hcfg, hlut, hmute⟩ := exec_sweKept h hq hq'
    exact ⟨hcfg, hlut, hmute⟩

/-! ### The first TICK after START (R395) -/

theorem contribution_zero (vol : Half) : contribution 0 vol = 0 := by simp [contribution, shiftRight]

/-- A voice whose last pole is 0 adds nothing to any channel (R228). -/
theorem channelPart_of_silent {w : Wve} {i : Fin 32} (h : (voicePoles w i).p4 = 0) (c : Nat) :
    channelPart w c i = 0 := by
  simp [channelPart, h, contribution_zero]

/-- A walk in which every last pole is 0 puts out C zeros (R211, R245). -/
theorem walkVoices_silent {w : Wve} (h : ∀ i, (voicePoles w i).p4 = 0) {order : List (Fin 32)} (hd : order.Nodup) :
    (walkVoices order w).2 = List.replicate w.cfg.chans 0 := by
  obtain ⟨-, -, -, -, hlength⟩ := walkVoices_spec hd w
  refine List.ext_getElem (by simpa using hlength) fun c hc _ => ?_
  have hsum : (order.map (channelPart w c)).sum = 0 :=
    List.sum_eq_zero (by simp [channelPart_of_silent (h _)])
  rw [← List.getD_eq_getElem _ 0 hc, getD_walkVoices hd (hlength ▸ hc), hsum, List.getElem_replicate]
  rfl

/-- START leaves every voice unstopped and unmuted (R131). -/
theorem running_startedWve (cfg : WveConfig) (i : Fin 32) : running (startedWve cfg) i = true := by
  rw [running_iff, voice_startedWve, startedWve_wmute]
  simp [zeroVoice]

/-- START leaves nothing to read and no history, so the default FILTER_STAGE2 gives poles 0 (R131, R216). -/
theorem voicePoles_startedWve {cfg : WveConfig} (hstd : cfg.stage2 = .standard) (i : Fin 32) :
    voicePoles (startedWve cfg) i = { p1 := 0, p2 := 0, p3 := 0, p4 := 0 } := by
  have hsize (r : Fin 4) : ((startedWve cfg).region r).size = 0 := by
    rw [region_startedWve]
    rfl
  refine voicePoles_of_empty hstd (hsize _) ?_ ?_ ?_ ?_ <;> rw [voice_startedWve] <;> rfl

/-- At position 0 with END = 0 and an empty loop, the advance crosses and stops the voice where it stands
(R231, R234, R238). -/
theorem advance_zeroVoice {cfg : WveConfig} (hl : wveConfigLegal cfg = true) :
    advance cfg zeroVoice = { zeroVoice with ctrl := 0x0001#15 } := by
  have hlow : loopLow cfg zeroVoice = 0 := by simp [loopLow, zeroVoice]
  have hhigh : loopHigh cfg zeroVoice = 0 := by simp [loopHigh, zeroVoice]
  have hposition : forwardPosition cfg zeroVoice = 0 := by simp [forwardPosition, zeroVoice]
  have hcross : CrossesForward cfg zeroVoice := ⟨rfl, by rw [hhigh]; exact Nat.zero_le _⟩
  have hpolicy : crossPolicy cfg zeroVoice = .stop := by
    rw [crossPolicy_eq hl, if_pos (by rw [hhigh, hlow])]
  rw [advance_forward hl hcross, cross_stop hpolicy, hposition]
  rfl

/-- A walked voice after the first TICK (R395). -/
theorem tickVoice_startedWve {cfg : WveConfig} (hl : wveConfigLegal cfg = true) (i : Fin 32) :
    (tickVoice (startedWve cfg) i).ctrl = 0x0001#15 ∧ (tickVoice (startedWve cfg) i).accum = 0#32 := by
  rw [tickVoice, if_pos (running_startedWve cfg i), advance_setHistories, voice_startedWve, startedWve_cfg,
    advance_zeroVoice hl, envelope_ctrl, envelope_accum]
  exact ⟨rfl, rfl⟩

/-- Settles O50: all poles are 0, so every channel is; each walked voice crosses its empty loop and stops, and since
IRQE = 0 no flag is raised. -/
theorem firstTickAfterStart : Obligations.FirstTickAfterStart := by
  intro s cfg hl hstd hw
  have hout := walkVoices_silent (fun i => by rw [voicePoles_startedWve hstd i]) (nodup_walkedVoices cfg.actv)
  refine ⟨_, _, wveTick_present hw, rfl, ?_, irqLevel_eq_false fun i => ?_, fun i hi => ?_, fun i hi => ?_⟩
  · rw [emit_trace, startedWve_cfg, hout, startedWve_cfg]
  · rw [voice_walkVoices]
    split
    case isTrue =>
      obtain ⟨hctrl, -⟩ := tickVoice_startedWve hl i
      rw [hctrl]
      rfl
    case isFalse =>
      rw [voice_startedWve]
      rfl
  · rw [voice_settleIrq, voice_walkVoices, startedWve_cfg, if_pos hi]
    exact tickVoice_startedWve hl i
  · rw [voice_settleIrq, voice_walkVoices, startedWve_cfg, if_neg (Nat.not_le_of_lt hi), voice_startedWve]
    rfl

end Sys2Proof.Machine
